-- ==== Sys2Proof/Word.lean ====
section
/-! DEFINITION. The word types of the block: bytes, binary64 bit patterns, complex elements. -/

namespace Sys2Proof

/-- One sample, or one byte of a complex element (R48, R103). -/
abbrev Byte := BitVec 8

/-- One IEEE 754 binary64 value as its bit pattern: bit 63 sign, bits 62:52 exponent,
bits 51:0 fraction (R103, R200). -/
abbrev F64 := BitVec 64

/-- A complex value: an ordered pair of binary64 bit patterns (R9, R46). -/
structure Cplx where
  re : F64
  im : F64
  deriving DecidableEq, Repr

end Sys2Proof
end

