-- ==== Sys2Proof/Syntax.lean ====
section
/-! DEFINITION. The command set: one constructor per row of the opcode map (R158), and the host
accesses and other events that drive the block (R100, R120). -/

namespace Sys2Proof

/-- A command with its fields. Every field has exactly its encoded width (R153 to R156), so every
register, bank and index number that can be written down exists. Register operands are `d`, `a`,
`b` (R153), `r` (R154); banks are `zd`, `zs`, `z` (complex) and `sd`, `ss` (sample) (R155). -/
inductive Instr where
  /-- `NOP` (R220). -/
  | nop
  /-- `CMOV cD, cA` (R221). -/
  | cmov (d a : BitVec 3)
  /-- `CADD cD, cA, cB` (R222). -/
  | cadd (d a b : BitVec 3)
  /-- `CSUB cD, cA, cB` (R223). -/
  | csub (d a b : BitVec 3)
  /-- `CMUL cD, cA, cB` (R224). -/
  | cmul (d a b : BitVec 3)
  /-- `CDIV cD, cA, cB` (R225). -/
  | cdiv (d a b : BitVec 3)
  /-- `CCONJ cD, cA` (R226). -/
  | cconj (d a : BitVec 3)
  /-- `CMAG cD, cA` (R227). -/
  | cmag (d a : BitVec 3)
  /-- `CSCLN cD, cA` (R228). -/
  | cscln (d a : BitVec 3)
  /-- `TWLD cD, K` (R229). -/
  | twld (d : BitVec 3) (k : BitVec 8)
  /-- `BFLY cA, cB, K` (R240). -/
  | bfly (a b : BitVec 3) (k : BitVec 8)
  /-- `BFLYW cA, cB, cW`; `w` is encoded in field D (R241). -/
  | bflyw (a b w : BitVec 3)
  /-- `CLD cR, zZ, ROW, COL` (R270). -/
  | cld (r : BitVec 3) (z : BitVec 1) (row col : BitVec 9)
  /-- `CST cR, zZ, ROW, COL` (R271). -/
  | cst (r : BitVec 3) (z : BitVec 1) (row col : BitVec 9)
  /-- `LIFT zD, sS` (R290). -/
  | lift (zd : BitVec 1) (ss : BitVec 2)
  /-- `FFTROW zD, ROW` (R255). -/
  | fftrow (zd : BitVec 1) (row : BitVec 9)
  /-- `IFFTROW zD, ROW` (R256). -/
  | ifftrow (zd : BitVec 1) (row : BitVec 9)
  /-- `FFTROWS zD` (R257). -/
  | fftrows (zd : BitVec 1)
  /-- `IFFTROWS zD` (R258). -/
  | ifftrows (zd : BitVec 1)
  /-- `TRANS zD` (R291). -/
  | trans (zd : BitVec 1)
  /-- `ZCOPY zD, zS` (R292). -/
  | zcopy (zd zs : BitVec 1)
  /-- `REALCLAMP sD, zS` (R297). -/
  | realclamp (sd : BitVec 2) (zs : BitVec 1)
  /-- `FFT2D zD, sS` (R298). -/
  | fft2d (zd : BitVec 1) (ss : BitVec 2)
  /-- `IFFT2D sD, zD, zS` (R299). -/
  | ifft2d (sd : BitVec 2) (zd zs : BitVec 1)
  /-- `FILTER zD, zS` (R355). -/
  | filter (zd zs : BitVec 1)
  /-- `LOGMAG sD, zS` (R331). -/
  | logmag (sd : BitVec 2) (zs : BitVec 1)
  deriving DecidableEq, Repr

/-- The size of a host access (R100). -/
inductive AccessSize where
  | b1
  | b2
  | b4
  | b8
  deriving DecidableEq, Repr

/-- The number of bytes of an access size. -/
def AccessSize.bytes : AccessSize → Nat
  | .b1 => 1
  | .b2 => 2
  | .b4 => 4
  | .b8 => 8

/-- A host access (R100). The data of an `n`-byte write is the low `n` bytes of `data`
(log entry 16). -/
inductive Access where
  | read (offset : BitVec 32) (size : AccessSize)
  | write (offset : BitVec 32) (size : AccessSize) (data : BitVec 64)
  deriving DecidableEq, Repr

/-- One atomic event of the total order of R120. Acceptance and refusal happen inside a CMD write,
so they are no events of their own (R421). -/
inductive Event where
  /-- A host access (R100). -/
  | access (a : Access)
  /-- A turn of agent CORE: Complete, when a command is in flight (R402). -/
  | core
  /-- The reset input (R450). -/
  | reset
  deriving DecidableEq, Repr

/-- The block's answer to a host access (R100). -/
inductive Response where
  /-- OKAY; `data` is what a read returns, zero-extended, and 0 for a write. -/
  | okay (data : BitVec 64)
  /-- ERROR: a BusError. A read that answers ERROR carries data 0 (R107). -/
  | error
  deriving DecidableEq, Repr

end Sys2Proof
end

