-- ==== Sys2Proof/Decode.lean ====
section
/-! DEFINITION. Decoding and encoding of command words (R150 to R161), from the opcode map of R158.
Decoding is total on every 64-bit CMD value, and what it rejects it rejects by name. -/

namespace Sys2Proof

/-- `OPC = w[7:0]` (R152). -/
def fieldOpc (w : BitVec 32) : BitVec 8 := w.extractLsb' 0 8

/-- `D = w[10:8]` (R153), and `R = w[10:8]` (R154). -/
def fieldD (w : BitVec 32) : BitVec 3 := w.extractLsb' 8 3

/-- `A = w[13:11]` (R153). -/
def fieldA (w : BitVec 32) : BitVec 3 := w.extractLsb' 11 3

/-- `B = w[16:14]` (R153). -/
def fieldB (w : BitVec 32) : BitVec 3 := w.extractLsb' 14 3

/-- `K = w[24:17]` (R153). -/
def fieldK (w : BitVec 32) : BitVec 8 := w.extractLsb' 17 8

/-- Format X `Z = w[11]` (R154). -/
def fieldZ (w : BitVec 32) : BitVec 1 := w.extractLsb' 11 1

/-- Format X `ROW = w[20:12]` (R154). -/
def fieldRowX (w : BitVec 32) : BitVec 9 := w.extractLsb' 12 9

/-- Format X `COL = w[29:21]` (R154). -/
def fieldCol (w : BitVec 32) : BitVec 9 := w.extractLsb' 21 9

/-- `ZD = w[8]` (R155). -/
def fieldZD (w : BitVec 32) : BitVec 1 := w.extractLsb' 8 1

/-- `ZS = w[9]` (R155). -/
def fieldZS (w : BitVec 32) : BitVec 1 := w.extractLsb' 9 1

/-- `SD = w[11:10]` (R155). -/
def fieldSD (w : BitVec 32) : BitVec 2 := w.extractLsb' 10 2

/-- `SS = w[13:12]` (R155). -/
def fieldSS (w : BitVec 32) : BitVec 2 := w.extractLsb' 12 2

/-- Format M `ROW = w[24:16]` (R155). -/
def fieldRowM (w : BitVec 32) : BitVec 9 := w.extractLsb' 16 9

/-- One row of the opcode map: its mask, its match pattern, and the command it makes of a word's
fields (R157, R158). -/
structure OpcodeRow where
  mask : BitVec 32
  pattern : BitVec 32
  build : BitVec 32 → Instr

def rowNop : OpcodeRow := ⟨0xFFFFFFFF#32, 0x00#32, fun _ => .nop⟩
def rowCmov : OpcodeRow := ⟨0xFFFFC0FF#32, 0x01#32, fun w => .cmov (fieldD w) (fieldA w)⟩
def rowCadd : OpcodeRow :=
  ⟨0xFFFE00FF#32, 0x02#32, fun w => .cadd (fieldD w) (fieldA w) (fieldB w)⟩
def rowCsub : OpcodeRow :=
  ⟨0xFFFE00FF#32, 0x03#32, fun w => .csub (fieldD w) (fieldA w) (fieldB w)⟩
def rowCmul : OpcodeRow :=
  ⟨0xFFFE00FF#32, 0x04#32, fun w => .cmul (fieldD w) (fieldA w) (fieldB w)⟩
def rowCdiv : OpcodeRow :=
  ⟨0xFFFE00FF#32, 0x05#32, fun w => .cdiv (fieldD w) (fieldA w) (fieldB w)⟩
def rowCconj : OpcodeRow := ⟨0xFFFFC0FF#32, 0x06#32, fun w => .cconj (fieldD w) (fieldA w)⟩
def rowCmag : OpcodeRow := ⟨0xFFFFC0FF#32, 0x07#32, fun w => .cmag (fieldD w) (fieldA w)⟩
def rowCscln : OpcodeRow := ⟨0xFFFFC0FF#32, 0x08#32, fun w => .cscln (fieldD w) (fieldA w)⟩
def rowTwld : OpcodeRow := ⟨0xFE01F8FF#32, 0x09#32, fun w => .twld (fieldD w) (fieldK w)⟩
def rowBfly : OpcodeRow :=
  ⟨0xFE0007FF#32, 0x0A#32, fun w => .bfly (fieldA w) (fieldB w) (fieldK w)⟩
/-- The twiddle register of `BFLYW` is in field D (R241). -/
def rowBflyw : OpcodeRow :=
  ⟨0xFFFE00FF#32, 0x0B#32, fun w => .bflyw (fieldA w) (fieldB w) (fieldD w)⟩
def rowCld : OpcodeRow :=
  ⟨0xC00000FF#32, 0x10#32, fun w => .cld (fieldD w) (fieldZ w) (fieldRowX w) (fieldCol w)⟩
def rowCst : OpcodeRow :=
  ⟨0xC00000FF#32, 0x11#32, fun w => .cst (fieldD w) (fieldZ w) (fieldRowX w) (fieldCol w)⟩
def rowLift : OpcodeRow := ⟨0xFFFFCEFF#32, 0x20#32, fun w => .lift (fieldZD w) (fieldSS w)⟩
def rowFftrow : OpcodeRow :=
  ⟨0xFE00FEFF#32, 0x21#32, fun w => .fftrow (fieldZD w) (fieldRowM w)⟩
def rowIfftrow : OpcodeRow :=
  ⟨0xFE00FEFF#32, 0x22#32, fun w => .ifftrow (fieldZD w) (fieldRowM w)⟩
def rowFftrows : OpcodeRow := ⟨0xFFFFFEFF#32, 0x23#32, fun w => .fftrows (fieldZD w)⟩
def rowIfftrows : OpcodeRow := ⟨0xFFFFFEFF#32, 0x24#32, fun w => .ifftrows (fieldZD w)⟩
def rowTrans : OpcodeRow := ⟨0xFFFFFEFF#32, 0x25#32, fun w => .trans (fieldZD w)⟩
def rowZcopy : OpcodeRow := ⟨0xFFFFFCFF#32, 0x26#32, fun w => .zcopy (fieldZD w) (fieldZS w)⟩
def rowRealclamp : OpcodeRow :=
  ⟨0xFFFFF1FF#32, 0x27#32, fun w => .realclamp (fieldSD w) (fieldZS w)⟩
def rowFft2d : OpcodeRow := ⟨0xFFFFCEFF#32, 0x28#32, fun w => .fft2d (fieldZD w) (fieldSS w)⟩
def rowIfft2d : OpcodeRow :=
  ⟨0xFFFFF0FF#32, 0x29#32, fun w => .ifft2d (fieldSD w) (fieldZD w) (fieldZS w)⟩
def rowFilter : OpcodeRow := ⟨0xFFFFFCFF#32, 0x2A#32, fun w => .filter (fieldZD w) (fieldZS w)⟩
def rowLogmag : OpcodeRow := ⟨0xFFFFF1FF#32, 0x2B#32, fun w => .logmag (fieldSD w) (fieldZS w)⟩

/-- The complete opcode map (R158). -/
def opcodeTable : List OpcodeRow :=
  [rowNop, rowCmov, rowCadd, rowCsub, rowCmul, rowCdiv, rowCconj, rowCmag, rowCscln, rowTwld,
   rowBfly, rowBflyw, rowCld, rowCst] ++
  [rowLift, rowFftrow, rowIfftrow, rowFftrows, rowIfftrows, rowTrans, rowZcopy, rowRealclamp,
   rowFft2d, rowIfft2d, rowFilter, rowLogmag]

/-- A word belongs to a row exactly when `(w & mask) = match` (R157). -/
def OpcodeRow.accepts (r : OpcodeRow) (w : BitVec 32) : Bool := w &&& r.mask == r.pattern

/-- Why a CMD value is no command. Each is refused with ILLEGAL (R159). -/
inductive IllegalCause where
  /-- A bit of CMD[63:32] is 1 (R151). -/
  | upperBits
  /-- The opcode names no command (R159). -/
  | reservedOpcode
  /-- A bit that belongs to no field of the command is 1 (R157). -/
  | mustBeZero
  deriving DecidableEq, Repr

/-- What a CMD value decodes to (R161). -/
inductive Decoded where
  | command (i : Instr)
  | illegal (cause : IllegalCause)
  deriving DecidableEq, Repr

/-- The command of a 32-bit word, if it is one: the first row that accepts it (R161). -/
def decodeWord (w : BitVec 32) : Option Instr :=
  (opcodeTable.find? fun r => r.accepts w).map fun r => r.build w

/-- Whether some row of the opcode map has the word's opcode. -/
def opcodeListed (w : BitVec 32) : Bool :=
  opcodeTable.any fun r => fieldOpc w == fieldOpc r.pattern

/-- `Decode(v)`, total on every 64-bit CMD value (R161). -/
def decode (v : BitVec 64) : Decoded :=
  if v.extractLsb' 32 32 ≠ 0#32 then .illegal .upperBits
  else
    match decodeWord (v.extractLsb' 0 32) with
    | some i => .command i
    | none =>
      if opcodeListed (v.extractLsb' 0 32) then .illegal .mustBeZero else .illegal .reservedOpcode

/-- A format R word (R153). -/
def encodeR (opc : BitVec 8) (d a b : BitVec 3) (k : BitVec 8) : BitVec 32 :=
  0#7 ++ k ++ b ++ a ++ d ++ opc

/-- A format X word (R154). -/
def encodeX (opc : BitVec 8) (r : BitVec 3) (z : BitVec 1) (row col : BitVec 9) : BitVec 32 :=
  0#2 ++ col ++ row ++ z ++ r ++ opc

/-- A format M word (R155). -/
def encodeM (opc : BitVec 8) (zd zs : BitVec 1) (sd ss : BitVec 2) (row : BitVec 9) : BitVec 32 :=
  0#7 ++ row ++ 0#2 ++ ss ++ sd ++ zs ++ zd ++ opc

/-- The word of a command: each operand's number in its field, every other bit 0 (R158, R170). -/
def encode : Instr → BitVec 32
  | .nop => encodeR 0x00#8 0#3 0#3 0#3 0#8
  | .cmov d a => encodeR 0x01#8 d a 0#3 0#8
  | .cadd d a b => encodeR 0x02#8 d a b 0#8
  | .csub d a b => encodeR 0x03#8 d a b 0#8
  | .cmul d a b => encodeR 0x04#8 d a b 0#8
  | .cdiv d a b => encodeR 0x05#8 d a b 0#8
  | .cconj d a => encodeR 0x06#8 d a 0#3 0#8
  | .cmag d a => encodeR 0x07#8 d a 0#3 0#8
  | .cscln d a => encodeR 0x08#8 d a 0#3 0#8
  | .twld d k => encodeR 0x09#8 d 0#3 0#3 k
  | .bfly a b k => encodeR 0x0A#8 0#3 a b k
  | .bflyw a b w => encodeR 0x0B#8 w a b 0#8
  | .cld r z row col => encodeX 0x10#8 r z row col
  | .cst r z row col => encodeX 0x11#8 r z row col
  | .lift zd ss => encodeM 0x20#8 zd 0#1 0#2 ss 0#9
  | .fftrow zd row => encodeM 0x21#8 zd 0#1 0#2 0#2 row
  | .ifftrow zd row => encodeM 0x22#8 zd 0#1 0#2 0#2 row
  | .fftrows zd => encodeM 0x23#8 zd 0#1 0#2 0#2 0#9
  | .ifftrows zd => encodeM 0x24#8 zd 0#1 0#2 0#2 0#9
  | .trans zd => encodeM 0x25#8 zd 0#1 0#2 0#2 0#9
  | .zcopy zd zs => encodeM 0x26#8 zd zs 0#2 0#2 0#9
  | .realclamp sd zs => encodeM 0x27#8 0#1 zs sd 0#2 0#9
  | .fft2d zd ss => encodeM 0x28#8 zd 0#1 0#2 ss 0#9
  | .ifft2d sd zd zs => encodeM 0x29#8 zd zs sd 0#2 0#9
  | .filter zd zs => encodeM 0x2A#8 zd zs 0#2 0#2 0#9
  | .logmag sd zs => encodeM 0x2B#8 0#1 zs sd 0#2 0#9

/-- The 64-bit CMD write that submits a command (R150, R173). -/
def cmdValue (i : Instr) : BitVec 64 := 0#32 ++ encode i

/-- The row of the opcode map that a command belongs to. -/
def rowOf : Instr → OpcodeRow
  | .nop => rowNop
  | .cmov _ _ => rowCmov
  | .cadd _ _ _ => rowCadd
  | .csub _ _ _ => rowCsub
  | .cmul _ _ _ => rowCmul
  | .cdiv _ _ _ => rowCdiv
  | .cconj _ _ => rowCconj
  | .cmag _ _ => rowCmag
  | .cscln _ _ => rowCscln
  | .twld _ _ => rowTwld
  | .bfly _ _ _ => rowBfly
  | .bflyw _ _ _ => rowBflyw
  | .cld _ _ _ _ => rowCld
  | .cst _ _ _ _ => rowCst
  | .lift _ _ => rowLift
  | .fftrow _ _ => rowFftrow
  | .ifftrow _ _ => rowIfftrow
  | .fftrows _ => rowFftrows
  | .ifftrows _ => rowIfftrows
  | .trans _ => rowTrans
  | .zcopy _ _ => rowZcopy
  | .realclamp _ _ => rowRealclamp
  | .fft2d _ _ => rowFft2d
  | .ifft2d _ _ _ => rowIfft2d
  | .filter _ _ => rowFilter
  | .logmag _ _ => rowLogmag

/-- A word of `nbits` bits of the opcode table as the CMD value that carries it: bit 0 of the word
is bit 0 of CMD, and every bit from `nbits` up is 0 (R150, R151). -/
def cmdValueOfTableWord (nbits w : Nat) : BitVec 64 := BitVec.ofNat 64 (w % 2 ^ nbits)

/-- The command the decoder reads from a word of the opcode table. -/
def decodeTableWord (nbits w : Nat) : Option Instr :=
  match decode (cmdValueOfTableWord nbits w) with
  | .command i => some i
  | .illegal _ => none

end Sys2Proof
end

