-- ==== Sys2Proof/Machine/Numerics.lean ====
section
/-! DEFINITION. Binary64 arithmetic (R200 to R207), rounded once, to nearest with ties to even.

Every finite binary64 is an integer number of UNITS of `2^-1074`, up to sign. An operation forms
its exact result as a ratio of naturals in units, and `roundUnits` narrows it once. -/

namespace Sys2Proof.Machine

/-- The canonical quiet NaN (R204). -/
def qnan : F64 := 0x7FF8000000000000#64

/-- `+0.0`. -/
def fzero : F64 := 0#64

/-- `1.0`. -/
def fone : F64 := 0x3FF0000000000000#64

/-- `2.0`. -/
def ftwo : F64 := 0x4000000000000000#64

/-- The pattern of `+∞` without its sign bit. -/
def infPattern : Nat := 0x7FF0000000000000

/-- `+∞`. -/
def finf : F64 := 0x7FF0000000000000#64

/-- The sign bit (R103). -/
def fsign (x : F64) : Bool := x.msb

/-- The pattern without its sign bit. It orders the non-NaN magnitudes. -/
def fmag (x : F64) : Nat := x.toNat % 2 ^ 63

/-- NaN: exponent field all ones and a nonzero fraction. -/
def isNaN (x : F64) : Bool := decide (infPattern < fmag x)

/-- `±∞`. -/
def isInf (x : F64) : Bool := decide (fmag x = infPattern)

/-- `±0`. -/
def isZero (x : F64) : Bool := decide (fmag x = 0)

/-- Neither NaN nor infinite. -/
def isFinite (x : F64) : Bool := decide (fmag x < infPattern)

/-- A sign and a pattern below `2^63`, put together. -/
def packSign (neg : Bool) (p : Nat) : F64 := BitVec.ofNat 64 (if neg then 2 ^ 63 + p else p)

/-- The magnitude of a finite value in units of `2^-1074`: subnormals count at their value
(R202). -/
def units (x : F64) : Nat :=
  let e := fmag x / 2 ^ 52
  let f := fmag x % 2 ^ 52
  if e = 0 then f else (2 ^ 52 + f) * 2 ^ (e - 1)

/-- The signed value of a finite binary64 in units of `2^-1074`. -/
def signedUnits (x : F64) : Int := if fsign x then -(units x : Int) else (units x : Int)

/-- The integer nearest to `num / den`, ties to the even integer. -/
def roundHalfEven (num den : Nat) : Nat :=
  let q := num / den
  let r := num % den
  if 2 * r < den then q
  else if den < 2 * r then q + 1
  else if q % 2 = 0 then q else q + 1

/-- `⌊log₂ n⌋` for `n < 2^2^k`, by halving the range of the exponent. -/
def ilog2Below : (k n : Nat) → Nat
  | 0, _ => 0
  | k + 1, n =>
    if n < 2 ^ 2 ^ k then ilog2Below k n else 2 ^ k + ilog2Below k (n / 2 ^ 2 ^ k)

/-- `⌊log₂ n⌋`, equal to `Nat.log2 n` (`ilog2_eq`); written so that the kernel evaluates it in a few
steps on the numbers that occur. -/
def ilog2 (n : Nat) : Nat := if n < 2 ^ 2 ^ 13 then ilog2Below 13 n else Nat.log2 n

/-- How many low bits of a magnitude of `t` whole units a 53-bit significand drops. -/
def dropBits (t : Nat) : Nat := ilog2 t + 1 - 53

/-- The pattern of the magnitude `r · 2^sh` units, for `r ≤ 2^53` (and `2^52 ≤ r` when `0 < sh`):
the binary64 encoding is monotone, so a carry into the next exponent needs no case of its own, and
what lies beyond the largest finite value is infinite (R203). -/
def packUnits (sh r : Nat) : Nat := min (sh * 2 ^ 52 + r) infPattern

/-- The pattern of `num / den` units rounded once to nearest, ties to even (R201). -/
def roundUnits (num den : Nat) : Nat :=
  let sh := dropBits (num / den)
  packUnits sh (roundHalfEven num (den * 2 ^ sh))

/-- The sign bit flipped and nothing else (R13, R204). -/
def fneg (x : F64) : F64 := x ^^^ 0x8000000000000000#64

/-- The sign bit cleared and nothing else (R13, R204). -/
def fabs (x : F64) : F64 := x &&& 0x7FFFFFFFFFFFFFFF#64

/-- The rounded sum of two finite values. An exact zero is `+0`, but for `(−0) + (−0)` (R203). -/
def addFinite (a b : F64) : F64 :=
  let z := signedUnits a + signedUnits b
  if z = 0 then packSign (fsign a && fsign b) 0
  else packSign (decide (z < 0)) (roundUnits z.natAbs 1)

/-- `RN(a + b)` (R201, R203, R204). -/
def fadd (a b : F64) : F64 :=
  if isNaN a || isNaN b then qnan
  else if isInf a then (if isInf b && (fsign a != fsign b) then qnan else a)
  else if isInf b then b
  else addFinite a b

/-- `RN(a − b)`: IEEE 754 subtraction is addition of the negated operand, zeros and infinities
included (R201, R203). -/
def fsub (a b : F64) : F64 := fadd a (fneg b)

/-- `RN(a · b)` (R201, R203, R204). -/
def fmul (a b : F64) : F64 :=
  let s := fsign a != fsign b
  if isNaN a || isNaN b then qnan
  else if isInf a || isInf b then
    (if isZero a || isZero b then qnan else packSign s infPattern)
  else packSign s (roundUnits (units a * units b) (2 ^ 1074))

/-- `RN(a / b)` (R201, R203, R204). -/
def fdiv (a b : F64) : F64 :=
  let s := fsign a != fsign b
  if isNaN a || isNaN b then qnan
  else if isInf a then (if isInf b then qnan else packSign s infPattern)
  else if isInf b then packSign s 0
  else if isZero b then (if isZero a then qnan else packSign s infPattern)
  else packSign s (roundUnits (units a * 2 ^ 1074) (units b))

/-- The greatest `r + k` with `k < 2^bits` and `(r + k)² ≤ n`, bit by bit from the top, for
`r² ≤ n`. -/
def isqrtFrom : (bits r n : Nat) → Nat
  | 0, r, _ => r
  | bits + 1, r, n =>
    let c := r + 2 ^ bits
    isqrtFrom bits (if c * c ≤ n then c else r) n

/-- The magnitude pattern of the rounded square root of `u` units, `u` not 0. The root of `u`
units is the root of `u · 2^1074`, counted in units. -/
def sqrtUnits (u : Nat) : Nat :=
  let m := u * 2 ^ 1074
  let sh := ilog2 m / 2 + 1 - 53
  let q := isqrtFrom 53 0 (m / 4 ^ sh)
  packUnits sh (if (2 * q + 1) * (2 * q + 1) * 4 ^ sh < 4 * m then q + 1 else q)

/-- `RN(sqrt(a))` (R201, R203, R204). -/
def fsqrt (a : F64) : F64 :=
  if isNaN a then qnan
  else if isZero a then a
  else if fsign a then qnan
  else if isInf a then a
  else packSign false (sqrtUnits (units a))

/-- The position of a non-NaN value in the order of the extended reals; both zeros are at 0. -/
def orderKey (x : F64) : Int := if fsign x then -(fmag x : Int) else (fmag x : Int)

/-- `a <= b`: false with a NaN operand, `−0` equal to `+0` (R206). -/
def fle (a b : F64) : Bool := !isNaN a && !isNaN b && decide (orderKey a ≤ orderKey b)

/-- `a > b` (R206). -/
def fgt (a b : F64) : Bool := !isNaN a && !isNaN b && decide (orderKey b < orderKey a)

/-- `a = b` as values (R206). -/
def feq (a b : F64) : Bool := !isNaN a && !isNaN b && decide (orderKey a = orderKey b)

/-- `dbl(n)`: the binary64 of a natural number; exact below `2^53` (R207). -/
def dbl (n : Nat) : F64 := packSign false (roundUnits (n * 2 ^ 1074) 1)

/-- `SAT8(x)`: nearest integer, ties to even, on the exact value, clamped to a byte; NaN and `−∞`
give 0, `+∞` gives 255 (R296). -/
def sat8 (x : F64) : Byte :=
  if isNaN x then 0#8
  else if fsign x then 0#8
  else if isInf x then 255#8
  else BitVec.ofNat 8 (min (roundHalfEven (units x) (2 ^ 1074)) 255)

end Sys2Proof.Machine
end

