-- ==== Sys2Proof/Machine/Conforming.lean ====
section
/-! DEFINITION. What R208 asks of every EXP and R209 of every LN, and the types of the functions that
meet it. Log entries 2 and 3. -/

namespace Sys2Proof.Machine

/-- `−∞`. -/
def fninf : F64 := 0xFFF0000000000000#64

/-- The NaN rule of an arithmetic function (R204): a NaN operand and a NaN result give the canonical
NaN. -/
def NanCanonical (f : F64 → F64) : Prop :=
  (∀ x, isNaN x = true → f x = qnan) ∧ ∀ x, isNaN (f x) = true → f x = qnan

/-- Monotone non-decreasing on `x <= 0` (R208). -/
def ExpMonotone (f : F64 → F64) : Prop :=
  ∀ x y : F64, fle x y = true → fle y fzero = true → fle (f x) (f y) = true

/-- Monotone non-decreasing (R209), wherever neither result is a NaN: R209's own default has NaNs
below 0, where the block never calls it. DEDUCED, log entry 3. -/
def LnMonotone (f : F64 → F64) : Prop :=
  ∀ x y : F64, fle x y = true → isNaN (f x) = false → isNaN (f y) = false →
    fle (f x) (f y) = true

/-- What every EXP must satisfy (R208). -/
structure ExpAllowed (f : F64 → F64) : Prop where
  atZero : ∀ x, isZero x = true → f x = fone
  atNegInf : f fninf = fzero
  nan : NanCanonical f
  bounded : ∀ x, fle x fzero = true → fle fzero (f x) = true ∧ fle (f x) fone = true
  monotone : ExpMonotone f

/-- What every LN must satisfy (R209). -/
structure LnAllowed (f : F64 → F64) : Prop where
  atOne : f fone = fzero
  atInf : f finf = finf
  nan : NanCanonical f
  bounded : ∀ x, fle fone x = true → fle fzero (f x) = true
  monotone : LnMonotone f

/-- A step at 0, which shows that R208 allows some function. -/
def expStep (x : F64) : F64 :=
  if isNaN x then qnan else if 0 ≤ orderKey x then fone else fzero

/-- A step at `+∞`, which shows that R209 allows some function. -/
def lnStep (x : F64) : F64 :=
  if isNaN x then qnan else if orderKey finf ≤ orderKey x then finf else fzero

theorem fle_iff (a b : F64) :
    fle a b = true ↔ isNaN a = false ∧ isNaN b = false ∧ orderKey a ≤ orderKey b := by
  simp [fle, and_assoc]

/-- A function that steps from `lo` to `hi` at one place of the order is NaN-canonical. -/
theorem nanCanonical_step {k : Int} {lo hi : F64} (hlo : isNaN lo = false) (hhi : isNaN hi = false) :
    NanCanonical fun x => if isNaN x then qnan else if k ≤ orderKey x then hi else lo := by
  refine ⟨fun x h => by simp [h], fun x h => ?_⟩
  cases hx : isNaN x
  · simp only [hx, Bool.false_eq_true, if_false] at h
    split at h <;> simp_all
  · simp [hx]

/-- A function that steps up from `lo` to `hi` is monotone. -/
theorem monotone_step {k : Int} {lo hi : F64} (hll : fle lo lo = true) (hlh : fle lo hi = true)
    (hhh : fle hi hi = true) (x y : F64) (h : fle x y = true) :
    fle (if isNaN x then qnan else if k ≤ orderKey x then hi else lo)
      (if isNaN y then qnan else if k ≤ orderKey y then hi else lo) = true := by
  obtain ⟨hx, hy, hxy⟩ := (fle_iff x y).1 h
  simp only [hx, hy, Bool.false_eq_true, if_false]
  split <;> split <;> first | assumption | (exfalso; omega)

theorem expStep_allowed : ExpAllowed expStep where
  atZero x h := by
    have hm : fmag x = 0 := by simpa [isZero] using h
    simp [expStep, isNaN, orderKey, hm]
  atNegInf := by decide
  nan := nanCanonical_step (by decide) (by decide)
  bounded x h := by
    have hx := ((fle_iff x fzero).1 h).1
    simp only [expStep, hx, Bool.false_eq_true, if_false]
    split <;> decide
  monotone x y h _ := monotone_step (by decide) (by decide) (by decide) x y h

theorem lnStep_allowed : LnAllowed lnStep where
  atOne := by decide
  atInf := by decide
  nan := nanCanonical_step (by decide) (by decide)
  bounded x h := by
    have hx := ((fle_iff fone x).1 h).2.1
    simp only [lnStep, hx, Bool.false_eq_true, if_false]
    split <;> decide
  monotone x y h _ _ := monotone_step (by decide) (by decide) (by decide) x y h

/-- The functions that R208 allows as EXP. -/
structure ExpFunction where
  eval : F64 → F64 := expStep
  allowed : ExpAllowed eval := by exact expStep_allowed
  deriving Inhabited

/-- The functions that R209 allows as LN. -/
structure LnFunction where
  eval : F64 → F64 := lnStep
  allowed : LnAllowed eval := by exact lnStep_allowed
  deriving Inhabited

end Sys2Proof.Machine
end

