-- ==== Sys2Proof/Config.lean ====
section
/-! DEFINITION. What the spec leaves open for the whole life of the machine (R9, R30) and the free
values. Every constant that is open has NO body, so no proof can see a value of it. -/

namespace Sys2Proof.Config

/-- `N_MAX`, the largest transform side and the row stride of every bank (R9, R47). -/
def nMax : Nat := 512

/-- Seed of the open parameter `LOGDIV_RESET` (R9, R38, U15). Log entry 1. -/
opaque logdivSeed : Nat

/-- `LOGDIV_RESET`: a positive finite binary64, otherwise unknown. The patterns `1` to
`0x7FEF_FFFF_FFFF_FFFF` are exactly the positive finite values, and every one of them is the value
for some seed. Log entry 1. -/
def logdivReset : F64 := BitVec.ofNat 64 (1 + logdivSeed % 0x7FEFFFFFFFFFFFFF)

/-- The implementation's EXP: some function that R208 allows, otherwise unknown. Log entry 2. -/
opaque expFunction : Machine.ExpFunction

/-- The implementation's LN: some function that R209 allows, otherwise unknown. Log entry 3. -/
opaque lnFunction : Machine.LnFunction

/-- A free value: what byte address `address` of a bank reads as in the `draw`-th reading event
after power-up, while nothing has written it since reset (R452). Log entry 4. -/
opaque drawByte (draw address : Nat) : Byte

/-- `BASE`, where the platform puts offset 0 (R113). No rule reads it, and nothing here does.
Log entry 15. -/
opaque base : Nat

end Sys2Proof.Config
end

