-- ==== Sys2Proof/Machine/State.lean ====
section
/-! DEFINITION. The state of the block (R30), as plain data, and the state after reset (R56). -/

namespace Sys2Proof.Machine

/-- The bytes of the banks that have been written since reset, by host offset (R48, R49, R102), in
rising order of address. An address that is not listed is unwritten (R452). -/
abbrev Memory := List Host.Cell

/-- The canonical form of a memory: addresses strictly rising. An unlisted address reads as no
fixed value (each read is a fresh draw, R452), so any byte may be listed. -/
def Memory.wf : Memory → Bool
  | [] => true
  | [_] => true
  | c :: c' :: rest => decide (c.1 < c'.1) && Memory.wf (c' :: rest)

/-- The reasons a step could stop with a fault: none. Every host access has a defined outcome,
BusError included (R460, R462); a command that fails a check is refused by the block itself, which
is a state transition (R404, R409); no command fails after acceptance (R401). Log entry 20. -/
inductive Fault where
  deriving DecidableEq, Repr

/-- The reasons the model could give an instruction no meaning. -/
inductive Refusal where
  /-- Raised by an arm of `exec` for an instruction that has no meaning in the model yet (none now).
  Safe: the model stops where the block goes on. -/
  | notModelled (mnemonic : String)
  deriving DecidableEq, Repr

/-- The state of the block. -/
structure State where
  /-- NCFG.LOG2N (R35). -/
  log2n : BitVec 4
  /-- FILT.FAMILY (R36). -/
  family : BitVec 2
  /-- FILT.PASS (R36). -/
  pass : BitVec 1
  /-- CUTOFF (R37). -/
  cutoff : F64
  /-- LOGDIV (R38). -/
  logdiv : F64
  /-- STATUS.DONE (R40). -/
  done : Bool
  /-- STATUS.ERR (R40). -/
  err : Bool
  /-- STATUS.EOVF (R40). -/
  eovf : Bool
  /-- STATUS.ERRCODE (R40, R405). -/
  errcode : BitVec 8
  /-- ERRCMD (R43). -/
  errcmd : BitVec 64
  /-- IRQEN.DONEIE (R41). -/
  doneie : Bool
  /-- IRQEN.ERRIE (R41). -/
  errie : Bool
  /-- IMAGMAX (R42). -/
  imagmax : F64
  /-- The complex registers C0..C7 (R46). -/
  creg : Vector Cplx 8
  /-- The sample banks S0..S3 and the complex banks Z0, Z1 (R48, R49). -/
  mem : Memory
  /-- The command in flight (R55, R401); its whole effect is in place already, as R401 allows.
  STATUS.BUSY is whether there is one. Log entry 6. -/
  pending : Option Instr
  /-- The model's own: the events still to come, in the one total order of R120. Log entry 7. -/
  events : List Event
  /-- The model's own: the block's answer to the last host access (R100). Log entry 9. -/
  resp : Option Response
  /-- The model's own: the number of the next reading event, which picks its free values (R452).
  Log entry 4. -/
  draws : Nat
  deriving DecidableEq, Repr

/-- The machine right after reset (R56, R450). -/
def State.reset : State where
  log2n := 9#4
  family := 0#2
  pass := 0#1
  cutoff := 0x4034000000000000#64
  logdiv := Config.logdivReset
  done := false
  err := false
  eovf := false
  errcode := 0#8
  errcmd := 0#64
  doneie := false
  errie := false
  imagmax := 0#64
  creg := Vector.replicate 8 ⟨0#64, 0#64⟩
  mem := []
  pending := none
  events := []
  resp := none
  draws := 0

end Sys2Proof.Machine
end

