-- ==== Sys2Proof/Machine/Flags.lean ====
section
/-! DEFINITION. The flags of the block: STATUS and its W1C write (R40), the error codes (R405), the
interrupt line (R420). No arithmetic result sets a flag (R54, R205). -/

namespace Sys2Proof.Machine

/-- The error codes of R405. -/
def codeNone : BitVec 8 := 0#8
def codeIllegal : BitVec 8 := 1#8
def codeShape : BitVec 8 := 2#8
def codeRange : BitVec 8 := 3#8
def codeFiltParam : BitVec 8 := 4#8
def codeLogParam : BitVec 8 := 5#8

/-- STATUS.BUSY: 1 from the acceptance of a command to its completion (R40, R55). -/
def busy (s : State) : Bool := s.pending.isSome

/-- A flag as one bit of a register word. -/
def flagBit (b : Bool) (k : Nat) : BitVec 64 := if b then 1#64 <<< k else 0#64

/-- STATUS as the host reads it: bits 7:4 and 63:16 read 0 (R40). -/
def statusWord (s : State) : BitVec 64 :=
  flagBit (busy s) 0 ||| flagBit s.done 1 ||| flagBit s.err 2 ||| flagBit s.eovf 3 |||
    (s.errcode.setWidth 64 <<< 8)

/-- A host write to STATUS: clears each of DONE, ERR and EOVF whose bit is 1 in the written value,
and with ERR also ERRCODE and ERRCMD; every other bit is ignored (R40). -/
def writeOneToClear (v : BitVec 64) (s : State) : State :=
  { s with
    done := s.done && !v.getLsbD 1
    err := s.err && !v.getLsbD 2
    eovf := s.eovf && !v.getLsbD 3
    errcode := if v.getLsbD 2 then codeNone else s.errcode
    errcmd := if v.getLsbD 2 then 0#64 else s.errcmd }

/-- IRQEN as the host reads it (R41). -/
def irqenWord (s : State) : BitVec 64 := flagBit s.doneie 0 ||| flagBit s.errie 1

/-- The interrupt output, a level; EOVF does not drive it (R420). -/
def irq (s : State) : Bool := (s.done && s.doneie) || (s.err && s.errie)

end Sys2Proof.Machine
end

