-- ==== Sys2Proof/Machine/Complex.lean ====
section
/-! DEFINITION. The complex operations (R210 to R215), each in the operation order of its rule. -/

namespace Sys2Proof.Machine

/-- `(+0.0, +0.0)`. -/
def czero : Cplx := ⟨fzero, fzero⟩

/-- Complex add, componentwise (R210). -/
def cadd (a b : Cplx) : Cplx := ⟨fadd a.re b.re, fadd a.im b.im⟩

/-- Complex subtract, componentwise (R210). -/
def csub (a b : Cplx) : Cplx := ⟨fsub a.re b.re, fsub a.im b.im⟩

/-- Complex multiply, the four-product formula (R211). -/
def cmul (a b : Cplx) : Cplx :=
  ⟨fsub (fmul a.re b.re) (fmul a.im b.im), fadd (fmul a.re b.im) (fmul a.im b.re)⟩

/-- `RN(RN(re²) + RN(im²))`, the divisor of R212 and the radicand of R213. -/
def sumSquares (a : Cplx) : F64 := fadd (fmul a.re a.re) (fmul a.im a.im)

/-- Complex divide, the textbook formula without scaling (R212). -/
def cdiv (a b : Cplx) : Cplx :=
  ⟨fdiv (fadd (fmul a.re b.re) (fmul a.im b.im)) (sumSquares b),
   fdiv (fsub (fmul a.im b.re) (fmul a.re b.im)) (sumSquares b)⟩

/-- Magnitude, not `hypot` (R213). -/
def mag (a : Cplx) : F64 := fsqrt (sumSquares a)

/-- Conjugate: flips the sign bit of the imaginary half, NaN payloads kept (R214). -/
def cconj (a : Cplx) : Cplx := ⟨a.re, fneg a.im⟩

/-- Both halves times a real factor (R215). -/
def rscale (f : F64) (a : Cplx) : Cplx := ⟨fmul f a.re, fmul f a.im⟩

/-- Both halves divided by a positive integer (R215). -/
def divn (a : Cplx) (n : Nat) : Cplx := ⟨fdiv a.re (dbl n), fdiv a.im (dbl n)⟩

end Sys2Proof.Machine
end

