-- ==== Sys2Proof/Machine/Memory.lean ====
section
/-! DEFINITION. Reading and writing the bytes of the banks, and the little-endian byte order
(R103). -/

namespace Sys2Proof.Machine

/-- The byte at an address, if it has been written since reset (R452). -/
def memFind (m : Memory) (a : Nat) : Option Byte :=
  match m with
  | [] => none
  | c :: rest => if c.1 = a then some c.2 else memFind rest a

/-- Puts byte `b` at address `a`, in place, and goes on with `next` in what stands above `a`. -/
def insertThen (next : Memory → Memory) (a : Nat) (b : Byte) : Memory → Memory
  | [] => (a, b) :: next []
  | c :: rest =>
    if c.1 < a then c :: insertThen next a b rest
    else if c.1 = a then (a, b) :: next rest
    else (a, b) :: next (c :: rest)

/-- Writes bytes at `a`, `a + 1`, … -/
def writeRun : (a : Nat) → List Byte → Memory → Memory
  | _, [], m => m
  | a, b :: bs, m => insertThen (writeRun (a + 1) bs) a b m

/-- The low `n` bytes of a word, the byte of bits 7:0 first (R103). -/
def toBytes (n : Nat) (v : BitVec 64) : List Byte :=
  (List.range n).map fun k => v.extractLsb' (8 * k) 8

/-- The word of a list of bytes, the first at bits 7:0 (R103). -/
def natOfBytes : List Byte → Nat
  | [] => 0
  | b :: bs => b.toNat + 256 * natOfBytes bs

/-- The word of at most 8 bytes, zero-extended (R103). -/
def ofBytes (bs : List Byte) : BitVec 64 := BitVec.ofNat 64 (natOfBytes bs)

/-- The 16 bytes of a complex element, the real half first (R49). -/
def cplxBytes (c : Cplx) : List Byte := toBytes 8 c.re ++ toBytes 8 c.im

/-- The elements of the `n × n` region in row order (R11). -/
def coords (n : Nat) : List (Nat × Nat) :=
  (List.range n).flatMap fun i => (List.range n).map fun j => (i, j)

/-- Writes, for each coordinate in turn, the bytes `val i j` at the address `addr i j`. -/
def writeGrid (addr : Nat → Nat → Nat) (val : Nat → Nat → List Byte) :
    List (Nat × Nat) → Memory → Memory
  | [], m => m
  | (i, j) :: rest, m => writeGrid addr val rest (writeRun (addr i j) (val i j) m)

end Sys2Proof.Machine
end

