-- ==== Sys2Proof/Machine/Operands.lean ====
section
/-! DEFINITION. What a command's operands name: the active side, C registers, and elements of the
banks (R11, R46 to R50, R156). -/

namespace Sys2Proof.Machine

/-- `N = 2^NCFG.LOG2N` (R35). -/
def activeN (s : State) : Nat := 2 ^ s.log2n.toNat

/-- The level of the active transform, `log2 N`. -/
def activeLevel (s : State) : Nat := s.log2n.toNat

/-- `C[i]` (R46). -/
def getC (s : State) (i : BitVec 3) : Cplx := s.creg[i.toNat]'(by omega)

/-- `C[i] <- v` (R46). -/
def setC (i : BitVec 3) (v : Cplx) (s : State) : State :=
  { s with creg := s.creg.set i.toNat v (by omega) }

/-- The host offset of `S[b][i][j]` (R48). -/
def sampleAddr (b : BitVec 2) (i j : Nat) : Nat := 0x400000 + b.toNat * 0x40000 + i * 512 + j

/-- The host offset of the real half of `Z[z][i][j]`; the imaginary half is 8 bytes higher
(R49). -/
def cplxAddr (z : BitVec 1) (i j : Nat) : Nat :=
  0x1000000 + z.toNat * 0x400000 + (i * 512 + j) * 16

/-- One byte of a bank as it reads now: the written byte, or this reading event's draw
(R452). -/
def readByte (s : State) (a : Nat) : Byte := (memFind s.mem a).getD (Config.drawByte s.draws a)

/-- `n` bytes of a bank as they read now. -/
def readBytes (s : State) (a n : Nat) : List Byte := (List.range n).map fun k => readByte s (a + k)

/-- One binary64 half of a complex element. -/
def readHalf (s : State) (a : Nat) : F64 := ofBytes (readBytes s a 8)

/-- `S[b][i][j]` as it reads now. -/
def getS (s : State) (b : BitVec 2) (i j : Nat) : Byte := readByte s (sampleAddr b i j)

/-- `Z[z][i][j]` as it reads now. -/
def getZ (s : State) (z : BitVec 1) (i j : Nat) : Cplx :=
  ⟨readHalf s (cplxAddr z i j), readHalf s (cplxAddr z i j + 8)⟩

/-- Columns 0..N-1 of one row of a complex bank. -/
def getRow (s : State) (z : BitVec 1) (i : Nat) : List Cplx :=
  (List.range (activeN s)).map fun j => getZ s z i j

/-- The N x N region of a complex bank, as rows. -/
def getRegion (s : State) (z : BitVec 1) : List (List Cplx) :=
  (List.range (activeN s)).map fun i => getRow s z i

/-- Stores complex values at the given coordinates of a bank (R50). -/
def storeZ (z : BitVec 1) (val : Nat → Nat → Cplx) (at_ : List (Nat × Nat)) (s : State) : State :=
  { s with mem := writeGrid (cplxAddr z) (fun i j => cplxBytes (val i j)) at_ s.mem }

/-- Stores samples at the given coordinates of a bank, each at the place `place` gives (R50). -/
def storeS (b : BitVec 2) (place : Nat → Nat) (val : Nat → Nat → Byte) (at_ : List (Nat × Nat))
    (s : State) : State :=
  { s with
    mem := writeGrid (fun i j => sampleAddr b (place i) (place j)) (fun i j => [val i j]) at_
      s.mem }

/-- Ends a reading event: the next one takes fresh draws (R452). -/
def endReading (s : State) : State := { s with draws := s.draws + 1 }

end Sys2Proof.Machine
end

