-- ==== Sys2Proof/Machine/Ops.lean ====
section
/-! DEFINITION. Acceptance, refusal, completion and reset (R400 to R404, R450), shared by every
command. The block's refusal is its way of taking an exception: it records the error and leaves
everything else as it was (R404, R422). -/

namespace Sys2Proof.Machine

/-- `Refuse(v, code)`: the first error is recorded, a later one only sets EOVF (R404). -/
def refuse (v : BitVec 64) (code : BitVec 8) (s : State) : State :=
  if s.err then { s with eovf := true } else { s with err := true, errcode := code, errcmd := v }

/-- `Accept`: the command is in flight and BUSY is 1 (R401). -/
def accept (i : Instr) (s : State) : State := { s with pending := some i }

/-- `Complete`: BUSY 0, DONE 1, nothing else (R402). -/
def complete (s : State) : State := { s with pending := none, done := true }

/-- Reset: every register to its reset value, every bank element unwritten, no command in flight
(R450 to R452). The events still to come and the numbering of the draws go on. Log entry 10. -/
def resetBlock (s : State) : State := { State.reset with events := s.events, draws := s.draws }

/-- The SHAPE check of a command that reads N, then the command's own check: the first that fails
gives the error code (R400, R406, R407). -/
def checkN (own : Option (BitVec 8)) (s : State) : Option (BitVec 8) :=
  if 9 < s.log2n.toNat then some codeShape else own

/-- The RANGE check of one index: it must be below N (R400, R407). -/
def checkIndex (inRange : Bool) : Option (BitVec 8) := if inRange then none else some codeRange

/-- Submission of a decoded command: refused with the code of the first check that fails, else
accepted with its whole effect applied at once (R400, R401). The refused CMD value is the command's
own word. Log entries 6 and 14. -/
def submit (i : Instr) (check : Option (BitVec 8)) (effect : State → State) (s : State) : State :=
  match check with
  | some code => refuse (cmdValue i) code s
  | none => accept i (effect s)

end Sys2Proof.Machine
end

