-- ==== Sys2Proof/Machine/Rom.lean ====
section
/-! DEFINITION. The twiddle-factor ROM (R51, R53): entry `k` is `exp(−2πi·k/512)`, each half
rounded once. -/

namespace Sys2Proof.Machine

/-- ROM entries 0 to 15 of the table of R53. -/
def romRow0 : List Cplx :=
  [⟨0x3FF0000000000000#64, 0x0000000000000000#64⟩,
   ⟨0x3FEFFF62169B92DB#64, 0xBF8921D1FCDEC784#64⟩,
   ⟨0x3FEFFD886084CD0D#64, 0xBF992155F7A3667E#64⟩,
   ⟨0x3FEFFA72EFFEF75D#64, 0xBFA2D865759455CD#64⟩,
   ⟨0x3FEFF621E3796D7E#64, 0xBFA91F65F10DD814#64⟩,
   ⟨0x3FEFF095658E71AD#64, 0xBFAF656E79F820E0#64⟩,
   ⟨0x3FEFE9CDAD01883A#64, 0xBFB2D52092CE19F6#64⟩,
   ⟨0x3FEFE1CAFCBD5B09#64, 0xBFB5F6D00A9AA419#64⟩,
   ⟨0x3FEFD88DA3D12526#64, 0xBFB917A6BC29B42C#64⟩,
   ⟨0x3FEFCE15FD6DA67B#64, 0xBFBC3785C79EC2D5#64⟩,
   ⟨0x3FEFC26470E19FD3#64, 0xBFBF564E56A9730E#64⟩,
   ⟨0x3FEFB5797195D741#64, 0xBFC139F0CEDAF577#64⟩,
   ⟨0x3FEFA7557F08A517#64, 0xBFC2C8106E8E613A#64⟩,
   ⟨0x3FEF97F924C9099B#64, 0xBFC45576B1293E5A#64⟩,
   ⟨0x3FEF8764FA714BA9#64, 0xBFC5E214448B3FC6#64⟩,
   ⟨0x3FEF7599A3A12077#64, 0xBFC76DD9DE50BF31#64⟩]

/-- ROM entries 16 to 31 of the table of R53. -/
def romRow1 : List Cplx :=
  [⟨0x3FEF6297CFF75CB0#64, 0xBFC8F8B83C69A60B#64⟩,
   ⟨0x3FEF4E603B0B2F2D#64, 0xBFCA82A025B00451#64⟩,
   ⟨0x3FEF38F3AC64E589#64, 0xBFCC0B826A7E4F63#64⟩,
   ⟨0x3FEF2252F7763ADA#64, 0xBFCD934FE5454311#64⟩,
   ⟨0x3FEF0A7EFB9230D7#64, 0xBFCF19F97B215F1B#64⟩,
   ⟨0x3FEEF178A3E473C2#64, 0xBFD04FB80E37FDAE#64⟩,
   ⟨0x3FEED740E7684963#64, 0xBFD111D262B1F677#64⟩,
   ⟨0x3FEEBBD8C8DF0B74#64, 0xBFD1D3443F4CDB3E#64⟩,
   ⟨0x3FEE9F4156C62DDA#64, 0xBFD294062ED59F06#64⟩,
   ⟨0x3FEE817BAB4CD10D#64, 0xBFD35410C2E18152#64⟩,
   ⟨0x3FEE6288EC48E112#64, 0xBFD4135C94176601#64⟩,
   ⟨0x3FEE426A4B2BC17E#64, 0xBFD4D1E24278E76A#64⟩,
   ⟨0x3FEE212104F686E5#64, 0xBFD58F9A75AB1FDD#64⟩,
   ⟨0x3FEDFEAE622DBE2B#64, 0xBFD64C7DDD3F27C6#64⟩,
   ⟨0x3FEDDB13B6CCC23C#64, 0xBFD7088530FA459F#64⟩,
   ⟨0x3FEDB6526238A09B#64, 0xBFD7C3A9311DCCE7#64⟩]

/-- ROM entries 32 to 47 of the table of R53. -/
def romRow2 : List Cplx :=
  [⟨0x3FED906BCF328D46#64, 0xBFD87DE2A6AEA963#64⟩,
   ⟨0x3FED696173C9E68B#64, 0xBFD9372A63BC93D7#64⟩,
   ⟨0x3FED4134D14DC93A#64, 0xBFD9EF7943A8ED8A#64⟩,
   ⟨0x3FED17E7743E35DC#64, 0xBFDAA6C82B6D3FCA#64⟩,
   ⟨0x3FECED7AF43CC773#64, 0xBFDB5D1009E15CC0#64⟩,
   ⟨0x3FECC1F0F3FCFC5C#64, 0xBFDC1249D8011EE7#64⟩,
   ⟨0x3FEC954B213411F5#64, 0xBFDCC66E9931C45E#64⟩,
   ⟨0x3FEC678B3488739B#64, 0xBFDD79775B86E389#64⟩,
   ⟨0x3FEC38B2F180BDB1#64, 0xBFDE2B5D3806F63B#64⟩,
   ⟨0x3FEC08C426725549#64, 0xBFDEDC1952EF78D6#64⟩,
   ⟨0x3FEBD7C0AC6F952A#64, 0xBFDF8BA4DBF89ABA#64⟩,
   ⟨0x3FEBA5AA673590D2#64, 0xBFE01CFC874C3EB7#64⟩,
   ⟨0x3FEB728345196E3E#64, 0xBFE073879922FFEE#64⟩,
   ⟨0x3FEB3E4D3EF55712#64, 0xBFE0C9704D5D898F#64⟩,
   ⟨0x3FEB090A58150200#64, 0xBFE11EB3541B4B23#64⟩,
   ⟨0x3FEAD2BC9E21D511#64, 0xBFE1734D63DEDB49#64⟩]

/-- ROM entries 48 to 63 of the table of R53. -/
def romRow3 : List Cplx :=
  [⟨0x3FEA9B66290EA1A3#64, 0xBFE1C73B39AE68C8#64⟩,
   ⟨0x3FEA63091B02FAE2#64, 0xBFE21A799933EB59#64⟩,
   ⟨0x3FEA29A7A0462782#64, 0xBFE26D054CDD12DF#64⟩,
   ⟨0x3FE9EF43EF29AF94#64, 0xBFE2BEDB25FAF3EA#64⟩,
   ⟨0x3FE9B3E047F38741#64, 0xBFE30FF7FCE17035#64⟩,
   ⟨0x3FE9777EF4C7D742#64, 0xBFE36058B10659F3#64⟩,
   ⟨0x3FE93A22499263FB#64, 0xBFE3AFFA292050B9#64⟩,
   ⟨0x3FE8FBCCA3EF940D#64, 0xBFE3FED9534556D4#64⟩,
   ⟨0x3FE8BC806B151741#64, 0xBFE44CF325091DD6#64⟩,
   ⟨0x3FE87C400FBA2EBF#64, 0xBFE49A449B9B0939#64⟩,
   ⟨0x3FE83B0E0BFF976E#64, 0xBFE4E6CABBE3E5E9#64⟩,
   ⟨0x3FE7F8ECE3571771#64, 0xBFE5328292A35596#64⟩,
   ⟨0x3FE7B5DF226AAFAF#64, 0xBFE57D69348CECA0#64⟩,
   ⟨0x3FE771E75F037261#64, 0xBFE5C77BBE65018C#64⟩,
   ⟨0x3FE72D0837EFFF96#64, 0xBFE610B7551D2CDF#64⟩,
   ⟨0x3FE6E74454EAA8AF#64, 0xBFE6591925F0783D#64⟩]

/-- ROM entries 64 to 79 of the table of R53. -/
def romRow4 : List Cplx :=
  [⟨0x3FE6A09E667F3BCD#64, 0xBFE6A09E667F3BCD#64⟩,
   ⟨0x3FE6591925F0783D#64, 0xBFE6E74454EAA8AF#64⟩,
   ⟨0x3FE610B7551D2CDF#64, 0xBFE72D0837EFFF96#64⟩,
   ⟨0x3FE5C77BBE65018C#64, 0xBFE771E75F037261#64⟩,
   ⟨0x3FE57D69348CECA0#64, 0xBFE7B5DF226AAFAF#64⟩,
   ⟨0x3FE5328292A35596#64, 0xBFE7F8ECE3571771#64⟩,
   ⟨0x3FE4E6CABBE3E5E9#64, 0xBFE83B0E0BFF976E#64⟩,
   ⟨0x3FE49A449B9B0939#64, 0xBFE87C400FBA2EBF#64⟩,
   ⟨0x3FE44CF325091DD6#64, 0xBFE8BC806B151741#64⟩,
   ⟨0x3FE3FED9534556D4#64, 0xBFE8FBCCA3EF940D#64⟩,
   ⟨0x3FE3AFFA292050B9#64, 0xBFE93A22499263FB#64⟩,
   ⟨0x3FE36058B10659F3#64, 0xBFE9777EF4C7D742#64⟩,
   ⟨0x3FE30FF7FCE17035#64, 0xBFE9B3E047F38741#64⟩,
   ⟨0x3FE2BEDB25FAF3EA#64, 0xBFE9EF43EF29AF94#64⟩,
   ⟨0x3FE26D054CDD12DF#64, 0xBFEA29A7A0462782#64⟩,
   ⟨0x3FE21A799933EB59#64, 0xBFEA63091B02FAE2#64⟩]

/-- ROM entries 80 to 95 of the table of R53. -/
def romRow5 : List Cplx :=
  [⟨0x3FE1C73B39AE68C8#64, 0xBFEA9B66290EA1A3#64⟩,
   ⟨0x3FE1734D63DEDB49#64, 0xBFEAD2BC9E21D511#64⟩,
   ⟨0x3FE11EB3541B4B23#64, 0xBFEB090A58150200#64⟩,
   ⟨0x3FE0C9704D5D898F#64, 0xBFEB3E4D3EF55712#64⟩,
   ⟨0x3FE073879922FFEE#64, 0xBFEB728345196E3E#64⟩,
   ⟨0x3FE01CFC874C3EB7#64, 0xBFEBA5AA673590D2#64⟩,
   ⟨0x3FDF8BA4DBF89ABA#64, 0xBFEBD7C0AC6F952A#64⟩,
   ⟨0x3FDEDC1952EF78D6#64, 0xBFEC08C426725549#64⟩,
   ⟨0x3FDE2B5D3806F63B#64, 0xBFEC38B2F180BDB1#64⟩,
   ⟨0x3FDD79775B86E389#64, 0xBFEC678B3488739B#64⟩,
   ⟨0x3FDCC66E9931C45E#64, 0xBFEC954B213411F5#64⟩,
   ⟨0x3FDC1249D8011EE7#64, 0xBFECC1F0F3FCFC5C#64⟩,
   ⟨0x3FDB5D1009E15CC0#64, 0xBFECED7AF43CC773#64⟩,
   ⟨0x3FDAA6C82B6D3FCA#64, 0xBFED17E7743E35DC#64⟩,
   ⟨0x3FD9EF7943A8ED8A#64, 0xBFED4134D14DC93A#64⟩,
   ⟨0x3FD9372A63BC93D7#64, 0xBFED696173C9E68B#64⟩]

/-- ROM entries 96 to 111 of the table of R53. -/
def romRow6 : List Cplx :=
  [⟨0x3FD87DE2A6AEA963#64, 0xBFED906BCF328D46#64⟩,
   ⟨0x3FD7C3A9311DCCE7#64, 0xBFEDB6526238A09B#64⟩,
   ⟨0x3FD7088530FA459F#64, 0xBFEDDB13B6CCC23C#64⟩,
   ⟨0x3FD64C7DDD3F27C6#64, 0xBFEDFEAE622DBE2B#64⟩,
   ⟨0x3FD58F9A75AB1FDD#64, 0xBFEE212104F686E5#64⟩,
   ⟨0x3FD4D1E24278E76A#64, 0xBFEE426A4B2BC17E#64⟩,
   ⟨0x3FD4135C94176601#64, 0xBFEE6288EC48E112#64⟩,
   ⟨0x3FD35410C2E18152#64, 0xBFEE817BAB4CD10D#64⟩,
   ⟨0x3FD294062ED59F06#64, 0xBFEE9F4156C62DDA#64⟩,
   ⟨0x3FD1D3443F4CDB3E#64, 0xBFEEBBD8C8DF0B74#64⟩,
   ⟨0x3FD111D262B1F677#64, 0xBFEED740E7684963#64⟩,
   ⟨0x3FD04FB80E37FDAE#64, 0xBFEEF178A3E473C2#64⟩,
   ⟨0x3FCF19F97B215F1B#64, 0xBFEF0A7EFB9230D7#64⟩,
   ⟨0x3FCD934FE5454311#64, 0xBFEF2252F7763ADA#64⟩,
   ⟨0x3FCC0B826A7E4F63#64, 0xBFEF38F3AC64E589#64⟩,
   ⟨0x3FCA82A025B00451#64, 0xBFEF4E603B0B2F2D#64⟩]

/-- ROM entries 112 to 127 of the table of R53. -/
def romRow7 : List Cplx :=
  [⟨0x3FC8F8B83C69A60B#64, 0xBFEF6297CFF75CB0#64⟩,
   ⟨0x3FC76DD9DE50BF31#64, 0xBFEF7599A3A12077#64⟩,
   ⟨0x3FC5E214448B3FC6#64, 0xBFEF8764FA714BA9#64⟩,
   ⟨0x3FC45576B1293E5A#64, 0xBFEF97F924C9099B#64⟩,
   ⟨0x3FC2C8106E8E613A#64, 0xBFEFA7557F08A517#64⟩,
   ⟨0x3FC139F0CEDAF577#64, 0xBFEFB5797195D741#64⟩,
   ⟨0x3FBF564E56A9730E#64, 0xBFEFC26470E19FD3#64⟩,
   ⟨0x3FBC3785C79EC2D5#64, 0xBFEFCE15FD6DA67B#64⟩,
   ⟨0x3FB917A6BC29B42C#64, 0xBFEFD88DA3D12526#64⟩,
   ⟨0x3FB5F6D00A9AA419#64, 0xBFEFE1CAFCBD5B09#64⟩,
   ⟨0x3FB2D52092CE19F6#64, 0xBFEFE9CDAD01883A#64⟩,
   ⟨0x3FAF656E79F820E0#64, 0xBFEFF095658E71AD#64⟩,
   ⟨0x3FA91F65F10DD814#64, 0xBFEFF621E3796D7E#64⟩,
   ⟨0x3FA2D865759455CD#64, 0xBFEFFA72EFFEF75D#64⟩,
   ⟨0x3F992155F7A3667E#64, 0xBFEFFD886084CD0D#64⟩,
   ⟨0x3F8921D1FCDEC784#64, 0xBFEFFF62169B92DB#64⟩]

/-- ROM entries 128 to 143 of the table of R53. -/
def romRow8 : List Cplx :=
  [⟨0x0000000000000000#64, 0xBFF0000000000000#64⟩,
   ⟨0xBF8921D1FCDEC784#64, 0xBFEFFF62169B92DB#64⟩,
   ⟨0xBF992155F7A3667E#64, 0xBFEFFD886084CD0D#64⟩,
   ⟨0xBFA2D865759455CD#64, 0xBFEFFA72EFFEF75D#64⟩,
   ⟨0xBFA91F65F10DD814#64, 0xBFEFF621E3796D7E#64⟩,
   ⟨0xBFAF656E79F820E0#64, 0xBFEFF095658E71AD#64⟩,
   ⟨0xBFB2D52092CE19F6#64, 0xBFEFE9CDAD01883A#64⟩,
   ⟨0xBFB5F6D00A9AA419#64, 0xBFEFE1CAFCBD5B09#64⟩,
   ⟨0xBFB917A6BC29B42C#64, 0xBFEFD88DA3D12526#64⟩,
   ⟨0xBFBC3785C79EC2D5#64, 0xBFEFCE15FD6DA67B#64⟩,
   ⟨0xBFBF564E56A9730E#64, 0xBFEFC26470E19FD3#64⟩,
   ⟨0xBFC139F0CEDAF577#64, 0xBFEFB5797195D741#64⟩,
   ⟨0xBFC2C8106E8E613A#64, 0xBFEFA7557F08A517#64⟩,
   ⟨0xBFC45576B1293E5A#64, 0xBFEF97F924C9099B#64⟩,
   ⟨0xBFC5E214448B3FC6#64, 0xBFEF8764FA714BA9#64⟩,
   ⟨0xBFC76DD9DE50BF31#64, 0xBFEF7599A3A12077#64⟩]

/-- ROM entries 144 to 159 of the table of R53. -/
def romRow9 : List Cplx :=
  [⟨0xBFC8F8B83C69A60B#64, 0xBFEF6297CFF75CB0#64⟩,
   ⟨0xBFCA82A025B00451#64, 0xBFEF4E603B0B2F2D#64⟩,
   ⟨0xBFCC0B826A7E4F63#64, 0xBFEF38F3AC64E589#64⟩,
   ⟨0xBFCD934FE5454311#64, 0xBFEF2252F7763ADA#64⟩,
   ⟨0xBFCF19F97B215F1B#64, 0xBFEF0A7EFB9230D7#64⟩,
   ⟨0xBFD04FB80E37FDAE#64, 0xBFEEF178A3E473C2#64⟩,
   ⟨0xBFD111D262B1F677#64, 0xBFEED740E7684963#64⟩,
   ⟨0xBFD1D3443F4CDB3E#64, 0xBFEEBBD8C8DF0B74#64⟩,
   ⟨0xBFD294062ED59F06#64, 0xBFEE9F4156C62DDA#64⟩,
   ⟨0xBFD35410C2E18152#64, 0xBFEE817BAB4CD10D#64⟩,
   ⟨0xBFD4135C94176601#64, 0xBFEE6288EC48E112#64⟩,
   ⟨0xBFD4D1E24278E76A#64, 0xBFEE426A4B2BC17E#64⟩,
   ⟨0xBFD58F9A75AB1FDD#64, 0xBFEE212104F686E5#64⟩,
   ⟨0xBFD64C7DDD3F27C6#64, 0xBFEDFEAE622DBE2B#64⟩,
   ⟨0xBFD7088530FA459F#64, 0xBFEDDB13B6CCC23C#64⟩,
   ⟨0xBFD7C3A9311DCCE7#64, 0xBFEDB6526238A09B#64⟩]

/-- ROM entries 160 to 175 of the table of R53. -/
def romRow10 : List Cplx :=
  [⟨0xBFD87DE2A6AEA963#64, 0xBFED906BCF328D46#64⟩,
   ⟨0xBFD9372A63BC93D7#64, 0xBFED696173C9E68B#64⟩,
   ⟨0xBFD9EF7943A8ED8A#64, 0xBFED4134D14DC93A#64⟩,
   ⟨0xBFDAA6C82B6D3FCA#64, 0xBFED17E7743E35DC#64⟩,
   ⟨0xBFDB5D1009E15CC0#64, 0xBFECED7AF43CC773#64⟩,
   ⟨0xBFDC1249D8011EE7#64, 0xBFECC1F0F3FCFC5C#64⟩,
   ⟨0xBFDCC66E9931C45E#64, 0xBFEC954B213411F5#64⟩,
   ⟨0xBFDD79775B86E389#64, 0xBFEC678B3488739B#64⟩,
   ⟨0xBFDE2B5D3806F63B#64, 0xBFEC38B2F180BDB1#64⟩,
   ⟨0xBFDEDC1952EF78D6#64, 0xBFEC08C426725549#64⟩,
   ⟨0xBFDF8BA4DBF89ABA#64, 0xBFEBD7C0AC6F952A#64⟩,
   ⟨0xBFE01CFC874C3EB7#64, 0xBFEBA5AA673590D2#64⟩,
   ⟨0xBFE073879922FFEE#64, 0xBFEB728345196E3E#64⟩,
   ⟨0xBFE0C9704D5D898F#64, 0xBFEB3E4D3EF55712#64⟩,
   ⟨0xBFE11EB3541B4B23#64, 0xBFEB090A58150200#64⟩,
   ⟨0xBFE1734D63DEDB49#64, 0xBFEAD2BC9E21D511#64⟩]

/-- ROM entries 176 to 191 of the table of R53. -/
def romRow11 : List Cplx :=
  [⟨0xBFE1C73B39AE68C8#64, 0xBFEA9B66290EA1A3#64⟩,
   ⟨0xBFE21A799933EB59#64, 0xBFEA63091B02FAE2#64⟩,
   ⟨0xBFE26D054CDD12DF#64, 0xBFEA29A7A0462782#64⟩,
   ⟨0xBFE2BEDB25FAF3EA#64, 0xBFE9EF43EF29AF94#64⟩,
   ⟨0xBFE30FF7FCE17035#64, 0xBFE9B3E047F38741#64⟩,
   ⟨0xBFE36058B10659F3#64, 0xBFE9777EF4C7D742#64⟩,
   ⟨0xBFE3AFFA292050B9#64, 0xBFE93A22499263FB#64⟩,
   ⟨0xBFE3FED9534556D4#64, 0xBFE8FBCCA3EF940D#64⟩,
   ⟨0xBFE44CF325091DD6#64, 0xBFE8BC806B151741#64⟩,
   ⟨0xBFE49A449B9B0939#64, 0xBFE87C400FBA2EBF#64⟩,
   ⟨0xBFE4E6CABBE3E5E9#64, 0xBFE83B0E0BFF976E#64⟩,
   ⟨0xBFE5328292A35596#64, 0xBFE7F8ECE3571771#64⟩,
   ⟨0xBFE57D69348CECA0#64, 0xBFE7B5DF226AAFAF#64⟩,
   ⟨0xBFE5C77BBE65018C#64, 0xBFE771E75F037261#64⟩,
   ⟨0xBFE610B7551D2CDF#64, 0xBFE72D0837EFFF96#64⟩,
   ⟨0xBFE6591925F0783D#64, 0xBFE6E74454EAA8AF#64⟩]

/-- ROM entries 192 to 207 of the table of R53. -/
def romRow12 : List Cplx :=
  [⟨0xBFE6A09E667F3BCD#64, 0xBFE6A09E667F3BCD#64⟩,
   ⟨0xBFE6E74454EAA8AF#64, 0xBFE6591925F0783D#64⟩,
   ⟨0xBFE72D0837EFFF96#64, 0xBFE610B7551D2CDF#64⟩,
   ⟨0xBFE771E75F037261#64, 0xBFE5C77BBE65018C#64⟩,
   ⟨0xBFE7B5DF226AAFAF#64, 0xBFE57D69348CECA0#64⟩,
   ⟨0xBFE7F8ECE3571771#64, 0xBFE5328292A35596#64⟩,
   ⟨0xBFE83B0E0BFF976E#64, 0xBFE4E6CABBE3E5E9#64⟩,
   ⟨0xBFE87C400FBA2EBF#64, 0xBFE49A449B9B0939#64⟩,
   ⟨0xBFE8BC806B151741#64, 0xBFE44CF325091DD6#64⟩,
   ⟨0xBFE8FBCCA3EF940D#64, 0xBFE3FED9534556D4#64⟩,
   ⟨0xBFE93A22499263FB#64, 0xBFE3AFFA292050B9#64⟩,
   ⟨0xBFE9777EF4C7D742#64, 0xBFE36058B10659F3#64⟩,
   ⟨0xBFE9B3E047F38741#64, 0xBFE30FF7FCE17035#64⟩,
   ⟨0xBFE9EF43EF29AF94#64, 0xBFE2BEDB25FAF3EA#64⟩,
   ⟨0xBFEA29A7A0462782#64, 0xBFE26D054CDD12DF#64⟩,
   ⟨0xBFEA63091B02FAE2#64, 0xBFE21A799933EB59#64⟩]

/-- ROM entries 208 to 223 of the table of R53. -/
def romRow13 : List Cplx :=
  [⟨0xBFEA9B66290EA1A3#64, 0xBFE1C73B39AE68C8#64⟩,
   ⟨0xBFEAD2BC9E21D511#64, 0xBFE1734D63DEDB49#64⟩,
   ⟨0xBFEB090A58150200#64, 0xBFE11EB3541B4B23#64⟩,
   ⟨0xBFEB3E4D3EF55712#64, 0xBFE0C9704D5D898F#64⟩,
   ⟨0xBFEB728345196E3E#64, 0xBFE073879922FFEE#64⟩,
   ⟨0xBFEBA5AA673590D2#64, 0xBFE01CFC874C3EB7#64⟩,
   ⟨0xBFEBD7C0AC6F952A#64, 0xBFDF8BA4DBF89ABA#64⟩,
   ⟨0xBFEC08C426725549#64, 0xBFDEDC1952EF78D6#64⟩,
   ⟨0xBFEC38B2F180BDB1#64, 0xBFDE2B5D3806F63B#64⟩,
   ⟨0xBFEC678B3488739B#64, 0xBFDD79775B86E389#64⟩,
   ⟨0xBFEC954B213411F5#64, 0xBFDCC66E9931C45E#64⟩,
   ⟨0xBFECC1F0F3FCFC5C#64, 0xBFDC1249D8011EE7#64⟩,
   ⟨0xBFECED7AF43CC773#64, 0xBFDB5D1009E15CC0#64⟩,
   ⟨0xBFED17E7743E35DC#64, 0xBFDAA6C82B6D3FCA#64⟩,
   ⟨0xBFED4134D14DC93A#64, 0xBFD9EF7943A8ED8A#64⟩,
   ⟨0xBFED696173C9E68B#64, 0xBFD9372A63BC93D7#64⟩]

/-- ROM entries 224 to 239 of the table of R53. -/
def romRow14 : List Cplx :=
  [⟨0xBFED906BCF328D46#64, 0xBFD87DE2A6AEA963#64⟩,
   ⟨0xBFEDB6526238A09B#64, 0xBFD7C3A9311DCCE7#64⟩,
   ⟨0xBFEDDB13B6CCC23C#64, 0xBFD7088530FA459F#64⟩,
   ⟨0xBFEDFEAE622DBE2B#64, 0xBFD64C7DDD3F27C6#64⟩,
   ⟨0xBFEE212104F686E5#64, 0xBFD58F9A75AB1FDD#64⟩,
   ⟨0xBFEE426A4B2BC17E#64, 0xBFD4D1E24278E76A#64⟩,
   ⟨0xBFEE6288EC48E112#64, 0xBFD4135C94176601#64⟩,
   ⟨0xBFEE817BAB4CD10D#64, 0xBFD35410C2E18152#64⟩,
   ⟨0xBFEE9F4156C62DDA#64, 0xBFD294062ED59F06#64⟩,
   ⟨0xBFEEBBD8C8DF0B74#64, 0xBFD1D3443F4CDB3E#64⟩,
   ⟨0xBFEED740E7684963#64, 0xBFD111D262B1F677#64⟩,
   ⟨0xBFEEF178A3E473C2#64, 0xBFD04FB80E37FDAE#64⟩,
   ⟨0xBFEF0A7EFB9230D7#64, 0xBFCF19F97B215F1B#64⟩,
   ⟨0xBFEF2252F7763ADA#64, 0xBFCD934FE5454311#64⟩,
   ⟨0xBFEF38F3AC64E589#64, 0xBFCC0B826A7E4F63#64⟩,
   ⟨0xBFEF4E603B0B2F2D#64, 0xBFCA82A025B00451#64⟩]

/-- ROM entries 240 to 255 of the table of R53. -/
def romRow15 : List Cplx :=
  [⟨0xBFEF6297CFF75CB0#64, 0xBFC8F8B83C69A60B#64⟩,
   ⟨0xBFEF7599A3A12077#64, 0xBFC76DD9DE50BF31#64⟩,
   ⟨0xBFEF8764FA714BA9#64, 0xBFC5E214448B3FC6#64⟩,
   ⟨0xBFEF97F924C9099B#64, 0xBFC45576B1293E5A#64⟩,
   ⟨0xBFEFA7557F08A517#64, 0xBFC2C8106E8E613A#64⟩,
   ⟨0xBFEFB5797195D741#64, 0xBFC139F0CEDAF577#64⟩,
   ⟨0xBFEFC26470E19FD3#64, 0xBFBF564E56A9730E#64⟩,
   ⟨0xBFEFCE15FD6DA67B#64, 0xBFBC3785C79EC2D5#64⟩,
   ⟨0xBFEFD88DA3D12526#64, 0xBFB917A6BC29B42C#64⟩,
   ⟨0xBFEFE1CAFCBD5B09#64, 0xBFB5F6D00A9AA419#64⟩,
   ⟨0xBFEFE9CDAD01883A#64, 0xBFB2D52092CE19F6#64⟩,
   ⟨0xBFEFF095658E71AD#64, 0xBFAF656E79F820E0#64⟩,
   ⟨0xBFEFF621E3796D7E#64, 0xBFA91F65F10DD814#64⟩,
   ⟨0xBFEFFA72EFFEF75D#64, 0xBFA2D865759455CD#64⟩,
   ⟨0xBFEFFD886084CD0D#64, 0xBF992155F7A3667E#64⟩,
   ⟨0xBFEFFF62169B92DB#64, 0xBF8921D1FCDEC784#64⟩]

/-- The 256 entries of the table of R53. -/
def romEntries : List Cplx :=
  romRow0 ++ romRow1 ++ romRow2 ++ romRow3 ++ romRow4 ++ romRow5 ++ romRow6 ++ romRow7 ++
  romRow8 ++ romRow9 ++ romRow10 ++ romRow11 ++ romRow12 ++ romRow13 ++ romRow14 ++ romRow15

/-- `TW[k]` for `k` in 0..255 (R51). No command and no host access names another `k`. -/
def tw (k : Nat) : Cplx := romEntries.getD k ⟨0#64, 0#64⟩

end Sys2Proof.Machine
end

