-- ==== Sys2Proof/Machine/Bus.lean ====
section
/-! DEFINITION. The host side (R100 to R111): the address map, the three checks, reads and writes,
and what the next event of the total order of R120 is. -/

namespace Sys2Proof.Machine

/-- The regions of the address map (R102). -/
inductive Region where
  | control
  | cregs
  | rom
  | samples
  | complex
  | reserved
  | undecoded
  deriving DecidableEq, Repr

/-- `Region(a)` (R102). -/
def regionOf (a : Nat) : Region :=
  if a < 0x50 then .control
  else if a < 0x100 then .reserved
  else if a < 0x180 then .cregs
  else if a < 0x1000 then .reserved
  else if a < 0x2000 then .rom
  else if a < 0x400000 then .reserved
  else if a < 0x500000 then .samples
  else if a < 0x1000000 then .reserved
  else if a < 0x1800000 then .complex
  else .undecoded

/-- `Allowed(r, n)`: 8 bytes, and any size in the sample banks (R104). -/
def sizeAllowed (r : Region) (n : Nat) : Bool :=
  match r with
  | .control => n == 8
  | .cregs => n == 8
  | .rom => n == 8
  | .samples => true
  | .complex => n == 8
  | .reserved => false
  | .undecoded => false

/-- The offsets that answer while BUSY = 1: ID, STATUS, IRQEN (R108). -/
def answersWhileBusy (a : Nat) : Bool := a == 0x000 || a == 0x030 || a == 0x038

/-- The checks that reads and writes share (R111): decoded, an allowed size, naturally aligned
(R105), and not shut out by a command in flight. A reserved or undecoded region allows no size. -/
def accessible (s : State) (a n : Nat) : Bool :=
  sizeAllowed (regionOf a) n && a % n == 0 && (!busy s || answersWhileBusy a)

/-- The read-only locations: ID, IMAGMAX, ERRCMD and the ROM (R110). -/
def readOnly (a : Nat) : Bool :=
  a == 0x000 || a == 0x040 || a == 0x048 || regionOf a == .rom

/-- The constant of ID (R33). -/
def idConstant : BitVec 64 := 0x4543363935303207#64

/-- FILT as the host reads it (R36). -/
def filtWord (s : State) : BitVec 64 := s.family.setWidth 64 ||| (s.pass.setWidth 64 <<< 2)

/-- What a control register reads as (R33 to R43); CMD reads 0 (R39). -/
def controlWord (s : State) (a : Nat) : BitVec 64 :=
  if a = 0x000 then idConstant
  else if a = 0x008 then s.log2n.setWidth 64
  else if a = 0x010 then filtWord s
  else if a = 0x018 then s.cutoff
  else if a = 0x020 then s.logdiv
  else if a = 0x030 then statusWord s
  else if a = 0x038 then irqenWord s
  else if a = 0x040 then s.imagmax
  else if a = 0x048 then s.errcmd
  else 0#64

/-- The half of a complex value at an offset: the real one at a multiple of 16 (R46, R51). -/
def halfAt (a : Nat) (c : Cplx) : F64 := if a % 16 = 0 then c.re else c.im

/-- The C register at an offset (R46). -/
def cregAt (a : Nat) : BitVec 3 := BitVec.ofNat 3 ((a - 0x100) / 16)

/-- The `n` bytes at `a`, as a zero-extended little-endian value (R103, R111). -/
def readValue (s : State) (a n : Nat) : BitVec 64 :=
  match regionOf a with
  | .control => controlWord s a
  | .cregs => halfAt a (getC s (cregAt a))
  | .rom => halfAt a (tw ((a - 0x1000) / 16))
  | .samples => ofBytes (readBytes s a n)
  | .complex => ofBytes (readBytes s a n)
  | .reserved => 0#64
  | .undecoded => 0#64

/-- Whether an offset is in a bank, where a read may take draws (R452). -/
def inBank (a : Nat) : Bool := regionOf a == .samples || regionOf a == .complex

/-- The answer to the host. -/
def answer (r : Response) (s : State) : State := { s with resp := some r }

/-- The data a response carries to a reader; an ERROR carries 0 in every byte (R107). -/
def responseData : Response → BitVec 64
  | .okay d => d
  | .error => 0#64

/-- `MemRead(a, n)` (R111): no read has a side effect on the block (R109), and one that answers
ERROR carries data 0 (R107). -/
def busRead (a n : Nat) (s : State) : State :=
  if accessible s a n then
    answer (.okay (readValue s a n)) (if inBank a then endReading s else s)
  else answer .error s

/-- Stores into one half of a C register (R46). -/
def storeHalf (a : Nat) (v : F64) (c : Cplx) : Cplx :=
  if a % 16 = 0 then { c with re := v } else { c with im := v }

/-- A write to a control register other than CMD (R35 to R41): reserved bits are ignored. -/
def writeControl (a : Nat) (v : BitVec 64) (s : State) : State :=
  if a = 0x008 then { s with log2n := v.extractLsb' 0 4 }
  else if a = 0x010 then { s with family := v.extractLsb' 0 2, pass := v.extractLsb' 2 1 }
  else if a = 0x018 then { s with cutoff := v }
  else if a = 0x020 then { s with logdiv := v }
  else if a = 0x030 then writeOneToClear v s
  else if a = 0x038 then { s with doneie := v.getLsbD 0, errie := v.getLsbD 1 }
  else s

/-- Stores the low `n` bytes of `v` at `a`, as the register's or bank's rule says (R111). -/
def writeValue (a n : Nat) (v : BitVec 64) (s : State) : State :=
  match regionOf a with
  | .control => writeControl a v s
  | .cregs => setC (cregAt a) (storeHalf a v (getC s (cregAt a))) s
  | .rom => s
  | .samples => { s with mem := writeRun a (toBytes n v) s.mem }
  | .complex => { s with mem := writeRun a (toBytes n v) s.mem }
  | .reserved => s
  | .undecoded => s

/-- What one step of the block is to do: it has settled in a state, or a command was submitted. -/
inductive Activity where
  | settled (s : State)
  | command (i : Instr) (s : State)
  deriving DecidableEq, Repr

/-- `Submit(v)` up to the command's own checks: an illegal value is refused (R400). -/
def submitValue (v : BitVec 64) (s : State) : Activity :=
  match decode v with
  | .command i => .command i s
  | .illegal _ => .settled (refuse v codeIllegal s)

/-- `MemWrite(a, n, v)` (R111). A write to CMD answers OKAY whether the command is accepted or
refused (R400). -/
def busWrite (a n : Nat) (v : BitVec 64) (s : State) : Activity :=
  if accessible s a n && !readOnly a then
    if a = 0x028 then submitValue v (answer (.okay 0#64) s)
    else .settled (answer (.okay 0#64) (writeValue a n v s))
  else .settled (answer .error s)

/-- One host access (R100). -/
def hostAccess (a : Access) (s : State) : Activity :=
  match a with
  | .read offset size => .settled (busRead offset.toNat size.bytes s)
  | .write offset size data => busWrite offset.toNat size.bytes data s

/-- A turn of CORE: Complete, enabled exactly when BUSY = 1 (R402); else nothing. Log entry 11. -/
def coreTurn (s : State) : State := if busy s then complete s else s

/-- What the next event does (R120). With no event left, the host is silent: CORE completes the
command in flight, or the block holds its state (R402, R435, R453). Log entry 7. -/
def nextActivity (s : State) : Activity :=
  match s.events with
  | [] => .settled (coreTurn s)
  | .access a :: rest => hostAccess a { s with events := rest }
  | .core :: rest => .settled (coreTurn { s with events := rest })
  | .reset :: rest => .settled (resetBlock { s with events := rest })

/-- The state with a CMD write of `v` as its next event, and no command in flight to shut it out. -/
def withCommand (v : BitVec 64) (s : State) : State :=
  { s with
    pending := none
    events := .access (.write 0x028#32 .b8 v) :: s.events }

end Sys2Proof.Machine
end

