-- ==== Sys2Proof/Machine/Transform.lean ====
section
/-! DEFINITION. The reference transforms: FFT1D, IFFT1D (R250, R251), transpose (R291), F2D and
I2D (R293, R294). -/

namespace Sys2Proof.Machine

/-- The even-indexed elements. -/
def evens {α : Type} : List α → List α
  | [] => []
  | [x] => [x]
  | x :: _ :: rest => x :: evens rest

/-- The odd-indexed elements. -/
def odds {α : Type} : List α → List α
  | [] => []
  | [_] => []
  | _ :: y :: rest => y :: odds rest

/-- `W·O[k]` for `k = k₀, k₀+1, …`, with the twiddles `TW[k·stride]` (R250). -/
def twiddled (stride k : Nat) : List Cplx → List Cplx
  | [] => []
  | o :: rest => cmul (tw (k * stride)) o :: twiddled stride (k + 1) rest

/-- The combining step of R250: the sums first, then the differences. -/
def combine (stride : Nat) (e o : List Cplx) : List Cplx :=
  let t := twiddled stride 0 o
  List.zipWith cadd e t ++ List.zipWith csub e t

/-- `FFT1D` of a sequence of `2^level` values (R250). The twiddle stride at size `m` is
`512 / m`. -/
def fft1d : (level : Nat) → List Cplx → List Cplx
  | 0, x => x
  | level + 1, x =>
    combine (Config.nMax / 2 ^ (level + 1)) (fft1d level (evens x)) (fft1d level (odds x))

/-- `IFFT1D` of a sequence of `2^level` values (R251). -/
def ifft1d (level : Nat) (x : List Cplx) : List Cplx :=
  (fft1d level (x.map cconj)).map fun y => divn (cconj y) (2 ^ level)

/-- Element (i, j) of a matrix kept as a list of rows. -/
def entry (m : List (List Cplx)) (i j : Nat) : Cplx := (m.getD i []).getD j czero

/-- The exact permutation `M'[i][j] = M[j][i]` of an `n × n` matrix (R291). -/
def transpose (n : Nat) (m : List (List Cplx)) : List (List Cplx) :=
  (List.range n).map fun i => (List.range n).map fun j => entry m j i

/-- Rows, transpose, rows of the transpose, transpose back: the shape F2D and I2D share. -/
def transform2d (row : List Cplx → List Cplx) (n : Nat) (m : List (List Cplx)) :
    List (List Cplx) :=
  transpose n ((transpose n (m.map row)).map row)

/-- `F2D` at `N = 2^level` (R293). -/
def f2d (level : Nat) (m : List (List Cplx)) : List (List Cplx) :=
  transform2d (fft1d level) (2 ^ level) m

/-- `I2D` at `N = 2^level` (R294). -/
def i2d (level : Nat) (m : List (List Cplx)) : List (List Cplx) :=
  transform2d (ifft1d level) (2 ^ level) m

end Sys2Proof.Machine
end

