-- ==== Sys2Proof/Machine/Butterfly.lean ====
section
/-! DEFINITION. The butterfly commands (R240, R241) and the row transforms (R255 to R258). -/

namespace Sys2Proof.Machine

/-- The radix-2 butterfly on `C[a]` (Even) and `C[b]` (Odd) with twiddle `w`: all reads first,
`C[a]` is written and then `C[b]` (R240). With `a = b` and `w = (1, +0)` R240's corner case says
`(+0, +0)` for every finite operand, where its pseudocode gives `(1, −0)` the difference `(+0, −0)`.
DESIGN CHOICE: the pseudocode is followed. Log entry 24. -/
def butterfly (a b : BitVec 3) (w : Cplx) (s : State) : State :=
  let t := cmul w (getC s b)
  setC b (csub (getC s a) t) (setC a (cadd (getC s a) t) s)

/-- `BFLY`: the twiddle is a ROM entry (R240). -/
def execBfly (a b : BitVec 3) (k : BitVec 8) (s : State) : Host.Outcome State Fault Refusal :=
  .next (submit (.bfly a b k) none (fun s => butterfly a b (tw k.toNat) s) s)

/-- `BFLYW`: the twiddle is the old value of a C register (R241). -/
def execBflyw (a b w : BitVec 3) (s : State) : Host.Outcome State Fault Refusal :=
  .next (submit (.bflyw a b w) none (fun s => butterfly a b (getC s w) s) s)

/-- Stores an N x N matrix as the region of a complex bank (R50). -/
def storeRegion (z : BitVec 1) (m : List (List Cplx)) (s : State) : State :=
  storeZ z (entry m) (coords (activeN s)) s

/-- Replaces columns 0..N-1 of one row of a bank by their transform. -/
def transformRow (f : List Cplx → List Cplx) (z : BitVec 1) (i : Nat) (s : State) : State :=
  let x := f (getRow s z i)
  endReading (storeZ z (fun _ j => x.getD j czero) ((List.range (activeN s)).map fun j => (i, j)) s)

/-- Replaces every row of the region of a bank by its transform. -/
def transformRows (f : List Cplx → List Cplx) (z : BitVec 1) (s : State) : State :=
  endReading (storeRegion z ((getRegion s z).map f) s)

/-- `FFTROW` (R255). With N = 1 the row's element is left as it is (log entry 12). -/
def execFftrow (zd : BitVec 1) (row : BitVec 9) (s : State) : Host.Outcome State Fault Refusal :=
  .next (submit (.fftrow zd row) (checkN (checkIndex (decide (row.toNat < activeN s))) s)
    (fun s => if activeLevel s = 0 then s
      else transformRow (fft1d (activeLevel s)) zd row.toNat s) s)

/-- `IFFTROW` (R256). -/
def execIfftrow (zd : BitVec 1) (row : BitVec 9) (s : State) : Host.Outcome State Fault Refusal :=
  .next (submit (.ifftrow zd row) (checkN (checkIndex (decide (row.toNat < activeN s))) s)
    (fun s => transformRow (ifft1d (activeLevel s)) zd row.toNat s) s)

/-- `FFTROWS` (R257). With N = 1 the element is left as it is (log entry 12). -/
def execFftrows (zd : BitVec 1) (s : State) : Host.Outcome State Fault Refusal :=
  .next (submit (.fftrows zd) (checkN none s)
    (fun s => if activeLevel s = 0 then s else transformRows (fft1d (activeLevel s)) zd s) s)

/-- `IFFTROWS` (R258). -/
def execIfftrows (zd : BitVec 1) (s : State) : Host.Outcome State Fault Refusal :=
  .next (submit (.ifftrows zd) (checkN none s)
    (fun s => transformRows (ifft1d (activeLevel s)) zd s) s)

end Sys2Proof.Machine
end

