-- ==== Sys2Proof/Machine/ComplexArith.lean ====
section
/-! DEFINITION. The register commands (R220 to R229). Reads of C registers happen before the write,
so D may equal A or B. -/

namespace Sys2Proof.Machine

/-- `NOP`: nothing but BUSY and, at completion, DONE (R220). -/
def execNop (s : State) : Host.Outcome State Fault Refusal :=
  .next (submit .nop none (fun s => s) s)

/-- `CMOV`: a bit-exact copy of both halves (R221). -/
def execCmov (d a : BitVec 3) (s : State) : Host.Outcome State Fault Refusal :=
  .next (submit (.cmov d a) none (fun s => setC d (getC s a) s) s)

/-- `CADD` (R222). -/
def execCadd (d a b : BitVec 3) (s : State) : Host.Outcome State Fault Refusal :=
  .next (submit (.cadd d a b) none (fun s => setC d (cadd (getC s a) (getC s b)) s) s)

/-- `CSUB` (R223). -/
def execCsub (d a b : BitVec 3) (s : State) : Host.Outcome State Fault Refusal :=
  .next (submit (.csub d a b) none (fun s => setC d (csub (getC s a) (getC s b)) s) s)

/-- `CMUL` (R224). -/
def execCmul (d a b : BitVec 3) (s : State) : Host.Outcome State Fault Refusal :=
  .next (submit (.cmul d a b) none (fun s => setC d (cmul (getC s a) (getC s b)) s) s)

/-- `CDIV`: division by zero is not an error (R225). -/
def execCdiv (d a b : BitVec 3) (s : State) : Host.Outcome State Fault Refusal :=
  .next (submit (.cdiv d a b) none (fun s => setC d (cdiv (getC s a) (getC s b)) s) s)

/-- `CCONJ` (R226). -/
def execCconj (d a : BitVec 3) (s : State) : Host.Outcome State Fault Refusal :=
  .next (submit (.cconj d a) none (fun s => setC d (cconj (getC s a)) s) s)

/-- `CMAG`: the imaginary half of the result is `+0.0` (R227). -/
def execCmag (d a : BitVec 3) (s : State) : Host.Outcome State Fault Refusal :=
  .next (submit (.cmag d a) none (fun s => setC d ⟨mag (getC s a), fzero⟩ s) s)

/-- `CSCLN`: both halves divided by the active N (R228). -/
def execCscln (d a : BitVec 3) (s : State) : Host.Outcome State Fault Refusal :=
  .next (submit (.cscln d a) (checkN none s)
    (fun s => setC d (divn (getC s a) (activeN s)) s) s)

/-- `TWLD`: a bit-exact copy of a ROM entry (R229). -/
def execTwld (d : BitVec 3) (k : BitVec 8) (s : State) : Host.Outcome State Fault Refusal :=
  .next (submit (.twld d k) none (fun s => setC d (tw k.toNat) s) s)

end Sys2Proof.Machine
end

