-- ==== Sys2Proof/Machine/Elementary.lean ====
section
/-! DEFINITION. The configuration functions EXP and LN (R208, R209): open, within what every EXP and
every LN must satisfy. Log entries 2 and 3. -/

namespace Sys2Proof.Machine

/-- `EXP` (R208): the implementation's function. The values R208 fixes for it come first, so that
they evaluate; they are its own (`cfgExp_eq`). -/
def cfgExp (x : F64) : F64 :=
  if isNaN x then qnan
  else if isZero x then fone
  else if x = fninf then fzero
  else Config.expFunction.eval x

/-- `LN` (R209): the implementation's function. The values R209 fixes for it come first, so that
they evaluate; they are its own (`cfgLn_eq`). -/
def cfgLn (x : F64) : F64 :=
  if isNaN x then qnan
  else if x = fone then fzero
  else if x = finf then finf
  else Config.lnFunction.eval x

end Sys2Proof.Machine
end

