-- ==== Sys2Proof/Machine/FilterBank.lean ====
section
/-! DEFINITION. The programmable filter bank (R350 to R355). -/

namespace Sys2Proof.Machine

/-- The centered coordinate `((N/2 + i) mod N) − N/2` (R350). -/
def centered (n i : Nat) : Int := (((n / 2 + i) % n : Nat) : Int) - ((n / 2 : Nat) : Int)

/-- The exact squared distance `D2` from the zero-frequency center (R350). -/
def distSq (n i j : Nat) : Nat :=
  (centered n i * centered n i + centered n j * centered n j).toNat

/-- The distance `d`, rounded once (R350). -/
def centerDist (d2 : Nat) : F64 := fsqrt (dbl d2)

/-- The parameters FILTER accepts (R351). -/
def filtValid (family : BitVec 2) (c : F64) : Bool :=
  family != 3#2 && !isNaN c && !fle c fzero && c != finf

/-- Whether the Ideal filter passes a coordinate (R352). -/
def idealPass (hp : Bool) (c : F64) (d2 : Nat) : Bool := fle (centerDist d2) c != hp

/-- `q = d²/(2σ²)` of the Gaussian factor, `+0` at the center (R353). -/
def gaussianQ (c : F64) (d2 : Nat) : F64 :=
  if d2 = 0 then fzero else fdiv (dbl d2) (fmul ftwo (fmul c c))

/-- The Gaussian factor, over the exponential function `expf` (R353). -/
def gaussianFactor (expf : F64 → F64) (hp : Bool) (c : F64) (d2 : Nat) : F64 :=
  let g := expf (fneg (gaussianQ c d2))
  if hp then fsub fone g else g

/-- `(d/c)^4`, as two squarings (R354). -/
def fourthPower (c : F64) (d2 : Nat) : F64 :=
  let r := fdiv (centerDist d2) c
  let r2 := fmul r r
  fmul r2 r2

/-- The Butterworth factor of order 4 (R354). -/
def butterworthFactor (hp : Bool) (c : F64) (d2 : Nat) : F64 :=
  let r4 := fourthPower c d2
  let den := fadd fone r4
  if hp then (if r4 = finf then fone else fdiv r4 den) else fdiv fone den

/-- The element FILTER stores at a coordinate of squared distance `d2` (R355). Family 3 is never
accepted; it takes no arm of its own. -/
def filterElement (expf : F64 → F64) (family : BitVec 2) (hp : Bool) (c : F64) (d2 : Nat)
    (x : Cplx) : Cplx :=
  if family = 0#2 then (if idealPass hp c d2 then x else czero)
  else if family = 1#2 then rscale (gaussianFactor expf hp c d2) x
  else rscale (butterworthFactor hp c d2) x

/-- FILTER's effect, over the exponential function (R355). -/
def filterRegion (expf : F64 → F64) (zd zs : BitVec 1) (s : State) : State :=
  endReading (storeZ zd
    (fun i j => filterElement expf s.family (s.pass == 1#1) s.cutoff (distSq (activeN s) i j)
      (getZ s zs i j))
    (coords (activeN s)) s)

/-- `FILTER` (R355). -/
def execFilter (zd zs : BitVec 1) (s : State) : Host.Outcome State Fault Refusal :=
  .next (submit (.filter zd zs)
    (checkN (if filtValid s.family s.cutoff then none else some codeFiltParam) s)
    (fun s => filterRegion cfgExp zd zs s) s)

end Sys2Proof.Machine
end

