-- ==== Sys2Proof/Machine/LoadStore.lean ====
section
/-! DEFINITION. Element moves between C registers and complex banks (R270, R271). -/

namespace Sys2Proof.Machine

/-- The check of `CLD` and `CST`: SHAPE, then RANGE when ROW or COL is not below N (R270, R407). -/
def checkElement (row col : BitVec 9) (s : State) : Option (BitVec 8) :=
  checkN (checkIndex (decide (row.toNat < activeN s) && decide (col.toNat < activeN s))) s

/-- `CLD`: `C[R] <- Z[Z][ROW][COL]`, bit for bit (R270). -/
def execCld (r : BitVec 3) (z : BitVec 1) (row col : BitVec 9) (s : State) :
    Host.Outcome State Fault Refusal :=
  .next (submit (.cld r z row col) (checkElement row col s)
    (fun s => endReading (setC r (getZ s z row.toNat col.toNat) s)) s)

/-- `CST`: `Z[Z][ROW][COL] <- C[R]`, bit for bit (R271). -/
def execCst (r : BitVec 3) (z : BitVec 1) (row col : BitVec 9) (s : State) :
    Host.Outcome State Fault Refusal :=
  .next (submit (.cst r z row col) (checkElement row col s)
    (fun s => storeZ z (fun _ _ => getC s r) [(row.toNat, col.toNat)] s) s)

end Sys2Proof.Machine
end

