-- ==== Sys2Proof/Machine/LogMag.lean ====
section
/-! DEFINITION. The shifted log-magnitude display grid (R330, R331). -/

namespace Sys2Proof.Machine

/-- The shift map `(N/2 + i) mod N` (R330). -/
def shiftIndex (n i : Nat) : Nat := (n / 2 + i) % n

/-- The values of LOGDIV that LOGMAG accepts (R331, R400). -/
def logValid (q : F64) : Bool := !isNaN q && fgt q fzero && q != finf

/-- The sample of one element, over the logarithm function `lnf` (R331). -/
def logSample (lnf : F64 → F64) (q : F64) (x : Cplx) : Byte :=
  sat8 (fdiv (lnf (fadd fone (mag x))) q)

/-- LOGMAG's effect, over the logarithm function (R331). -/
def logRegion (lnf : F64 → F64) (sd : BitVec 2) (zs : BitVec 1) (s : State) : State :=
  endReading (storeS sd (shiftIndex (activeN s))
    (fun i j => logSample lnf s.logdiv (getZ s zs i j)) (coords (activeN s)) s)

/-- `LOGMAG` (R331). -/
def execLogmag (sd : BitVec 2) (zs : BitVec 1) (s : State) : Host.Outcome State Fault Refusal :=
  .next (submit (.logmag sd zs)
    (checkN (if logValid s.logdiv then none else some codeLogParam) s)
    (fun s => logRegion cfgLn sd zs s) s)

end Sys2Proof.Machine
end

