-- ==== Sys2Proof/Machine/Transform2d.lean ====
section
/-! DEFINITION. Lift, transpose, copy, real-part clamp, and the composite 2D transforms
(R290 to R299). -/

namespace Sys2Proof.Machine

/-- A sample lifted to a complex value: real half exact, imaginary half `+0.0` (R290). -/
def liftSample (b : Byte) : Cplx := ⟨dbl b.toNat, fzero⟩

/-- The N x N region of a sample bank, lifted (R290). -/
def liftedRegion (s : State) (ss : BitVec 2) : List (List Cplx) :=
  (List.range (activeN s)).map fun i =>
    (List.range (activeN s)).map fun j => liftSample (getS s ss i j)

/-- `LIFT` (R290). -/
def execLift (zd : BitVec 1) (ss : BitVec 2) (s : State) : Host.Outcome State Fault Refusal :=
  .next (submit (.lift zd ss) (checkN none s)
    (fun s => endReading (storeRegion zd (liftedRegion s ss) s)) s)

/-- `TRANS`: swaps (i, j) with (j, i) off the diagonal, which is not touched (R291). -/
def execTrans (zd : BitVec 1) (s : State) : Host.Outcome State Fault Refusal :=
  .next (submit (.trans zd) (checkN none s)
    (fun s => endReading (storeZ zd (fun i j => getZ s zd j i)
      ((coords (activeN s)).filter fun c => decide (c.1 ≠ c.2)) s)) s)

/-- `ZCOPY`: bit for bit; with ZD = ZS it changes nothing (R292, log entry 12). -/
def execZcopy (zd zs : BitVec 1) (s : State) : Host.Outcome State Fault Refusal :=
  .next (submit (.zcopy zd zs) (checkN none s)
    (fun s => if zd = zs then s else endReading (storeRegion zd (getRegion s zs) s)) s)

/-- The larger of `m` and `|x|`, a NaN `x` ignored (R297). -/
def maxAbs (m x : F64) : F64 := if !isNaN (fabs x) && fgt (fabs x) m then fabs x else m

/-- The largest absolute imaginary half of a matrix, NaNs ignored, `+0.0` at least (R297). -/
def maxImag (m : List (List Cplx)) : F64 :=
  m.foldl (fun acc row => row.foldl (fun acc c => maxAbs acc c.im) acc) fzero

/-- The effect of REALCLAMP on a matrix: its real halves rounded and clamped into a sample bank,
and IMAGMAX (R297). -/
def clampRegion (sd : BitVec 2) (m : List (List Cplx)) (s : State) : State :=
  { storeS sd (fun i => i) (fun i j => sat8 (entry m i j).re) (coords (activeN s)) s with
    imagmax := maxImag m }

/-- `REALCLAMP` (R297). -/
def execRealclamp (sd : BitVec 2) (zs : BitVec 1) (s : State) :
    Host.Outcome State Fault Refusal :=
  .next (submit (.realclamp sd zs) (checkN none s)
    (fun s => endReading (clampRegion sd (getRegion s zs) s)) s)

/-- `FFT2D`: the lifted region through F2D (R298). -/
def execFft2d (zd : BitVec 1) (ss : BitVec 2) (s : State) : Host.Outcome State Fault Refusal :=
  .next (submit (.fft2d zd ss) (checkN none s)
    (fun s => endReading (storeRegion zd (f2d (activeLevel s) (liftedRegion s ss)) s)) s)

/-- `IFFT2D`: I2D of the source region into the working bank, then REALCLAMP of it (R299). -/
def execIfft2d (sd : BitVec 2) (zd zs : BitVec 1) (s : State) :
    Host.Outcome State Fault Refusal :=
  .next (submit (.ifft2d sd zd zs) (checkN none s)
    (fun s =>
      let m := i2d (activeLevel s) (getRegion s zs)
      endReading (clampRegion sd m (storeRegion zd m s))) s)

end Sys2Proof.Machine
end

