-- ==== Sys2Proof/Machine/Dispatch.lean ====
section
/-! DEFINITION. The meaning of each command, one arm per constructor. -/

namespace Sys2Proof.Machine

/-- What submitting a decoded command does (R400). -/
def exec (i : Instr) (s : State) : Host.Outcome State Fault Refusal :=
  match i with
  | .nop => Sys2Proof.Machine.execNop s
  | .cmov d a => Sys2Proof.Machine.execCmov d a s
  | .cadd d a b => Sys2Proof.Machine.execCadd d a b s
  | .csub d a b => Sys2Proof.Machine.execCsub d a b s
  | .cmul d a b => Sys2Proof.Machine.execCmul d a b s
  | .cdiv d a b => Sys2Proof.Machine.execCdiv d a b s
  | .cconj d a => Sys2Proof.Machine.execCconj d a s
  | .cmag d a => Sys2Proof.Machine.execCmag d a s
  | .cscln d a => Sys2Proof.Machine.execCscln d a s
  | .twld d k => Sys2Proof.Machine.execTwld d k s
  | .bfly a b k => Sys2Proof.Machine.execBfly a b k s
  | .bflyw a b w => Sys2Proof.Machine.execBflyw a b w s
  | .cld r z row col => Sys2Proof.Machine.execCld r z row col s
  | .cst r z row col => Sys2Proof.Machine.execCst r z row col s
  | .lift zd ss => Sys2Proof.Machine.execLift zd ss s
  | .fftrow zd row => Sys2Proof.Machine.execFftrow zd row s
  | .ifftrow zd row => Sys2Proof.Machine.execIfftrow zd row s
  | .fftrows zd => Sys2Proof.Machine.execFftrows zd s
  | .ifftrows zd => Sys2Proof.Machine.execIfftrows zd s
  | .trans zd => Sys2Proof.Machine.execTrans zd s
  | .zcopy zd zs => Sys2Proof.Machine.execZcopy zd zs s
  | .realclamp sd zs => Sys2Proof.Machine.execRealclamp sd zs s
  | .fft2d zd ss => Sys2Proof.Machine.execFft2d zd ss s
  | .ifft2d sd zd zs => Sys2Proof.Machine.execIfft2d sd zd zs s
  | .filter zd zs => Sys2Proof.Machine.execFilter zd zs s
  | .logmag sd zs => Sys2Proof.Machine.execLogmag sd zs s

end Sys2Proof.Machine
end

