-- ==== Sys2Proof/Machine/Step.lean ====
section
/-! DEFINITION. One step of the block: the next event of the total order of R120. -/

namespace Sys2Proof.Machine

/-- One step. A command submitted by a CMD write is run by `exec`. -/
def step (s : State) : Host.Outcome State Fault Refusal :=
  match nextActivity s with
  | .settled s' => .next s'
  | .command i s' => exec i s'

/-- `s` with the command word `w` of the opcode table as the very next event: the block fetches no
instruction, the host writes it to CMD (R31, R150). Log entry 8. -/
def State.withFetchWord (s : State) (nbits w : Nat) : State :=
  withCommand (cmdValueOfTableWord nbits w) s

end Sys2Proof.Machine
end

