-- ==== Sys2Proof/Machine/Assembler.lean ====
section
/-! DEFINITION. The assembler's view of the command set: the written forms (R170), the
pseudo-instructions (R171), the macro PIPE (R172), and host lines as events (R173). -/

namespace Sys2Proof.Machine

/-- A register or bank operand, a letter and a number (R170). -/
def asmOperand (letter : String) (n : Nat) : String := letter ++ toString n

/-- A command as the assembler writes it, destination first (R170). -/
def asmForm (name : String) (operands : List String) : String :=
  if operands.isEmpty then name else name ++ " " ++ ", ".intercalate operands

/-- The written form of a command (R170). -/
def asmText : Instr → String
  | .nop => asmForm "NOP" []
  | .cmov d a => asmForm "CMOV" [asmOperand "c" d.toNat, asmOperand "c" a.toNat]
  | .cadd d a b =>
    asmForm "CADD" [asmOperand "c" d.toNat, asmOperand "c" a.toNat, asmOperand "c" b.toNat]
  | .csub d a b =>
    asmForm "CSUB" [asmOperand "c" d.toNat, asmOperand "c" a.toNat, asmOperand "c" b.toNat]
  | .cmul d a b =>
    asmForm "CMUL" [asmOperand "c" d.toNat, asmOperand "c" a.toNat, asmOperand "c" b.toNat]
  | .cdiv d a b =>
    asmForm "CDIV" [asmOperand "c" d.toNat, asmOperand "c" a.toNat, asmOperand "c" b.toNat]
  | .cconj d a => asmForm "CCONJ" [asmOperand "c" d.toNat, asmOperand "c" a.toNat]
  | .cmag d a => asmForm "CMAG" [asmOperand "c" d.toNat, asmOperand "c" a.toNat]
  | .cscln d a => asmForm "CSCLN" [asmOperand "c" d.toNat, asmOperand "c" a.toNat]
  | .twld d k => asmForm "TWLD" [asmOperand "c" d.toNat, toString k.toNat]
  | .bfly a b k =>
    asmForm "BFLY" [asmOperand "c" a.toNat, asmOperand "c" b.toNat, toString k.toNat]
  | .bflyw a b w =>
    asmForm "BFLYW" [asmOperand "c" a.toNat, asmOperand "c" b.toNat, asmOperand "c" w.toNat]
  | .cld r z row col =>
    asmForm "CLD" [asmOperand "c" r.toNat, asmOperand "z" z.toNat, toString row.toNat,
      toString col.toNat]
  | .cst r z row col =>
    asmForm "CST" [asmOperand "c" r.toNat, asmOperand "z" z.toNat, toString row.toNat,
      toString col.toNat]
  | .lift zd ss => asmForm "LIFT" [asmOperand "z" zd.toNat, asmOperand "s" ss.toNat]
  | .fftrow zd row => asmForm "FFTROW" [asmOperand "z" zd.toNat, toString row.toNat]
  | .ifftrow zd row => asmForm "IFFTROW" [asmOperand "z" zd.toNat, toString row.toNat]
  | .fftrows zd => asmForm "FFTROWS" [asmOperand "z" zd.toNat]
  | .ifftrows zd => asmForm "IFFTROWS" [asmOperand "z" zd.toNat]
  | .trans zd => asmForm "TRANS" [asmOperand "z" zd.toNat]
  | .zcopy zd zs => asmForm "ZCOPY" [asmOperand "z" zd.toNat, asmOperand "z" zs.toNat]
  | .realclamp sd zs => asmForm "REALCLAMP" [asmOperand "s" sd.toNat, asmOperand "z" zs.toNat]
  | .fft2d zd ss => asmForm "FFT2D" [asmOperand "z" zd.toNat, asmOperand "s" ss.toNat]
  | .ifft2d sd zd zs =>
    asmForm "IFFT2D" [asmOperand "s" sd.toNat, asmOperand "z" zd.toNat, asmOperand "z" zs.toNat]
  | .filter zd zs => asmForm "FILTER" [asmOperand "z" zd.toNat, asmOperand "z" zs.toNat]
  | .logmag sd zs => asmForm "LOGMAG" [asmOperand "s" sd.toNat, asmOperand "z" zs.toNat]

/-- `TW cD, k, m`: load `exp(−2πi·k/m)`, for `m` a power of two in 2..512 and `k < m/2` (R171). -/
def pseudoTw (d : BitVec 3) (k m : Nat) : Instr := .twld d (BitVec.ofNat 8 (k * (512 / m)))

/-- `BFLY2 cA, cB`: twiddle 1 (R171). -/
def pseudoBfly2 (a b : BitVec 3) : Instr := .bfly a b 0#8

/-- `CSQ cD, cA`: complex square (R171). -/
def pseudoCsq (d a : BitVec 3) : Instr := .cmul d a a

/-- `CDBL cD, cA`: twice the operand (R171). -/
def pseudoCdbl (d a : BitVec 3) : Instr := .cadd d a a

/-- The commands of the macro `PIPE` (R172). -/
def pipe (sIn sOut sView0 sView1 : BitVec 2) (zA zB : BitVec 1) : List Instr :=
  [.fft2d zA sIn, .logmag sView0 zA, .filter zB zA, .logmag sView1 zB, .ifft2d sOut zB zB]

/-- A command mnemonic on a host line: the CMD write that submits it (R173). -/
def cmdWrite (i : Instr) : Event := .access (.write 0x028#32 .b8 (cmdValue i))

/-- `WR name, v` at an offset: an 8-byte write (R173). -/
def hostWr (offset : BitVec 32) (v : BitVec 64) : Event := .access (.write offset .b8 v)

/-- `RD name` at an offset: an 8-byte read (R173). -/
def hostRd (offset : BitVec 32) : Event := .access (.read offset .b8)

/-- Commands, each with its `WAIT`: the host goes on once CORE has taken its turn (R123, R173). -/
def runCommands (is : List Instr) : List Event := is.flatMap fun i => [cmdWrite i, .core]

end Sys2Proof.Machine
end

