-- ==== Sys2Proof/Machine/Defaults.lean ====
section
/-! DEFINITION. The defaults of EXP and LN (R208, R209), as properties of the implementation's
functions: a claim about the default hardware takes them as hypotheses. Log entries 2 and 3. -/

namespace Sys2Proof.Machine

/-- The real value of a finite binary64 is `x` (R200). -/
def HasValue (v : F64) (x : ℝ) : Prop :=
  isFinite v = true ∧ x = (signedUnits v : ℝ) / 2 ^ 1074

/-- `v` is the finite binary64 nearest to the real number `x`; of two that are equally near, the
one whose last fraction bit is 0 (R201). -/
def IsNearest (x : ℝ) (v : F64) : Prop :=
  isFinite v = true ∧ ∀ w : F64, isFinite w = true →
    |x - (signedUnits v : ℝ) / 2 ^ 1074| ≤ |x - (signedUnits w : ℝ) / 2 ^ 1074| ∧
    (|x - (signedUnits v : ℝ) / 2 ^ 1074| = |x - (signedUnits w : ℝ) / 2 ^ 1074| →
      signedUnits v = signedUnits w ∨ v.getLsbD 0 = false)

/-- The default of R208: EXP is the correctly rounded exponential on the arguments the block
calls it on, and its zeros are `+0`. -/
def ExpIsDefault : Prop :=
  ∀ (a : F64) (x : ℝ), HasValue a x → x ≤ 0 →
    IsNearest (Real.exp x) (cfgExp a) ∧ fsign (cfgExp a) = false

/-- The default of R209: LN is the correctly rounded natural logarithm on the arguments the block
calls it on, and its zeros are `+0`. -/
def LnIsDefault : Prop :=
  ∀ (a : F64) (x : ℝ), HasValue a x → 1 ≤ x →
    IsNearest (Real.log x) (cfgLn a) ∧ fsign (cfgLn a) = false

end Sys2Proof.Machine
end

