-- ==== Sys2Proof/Safety.lean ====
section
/-! DEFINITION. What claims about runs are stated in: the end of a run (R481), a run that refused
nothing (R409). -/

namespace Sys2Proof.Machine

/-- A run has ended: the host has made its last access and no command is in flight (R481). R481 does
not say whether a reset, or a turn of CORE with nothing in flight, that is still to come keeps a run
from having ended. DESIGN CHOICE: it does; no event of any kind is left. Log entry 23. -/
def runEnded (s : State) : Bool := s.events.isEmpty && !busy s

/-- No refusal stands recorded: STATUS.ERR is 0 (R409). -/
def noRefusal (s : State) : Bool := !s.err

/-- A W1C write of ERR: an 8-byte write to STATUS with bit 2 set (R40, R409). A write of another size
there raises BusError and clears nothing (R104, R107). -/
def w1cErr : Event → Bool
  | .access (.write offset .b8 data) => offset == 0x030#32 && data.getLsbD 2
  | .access (.write _ .b1 _) => false
  | .access (.write _ .b2 _) => false
  | .access (.write _ .b4 _) => false
  | .access (.read _ _) => false
  | .core => false
  | .reset => false

/-- The premise that R409 gives a run that should not refuse, for a run of the events `es` that ends
in `s`: ERR is 0 at the end, and no W1C write of ERR was among the events. A reset among them clears
ERR too (R450), and R409's premise does not speak of one. -/
def refusedNothing (es : List Event) (s : State) : Bool := noRefusal s && es.all fun e => !w1cErr e

/-- The events that clear ERR: the host's W1C write, and reset, which clears every register (R409,
R450). -/
def clearsErr (e : Event) : Bool := w1cErr e || e == .reset

end Sys2Proof.Machine
end

