-- ==== Sys2Proof/Certificates/Slice0/Obligations.lean ====
section
/-! DEFINITION. The statements about the block, and the predicates they are written in. -/

namespace Sys2Proof.Claims

open Sys2Proof.Machine

/-- Element (i, j) of complex bank `z` has been written and holds `v`, bit for bit (R49, R452). -/
def HoldsZ (t : State) (z : BitVec 1) (i j : Nat) (v : Cplx) : Prop :=
  ∀ k, k < 16 → memFind t.mem (cplxAddr z i j + k) = (cplxBytes v)[k]?

/-- Sample (i, j) of sample bank `b` has been written and holds `v` (R48, R452). -/
def HoldsS (t : State) (b : BitVec 2) (i j : Nat) (v : Byte) : Prop :=
  memFind t.mem (sampleAddr b i j) = some v

/-- `x` is the offset of a byte of element (i, j) of complex bank `z` (R49). -/
def ByteOfZ (z : BitVec 1) (i j x : Nat) : Prop := cplxAddr z i j ≤ x ∧ x < cplxAddr z i j + 16

/-- `x` is the offset of a byte of the N x N region of complex bank `z` (R47). -/
def RegionZ (s : State) (z : BitVec 1) (x : Nat) : Prop :=
  ∃ i j, i < activeN s ∧ j < activeN s ∧ ByteOfZ z i j x

/-- `x` is the offset of a sample of the N x N region of sample bank `b` (R47). -/
def RegionS (s : State) (b : BitVec 2) (x : Nat) : Prop :=
  ∃ i j, i < activeN s ∧ j < activeN s ∧ x = sampleAddr b i j

/-- Every byte of the banks but the stored ones is as before: written with the same value, or
unwritten still. -/
def KeepsMemory (s t : State) (stored : Nat → Prop) : Prop :=
  ∀ x, ¬ stored x → memFind t.mem x = memFind s.mem x

/-- The frame of an accepted register command: of the whole state only `C[d]` changes, and the
command is in flight. -/
def OnlyRegister (i : Instr) (d : BitVec 3) (s t : State) : Prop :=
  (∀ e, e ≠ d → getC t e = getC s e) ∧ t = { s with creg := t.creg, pending := some i }

/-- The frame of an accepted bank command that reads banks and stores to bank bytes alone: of the
whole state only the stored bytes change, the command is in flight, and the reading event is over
(log entry 4). -/
def OnlyStores (i : Instr) (s t : State) (stored : Nat → Prop) : Prop :=
  KeepsMemory s t stored ∧
    t = { s with mem := t.mem, draws := s.draws + 1, pending := some i }

/-- A positive finite binary64, read off its bit pattern: what R351 asks of CUTOFF and R331 of
LOGDIV. -/
abbrev PositiveFinite (x : F64) : Prop := 0 < x.toNat ∧ x.toNat < 0x7FF0000000000000

/-- `m` is the largest `|im i j|` over the `n × n` coordinates, NaNs ignored, `+0` at least
(R297). -/
def IsLargestImag (m : F64) (n : Nat) (im : Nat → Nat → F64) : Prop :=
  (m = fzero ∨ ∃ i j, i < n ∧ j < n ∧ isNaN (im i j) = false ∧ m = fabs (im i j)) ∧
    ∀ i j, i < n → j < n → isNaN (im i j) = false → fle (fabs (im i j)) m = true

/-- The "reads N" column of R158. -/
def readsN : Instr → Bool
  | .nop => false
  | .cmov _ _ => false
  | .cadd _ _ _ => false
  | .csub _ _ _ => false
  | .cmul _ _ _ => false
  | .cdiv _ _ _ => false
  | .cconj _ _ => false
  | .cmag _ _ => false
  | .cscln _ _ => true
  | .twld _ _ => false
  | .bfly _ _ _ => false
  | .bflyw _ _ _ => false
  | .cld _ _ _ _ => true
  | .cst _ _ _ _ => true
  | .lift _ _ => true
  | .fftrow _ _ => true
  | .ifftrow _ _ => true
  | .fftrows _ => true
  | .ifftrows _ => true
  | .trans _ => true
  | .zcopy _ _ => true
  | .realclamp _ _ => true
  | .fft2d _ _ => true
  | .ifft2d _ _ _ => true
  | .filter _ _ => true
  | .logmag _ _ => true

/-- The complex bank a command names as a destination (R50). -/
def destZ : Instr → Option (BitVec 1)
  | .cst _ z _ _ => some z
  | .lift zd _ => some zd
  | .fftrow zd _ => some zd
  | .ifftrow zd _ => some zd
  | .fftrows zd => some zd
  | .ifftrows zd => some zd
  | .trans zd => some zd
  | .zcopy zd _ => some zd
  | .fft2d zd _ => some zd
  | .ifft2d _ zd _ => some zd
  | .filter zd _ => some zd
  | _ => none

/-- The sample bank a command names as a destination (R50). -/
def destS : Instr → Option (BitVec 2)
  | .realclamp sd _ => some sd
  | .ifft2d sd _ _ => some sd
  | .logmag sd _ => some sd
  | _ => none

/-- Whether a command reads a sample bank (R333). -/
def readsSamples : Instr → Bool
  | .lift _ _ => true
  | .fft2d _ _ => true
  | _ => false

/-- The error code of a decoded command, by the checks of R400 in their order, written from the
rules and not from the meanings; `none` when every check passes. -/
def commandError (i : Instr) (s : State) : Option (BitVec 8) :=
  if readsN i = true ∧ 9 < s.log2n.toNat then some 2#8
  else match i with
    | .cld _ _ row col =>
      if row.toNat < 2 ^ s.log2n.toNat ∧ col.toNat < 2 ^ s.log2n.toNat then none else some 3#8
    | .cst _ _ row col =>
      if row.toNat < 2 ^ s.log2n.toNat ∧ col.toNat < 2 ^ s.log2n.toNat then none else some 3#8
    | .fftrow _ row => if row.toNat < 2 ^ s.log2n.toNat then none else some 3#8
    | .ifftrow _ row => if row.toNat < 2 ^ s.log2n.toNat then none else some 3#8
    | .filter _ _ => if s.family ≠ 3#2 ∧ PositiveFinite s.cutoff then none else some 4#8
    | .logmag _ _ => if PositiveFinite s.logdiv then none else some 5#8
    | _ => none

/-- The error code of a CMD value, by R400. -/
def submitError (v : BitVec 64) (s : State) : Option (BitVec 8) :=
  match decode v with
  | .illegal _ => some 1#8
  | .command i => commandError i s

/-- When an access answers OKAY, from the map, sizes and access rights of R101, R102, R104, R105,
R108 and R110. -/
def AnswersOkay (inFlight write : Bool) (a n : Nat) : Prop :=
  (((a < 0x50 ∨ (0x100 ≤ a ∧ a < 0x180) ∨ (0x1000 ≤ a ∧ a < 0x2000) ∨
      (0x1000000 ≤ a ∧ a < 0x1800000)) ∧ n = 8) ∨ (0x400000 ≤ a ∧ a < 0x500000)) ∧
  a % n = 0 ∧
  (inFlight = true → a = 0x000 ∨ a = 0x030 ∨ a = 0x038) ∧
  (write = true → a ≠ 0x000 ∧ a ≠ 0x040 ∧ a ≠ 0x048 ∧ ¬(0x1000 ≤ a ∧ a < 0x2000))

/-- With no command in flight, an 8-byte write of `v` at `offset` makes exactly the change `upd`,
answers OKAY, and an 8-byte read of it right after returns `back` and changes nothing. -/
def WriteThenRead (offset : BitVec 32) (v : BitVec 64) (upd : State → State) (back : BitVec 64) :
    Prop :=
  ∀ s rest, s.pending = none →
    s.events = .access (.write offset .b8 v) :: .access (.read offset .b8) :: rest →
    ∃ t, step s = .next t ∧
      t = { upd s with
        events := .access (.read offset .b8) :: rest, resp := some (.okay 0#64) } ∧
      step t = .next { upd s with events := rest, resp := some (.okay back) }

/-- With no command in flight, an 8-byte read at `offset` answers OKAY with `val` of the state and
changes nothing. -/
def ReadsAs (offset : BitVec 32) (val : State → BitVec 64) : Prop :=
  ∀ s rest, s.pending = none → s.events = .access (.read offset .b8) :: rest →
    step s = .next { s with events := rest, resp := some (.okay (val s)) }

/-- Submits commands one after another, without the host accesses between them. -/
def runAll : List Instr → State → Option State
  | [], s => some s
  | i :: is, s =>
    match exec i s with
    | .next t => runAll is t
    | .fault _ => none
    | .refused _ => none

/-- What every step keeps: the memory's canonical form, listing only bank offsets (R102); the error
record that R40, R43 and R405 describe; and that a command in flight which reads N was accepted at
a legal one (R406). -/
def Inv (s : State) : Prop :=
  Memory.wf s.mem = true ∧
  (∀ c ∈ s.mem, (0x400000 ≤ c.1 ∧ c.1 < 0x500000) ∨ (0x1000000 ≤ c.1 ∧ c.1 < 0x1800000)) ∧
  (s.err = false → s.errcode = 0#8 ∧ s.errcmd = 0#64) ∧
  (s.err = true → 1 ≤ s.errcode.toNat ∧ s.errcode.toNat ≤ 5) ∧
  ∀ i, s.pending = some i → readsN i = true → s.log2n.toNat ≤ 9

/-- Two states that differ only in the contents of the sample banks. -/
def AgreeOffSamples (s s' : State) : Prop :=
  s' = { s with mem := s'.mem } ∧
    ∀ x, ¬(0x400000 ≤ x ∧ x < 0x500000) → memFind s'.mem x = memFind s.mem x

/-- The signed frequency of index `i`: `i` below N/2 and `i − N` from there on (R350). -/
def frequency (n i : Nat) : Int := if 2 * i < n then (i : Int) else (i : Int) - n

/-- `r` is nearest to `num / den` units, ties to even, or infinite from the half-way point above the
largest finite value on (R201, R203). -/
def RoundsTo (num den : Nat) (r : F64) : Prop :=
  if num < den * ((2 ^ 54 - 1) * 2 ^ 2044) then
    isFinite r = true ∧ ∀ z : F64, isFinite z = true →
      ((units r * den : Nat) - (num : Int)).natAbs ≤ ((units z * den : Nat) - (num : Int)).natAbs ∧
      (((units r * den : Nat) - (num : Int)).natAbs
          = ((units z * den : Nat) - (num : Int)).natAbs →
        units z = units r ∨ r.getLsbD 0 = false)
  else r = finf

end Sys2Proof.Claims

open Sys2Proof Sys2Proof.Machine Sys2Proof.Claims

/-! ### Running a command -/

/-- A step at a CMD write whose value decodes to a command is `exec` of that command, on the state
past the event with the write answered OKAY (R111, R400). -/
def Obligations.StepRunsDecodedCommand : Prop :=
  ∀ (s : State) (v : BitVec 64) (i : Instr) (rest : List Event),
    s.events = .access (.write 0x028#32 .b8 v) :: rest → s.pending = none →
    decode v = .command i →
    step s = exec i { s with events := rest, resp := some (.okay 0#64) }

/-- Words written out from R158 and the examples of the command rules decode to the commands they
stand for. -/
def Obligations.ExampleWordsDecode : Prop :=
  decode 0x00000000#64 = .command .nop ∧
  decode 0x00004202#64 = .command (.cadd 2#3 0#3 1#3) ∧
  decode 0x00800009#64 = .command (.twld 0#3 64#8) ∧
  decode 0x0000420B#64 = .command (.bflyw 0#3 1#3 2#3) ∧
  decode 0x00A03C10#64 = .command (.cld 4#3 1#1 3#9 5#9) ∧
  decode 0x00010022#64 = .command (.ifftrow 0#1 1#9) ∧
  decode 0x00000A29#64 = .command (.ifft2d 2#2 0#1 1#1) ∧
  decode 0x0000022A#64 = .command (.filter 0#1 1#1) ∧
  decode 0x00000C2B#64 = .command (.logmag 3#2 0#1)

/-- Decoding the word of any command gives the command back, every field at every value
(R153 to R161). -/
def Obligations.DecodeOfEncode : Prop := ∀ i : Instr, decode (cmdValue i) = .command i

/-- A CMD value that decodes to a command is that command's own word: no bit is ignored (R151,
R157). -/
def Obligations.EncodeOfDecode : Prop :=
  ∀ (v : BitVec 64) (i : Instr), decode v = .command i → v = cmdValue i

/-- `Decode(v)` of R161: bits 63:32 are zero, the word meets the mask and match of the command's
row, and the fields are the word's; and no word meets two rows. -/
def Obligations.DecodeFollowsTheOpcodeMap : Prop :=
  (∀ (v : BitVec 64) (i : Instr),
    decode v = .command i ↔
      v.extractLsb' 32 32 = 0#32 ∧
      v.extractLsb' 0 32 &&& (rowOf i).mask = (rowOf i).pattern ∧
      (rowOf i).build (v.extractLsb' 0 32) = i) ∧
  (∀ v : BitVec 64, (∀ i, decode v ≠ .command i) → ∃ c, decode v = .illegal c) ∧
  opcodeTable.Pairwise fun r r' =>
    ∀ w : BitVec 32, ¬(w &&& r.mask = r.pattern ∧ w &&& r'.mask = r'.pattern)

/-- Every value with a reserved opcode, and every value with a bit of CMD[63:32] set, is illegal
(R151, R159). -/
def Obligations.ReservedEncodingsAreIllegal : Prop :=
  ∀ v : BitVec 64,
    (v.extractLsb' 32 32 ≠ 0#32 → decode v = .illegal .upperBits) ∧
    (v.extractLsb' 32 32 = 0#32 →
      (0x0C ≤ (v.extractLsb' 0 8).toNat ∧ (v.extractLsb' 0 8).toNat ≤ 0x0F) ∨
      (0x12 ≤ (v.extractLsb' 0 8).toNat ∧ (v.extractLsb' 0 8).toNat ≤ 0x1F) ∨
      0x2C ≤ (v.extractLsb' 0 8).toNat →
      decode v = .illegal .reservedOpcode)

/-! ### Acceptance, refusal, completion -/

/-- A submitted value that fails a check is refused with the code of the first check that fails:
the first error is recorded, a later one sets EOVF, and nothing else changes (R400, R404, R407). -/
def Obligations.FailedCheckRefuses : Prop :=
  ∀ (s : State) (v : BitVec 64) (code : BitVec 8) (rest : List Event),
    s.events = .access (.write 0x028#32 .b8 v) :: rest → s.pending = none →
    submitError v s = some code →
    step s = .next
      (if s.err then { s with events := rest, resp := some (.okay 0#64), eovf := true }
       else { s with
        events := rest, resp := some (.okay 0#64), err := true, errcode := code, errcmd := v })

/-- A submitted value that passes every check is accepted: BUSY becomes 1 and no flag, no error
record and no configuration register changes (R400, R401). -/
def Obligations.PassedChecksAccept : Prop :=
  ∀ (s : State) (v : BitVec 64) (rest : List Event),
    s.events = .access (.write 0x028#32 .b8 v) :: rest → s.pending = none →
    submitError v s = none →
    ∃ i t, decode v = .command i ∧ step s = .next t ∧ busy t = true ∧
      t = { s with
        creg := t.creg, mem := t.mem, imagmax := t.imagmax, draws := t.draws
        pending := some i, events := rest, resp := some (.okay 0#64) }

/-- A turn of CORE with a command in flight clears BUSY, sets DONE and changes nothing else; with
none in flight it changes nothing (R402). -/
def Obligations.CompletionSetsDone : Prop :=
  ∀ (s : State) (rest : List Event), s.events = .core :: rest →
    (busy s = true →
      step s = .next { s with events := rest, pending := none, done := true }) ∧
    (busy s = false → step s = .next { s with events := rest })

/-- While a command is in flight it stays in flight, with everything it reads and wrote held, until
CORE completes it or reset abandons it (R45, R55, R403). -/
def Obligations.InFlightUntilCompletion : Prop :=
  ∀ (s : State) (i : Instr), s.pending = some i →
    ∃ t, step s = .next t ∧
      ((t.pending = some i ∧ t.creg = s.creg ∧ t.mem = s.mem ∧ t.log2n = s.log2n ∧
          t.family = s.family ∧ t.pass = s.pass ∧ t.cutoff = s.cutoff ∧ t.logdiv = s.logdiv ∧
          t.imagmax = s.imagmax) ∨
        (t.pending = none ∧
          (s.events = [] ∨ ∃ rest, s.events = .core :: rest ∨ s.events = .reset :: rest)))

/-- No command changes a configuration register, an enable, DONE, or an answer to the host; and one
that passes its checks changes no error record (R54, R404, R408). -/
def Obligations.CommandsKeepConfigurationAndFlags : Prop :=
  ∀ (i : Instr) (s t : State), exec i s = .next t →
    t = { s with
      creg := t.creg, mem := t.mem, imagmax := t.imagmax, draws := t.draws, pending := t.pending
      err := t.err, eovf := t.eovf, errcode := t.errcode, errcmd := t.errcmd } ∧
    (commandError i s = none →
      t.pending = some i ∧ t.err = s.err ∧ t.eovf = s.eovf ∧ t.errcode = s.errcode ∧
        t.errcmd = s.errcmd)

/-- A recorded error stays as it is until a host write clears it or reset does (R404, R409,
R477). -/
def Obligations.ErrorIsSticky : Prop :=
  ∀ s t : State, s.err = true → step s = .next t →
    (t.err = true ∧ t.errcode = s.errcode ∧ t.errcmd = s.errcmd) ∨
      ∃ e rest, s.events = e :: rest ∧ clearsErr e = true

/-! ### The host side -/

/-- A read and a write answer OKAY exactly when the map, the size, the alignment, BUSY and the
access right allow it, and ERROR otherwise (R101, R102, R104, R105, R108, R110, R111). -/
def Obligations.AccessesAnswerByTheMap : Prop :=
  ∀ (s : State) (offset : BitVec 32) (size : AccessSize) (data : BitVec 64) (rest : List Event),
    (s.events = .access (.read offset size) :: rest →
      ∃ t, step s = .next t ∧
        ((∃ d, t.resp = some (.okay d)) ↔
          AnswersOkay (busy s) false offset.toNat size.bytes) ∧
        (¬ AnswersOkay (busy s) false offset.toNat size.bytes → t.resp = some .error)) ∧
    (s.events = .access (.write offset size data) :: rest →
      ∃ t, step s = .next t ∧
        (t.resp = some (.okay 0#64) ↔ AnswersOkay (busy s) true offset.toNat size.bytes) ∧
        (¬ AnswersOkay (busy s) true offset.toNat size.bytes → t.resp = some .error))

/-- An access that answers ERROR changes no state of the block, and carries data 0 (R107). -/
def Obligations.BusErrorChangesNothing : Prop :=
  ∀ (s : State) (a : Access) (rest : List Event), s.events = .access a :: rest →
    ∃ t, step s = .next t ∧
      (t.resp = some .error →
        t = { s with events := rest, resp := some .error } ∧ responseData .error = 0#64)

/-- While a command is in flight every access but those to ID, STATUS and IRQEN raises BusError,
whatever its kind, size or alignment, a CMD write among them; the three answer, ID and IRQEN with
what they hold, and a write to IRQEN sets its two fields at once and nothing else (R33, R41,
R108). -/
def Obligations.BusyShutsOutTheHost : Prop :=
  ∀ (s : State) (offset : BitVec 32) (size : AccessSize) (data : BitVec 64) (rest : List Event),
    busy s = true →
    (offset ≠ 0x000#32 → offset ≠ 0x030#32 → offset ≠ 0x038#32 →
      (s.events = .access (.read offset size) :: rest ∨
        s.events = .access (.write offset size data) :: rest) →
      step s = .next { s with events := rest, resp := some .error }) ∧
    (offset = 0x000#32 ∨ offset = 0x030#32 ∨ offset = 0x038#32 →
      s.events = .access (.read offset .b8) :: rest →
      ∃ d, step s = .next { s with events := rest, resp := some (.okay d) }) ∧
    (offset = 0x030#32 ∨ offset = 0x038#32 →
      s.events = .access (.write offset .b8 data) :: rest →
      ∃ t, step s = .next t ∧ t.resp = some (.okay 0#64) ∧ t.pending = s.pending) ∧
    (s.events = .access (.read 0x000#32 .b8) :: rest →
      step s = .next { s with events := rest, resp := some (.okay 0x4543363935303207#64) }) ∧
    (s.events = .access (.read 0x038#32 .b8) :: rest →
      ∃ w : BitVec 64, step s = .next { s with events := rest, resp := some (.okay w) } ∧
        w.getLsbD 0 = s.doneie ∧ w.getLsbD 1 = s.errie ∧ w.extractLsb' 2 62 = 0#62) ∧
    (s.events = .access (.write 0x038#32 .b8 data) :: rest →
      step s = .next { s with
        events := rest, resp := some (.okay 0#64)
        doneie := data.getLsbD 0, errie := data.getLsbD 1 })

/-- A read changes nothing but the answer, and, in a bank, which draws the next read of unwritten
bytes takes (R109, R452). -/
def Obligations.ReadsHaveNoSideEffect : Prop :=
  ∀ (s : State) (offset : BitVec 32) (size : AccessSize) (rest : List Event),
    s.events = .access (.read offset size) :: rest →
    ∃ t, step s = .next t ∧
      t = { s with events := rest, resp := t.resp, draws := t.draws } ∧
      (offset.toNat < 0x400000 → t.draws = s.draws)

/-- A host write to a bank stores its bytes, the low one at the lowest offset, and no other byte of
the state; a read right after returns the value written, zero-extended (R48, R49, R103, R109,
R111). -/
def Obligations.BankWriteThenRead : Prop :=
  ∀ (s : State) (a : BitVec 32) (size : AccessSize) (v : BitVec 64) (rest : List Event),
    s.pending = none →
    (0x400000 ≤ a.toNat ∧ a.toNat < 0x500000) ∨
      (0x1000000 ≤ a.toNat ∧ a.toNat < 0x1800000 ∧ size = .b8) →
    a.toNat % size.bytes = 0 →
    s.events = .access (.write a size v) :: .access (.read a size) :: rest →
    ∃ t u, step s = .next t ∧ step t = .next u ∧ t.resp = some (.okay 0#64) ∧
      (∀ k, k < size.bytes → memFind t.mem (a.toNat + k) = some (v.extractLsb' (8 * k) 8)) ∧
      KeepsMemory s t (fun x => a.toNat ≤ x ∧ x < a.toNat + size.bytes) ∧
      t = { s with mem := t.mem, events := t.events, resp := t.resp } ∧
      u.resp = some (.okay (BitVec.ofNat 64 (v.toNat % 2 ^ (8 * size.bytes))))

/-- The five read-write control registers: a write changes the named register alone, at once, in
its fields alone, and reads back with its reserved bits 0; CMD reads 0, and ID, IMAGMAX and ERRCMD
read as they stand (R33, R35 to R39, R41 to R43, R45). -/
def Obligations.ControlRegisterAccess : Prop :=
  (∀ v : BitVec 64,
    WriteThenRead 0x008#32 v (fun s => { s with log2n := v.extractLsb' 0 4 }) (v &&& 0xF#64) ∧
    WriteThenRead 0x010#32 v
      (fun s => { s with family := v.extractLsb' 0 2, pass := v.extractLsb' 2 1 }) (v &&& 0x7#64) ∧
    WriteThenRead 0x018#32 v (fun s => { s with cutoff := v }) v ∧
    WriteThenRead 0x020#32 v (fun s => { s with logdiv := v }) v ∧
    WriteThenRead 0x038#32 v
      (fun s => { s with doneie := v.getLsbD 0, errie := v.getLsbD 1 }) (v &&& 0x3#64)) ∧
  ReadsAs 0x000#32 (fun _ => 0x4543363935303207#64) ∧
  ReadsAs 0x028#32 (fun _ => 0#64) ∧
  ReadsAs 0x040#32 (fun s => s.imagmax) ∧
  ReadsAs 0x048#32 (fun s => s.errcmd)

/-- STATUS: its fields as a read sees them, in flight or not, and what a write clears (R40). -/
def Obligations.StatusRegister : Prop :=
  ∀ (s : State) (v : BitVec 64) (rest : List Event),
    (s.events = .access (.read 0x030#32 .b8) :: rest →
      ∃ w : BitVec 64,
        step s = .next { s with events := rest, resp := some (.okay w) } ∧
        w.getLsbD 0 = busy s ∧ w.getLsbD 1 = s.done ∧ w.getLsbD 2 = s.err ∧
        w.getLsbD 3 = s.eovf ∧ w.extractLsb' 4 4 = 0#4 ∧ w.extractLsb' 8 8 = s.errcode ∧
        w.extractLsb' 16 48 = 0#48) ∧
    (s.events = .access (.write 0x030#32 .b8 v) :: rest →
      step s = .next { s with
        events := rest
        resp := some (.okay 0#64)
        done := s.done && !v.getLsbD 1
        err := s.err && !v.getLsbD 2
        eovf := s.eovf && !v.getLsbD 3
        errcode := if v.getLsbD 2 then 0#8 else s.errcode
        errcmd := if v.getLsbD 2 then 0#64 else s.errcmd })

/-- The C registers as the host sees them: half `h` of register `r` is at 0x100 + 16·r + 8·h, a
write changes that half alone, and reads back (R45, R46). -/
def Obligations.RegisterFileAccess : Prop :=
  ∀ (r : BitVec 3) (h : Bool) (v : BitVec 64),
    WriteThenRead (BitVec.ofNat 32 (0x100 + 16 * r.toNat + if h then 8 else 0)) v
      (fun s => setC r (if h then ⟨(getC s r).re, v⟩ else ⟨v, (getC s r).im⟩) s) v

/-- The twiddle ROM: the host reads entry k's halves at 0x1000 + 16·k and 0x1008 + 16·k; every half
is the binary64 nearest to the cosine or the negated sine of 2πk/512, and an exact zero is +0 (R51);
and the entries have the exact values and symmetries R53 lists. -/
def Obligations.TwiddleRom : Prop :=
  (∀ k : Nat, k < 256 →
    ReadsAs (BitVec.ofNat 32 (0x1000 + 16 * k)) (fun _ => (tw k).re) ∧
    ReadsAs (BitVec.ofNat 32 (0x1008 + 16 * k)) (fun _ => (tw k).im)) ∧
  (∀ k : Nat, k < 256 →
    IsNearest (Real.cos (2 * Real.pi * k / 512)) (tw k).re ∧
    IsNearest (-Real.sin (2 * Real.pi * k / 512)) (tw k).im) ∧
  tw 0 = ⟨0x3FF0000000000000#64, 0#64⟩ ∧
  tw 128 = ⟨0#64, 0xBFF0000000000000#64⟩ ∧
  tw 64 = ⟨0x3FE6A09E667F3BCD#64, 0xBFE6A09E667F3BCD#64⟩ ∧
  (∀ k, 1 ≤ k → k ≤ 127 → tw (256 - k) = ⟨fneg (tw k).re, (tw k).im⟩) ∧
  (∀ k, k ≤ 128 → feq (tw (128 - k)).re (fneg (tw k).im) = true)

/-- The interrupt line, in every state: DONE under DONEIE or ERR under ERRIE. So a completion raises
it when DONEIE is set, a refusal when ERRIE is, clearing an enable masks its source, EOVF does not
drive it, and reset lowers it (R420). -/
def Obligations.InterruptLine : Prop :=
  (∀ s, irq s = true ↔ (s.done = true ∧ s.doneie = true) ∨ (s.err = true ∧ s.errie = true)) ∧
  (∀ s, irq (complete s) = (s.doneie || (s.err && s.errie))) ∧
  (∀ s v code, irq (refuse v code s) = ((s.done && s.doneie) || s.errie)) ∧
  (∀ (s : State) b, irq { s with eovf := b } = irq s) ∧
  (∀ s : State, irq { s with doneie := false } = (s.err && s.errie)) ∧
  (∀ s : State, irq { s with errie := false } = (s.done && s.doneie)) ∧
  irq State.reset = false

/-- Reset, in whatever state and with whatever in flight: every register takes the value R56 lists,
every bank element is unwritten, no command is in flight, irq is 0, and LOGDIV is positive and
finite; the events still to come and the numbering of the draws are the model's (log entry 10). -/
def Obligations.ResetStep : Prop :=
  ∀ (s : State) (rest : List Event), s.events = .reset :: rest →
    ∃ t, step s = .next t ∧
      t = { s with
        log2n := 9#4, family := 0#2, pass := 0#1, cutoff := 0x4034000000000000#64
        logdiv := t.logdiv, done := false, err := false, eovf := false, errcode := 0#8
        errcmd := 0#64, doneie := false, errie := false, imagmax := 0#64, creg := t.creg
        mem := [], pending := none, events := rest, resp := none } ∧
      (∀ r, getC t r = ⟨0#64, 0#64⟩) ∧ PositiveFinite t.logdiv ∧ irq t = false

/-! ### Invariants and isolation -/

/-- Every step keeps the invariant. -/
def Obligations.StepKeepsInv : Prop := ∀ s t : State, Inv s → step s = .next t → Inv t

/-- The invariant holds right after reset. -/
def Obligations.ResetHasInv : Prop := Inv State.reset

/-- A command changes no byte of a bank outside the N x N region of the banks it names as
destinations (R50). -/
def Obligations.CommandsWriteOnlyTheirBanks : Prop :=
  ∀ (i : Instr) (s t : State), exec i s = .next t →
    KeepsMemory s t fun x =>
      (∃ z, destZ i = some z ∧ RegionZ s z x) ∨ (∃ b, destS i = some b ∧ RegionS s b x)

/-- No command but LIFT and FFT2D reads a sample bank: on two states that differ only in the sample
banks, any other command does the same to all the rest, and to each sample byte either leaves it
alone in both or writes the same value in both (R333). -/
def Obligations.SampleBanksDoNotFeedBack : Prop :=
  ∀ (i : Instr) (s s' t t' : State), readsSamples i = false → AgreeOffSamples s s' →
    exec i s = .next t → exec i s' = .next t' →
    AgreeOffSamples t t' ∧
    ∀ x, (memFind t.mem x = memFind s.mem x ∧ memFind t'.mem x = memFind s'.mem x) ∨
      memFind t.mem x = memFind t'.mem x

/-! ### Register commands -/

/-- NOP does nothing but go in flight; CMOV, CCONJ and TWLD copy bits exactly, and CCONJ flips the
sign bit of the imaginary half and no other bit; no other part of the state changes (R214, R220,
R221, R226, R229). -/
def Obligations.CopyCommands : Prop :=
  (∀ s : State, exec .nop s = .next { s with pending := some .nop }) ∧
  (∀ (d a : BitVec 3) (s : State), ∃ t, exec (.cmov d a) s = .next t ∧
    getC t d = getC s a ∧ OnlyRegister (.cmov d a) d s t) ∧
  (∀ (d a : BitVec 3) (s : State), ∃ t, exec (.cconj d a) s = .next t ∧
    (getC t d).re = (getC s a).re ∧
    (getC t d).im.getLsbD 63 = !(getC s a).im.getLsbD 63 ∧
    (∀ k, k < 63 → (getC t d).im.getLsbD k = (getC s a).im.getLsbD k) ∧
    OnlyRegister (.cconj d a) d s t) ∧
  (∀ (d : BitVec 3) (k : BitVec 8) (s : State), ∃ t, exec (.twld d k) s = .next t ∧
    getC t d = romEntries[k.toNat]?.getD czero ∧ OnlyRegister (.twld d k) d s t)

/-- CADD, CSUB, CMUL, CDIV, CMAG and CSCLN compute in the operation order of their rules, on the
operands as they were, and change no other part of the state (R210 to R213, R215, R222 to R225,
R227, R228). -/
def Obligations.ArithmeticCommands : Prop :=
  (∀ (d a b : BitVec 3) (s : State), ∃ t, exec (.cadd d a b) s = .next t ∧
    getC t d = ⟨fadd (getC s a).re (getC s b).re, fadd (getC s a).im (getC s b).im⟩ ∧
    OnlyRegister (.cadd d a b) d s t) ∧
  (∀ (d a b : BitVec 3) (s : State), ∃ t, exec (.csub d a b) s = .next t ∧
    getC t d = ⟨fsub (getC s a).re (getC s b).re, fsub (getC s a).im (getC s b).im⟩ ∧
    OnlyRegister (.csub d a b) d s t) ∧
  (∀ (d a b : BitVec 3) (s : State), ∃ t, exec (.cmul d a b) s = .next t ∧
    getC t d =
      ⟨fsub (fmul (getC s a).re (getC s b).re) (fmul (getC s a).im (getC s b).im),
        fadd (fmul (getC s a).re (getC s b).im) (fmul (getC s a).im (getC s b).re)⟩ ∧
    OnlyRegister (.cmul d a b) d s t) ∧
  (∀ (d a b : BitVec 3) (s : State), ∃ t, exec (.cdiv d a b) s = .next t ∧
    (∃ den, den =
        fadd (fmul (getC s b).re (getC s b).re) (fmul (getC s b).im (getC s b).im) ∧
      getC t d =
        ⟨fdiv (fadd (fmul (getC s a).re (getC s b).re) (fmul (getC s a).im (getC s b).im)) den,
          fdiv (fsub (fmul (getC s a).im (getC s b).re) (fmul (getC s a).re (getC s b).im))
            den⟩) ∧
    OnlyRegister (.cdiv d a b) d s t) ∧
  (∀ (d a : BitVec 3) (s : State), ∃ t, exec (.cmag d a) s = .next t ∧
    getC t d =
      ⟨fsqrt (fadd (fmul (getC s a).re (getC s a).re) (fmul (getC s a).im (getC s a).im)),
        0#64⟩ ∧
    OnlyRegister (.cmag d a) d s t) ∧
  (∀ (d a : BitVec 3) (s : State), s.log2n.toNat ≤ 9 → ∃ t, exec (.cscln d a) s = .next t ∧
    getC t d =
      ⟨fdiv (getC s a).re (dbl (2 ^ s.log2n.toNat)),
        fdiv (getC s a).im (dbl (2 ^ s.log2n.toNat))⟩ ∧
    OnlyRegister (.cscln d a) d s t)

/-- BFLY and BFLYW: the sum to C[A], then the difference to C[B], from operands and twiddle all read
first; with A = B the difference wins. No other part of the state changes (R240, R241). Where R240's
corner case for A = B, K = 0 differs from its pseudocode in the sign of a zero, this states the
pseudocode: the model's choice (log entry 24). -/
def Obligations.ButterflyCommands : Prop :=
  (∀ (a b : BitVec 3) (k : BitVec 8) (s : State), ∃ t, exec (.bfly a b k) s = .next t ∧
    getC t b = csub (getC s a) (cmul (tw k.toNat) (getC s b)) ∧
    (a ≠ b → getC t a = cadd (getC s a) (cmul (tw k.toNat) (getC s b))) ∧
    (∀ e, e ≠ a → e ≠ b → getC t e = getC s e) ∧
    t = { s with creg := t.creg, pending := some (.bfly a b k) }) ∧
  (∀ (a b w : BitVec 3) (s : State), ∃ t, exec (.bflyw a b w) s = .next t ∧
    getC t b = csub (getC s a) (cmul (getC s w) (getC s b)) ∧
    (a ≠ b → getC t a = cadd (getC s a) (cmul (getC s w) (getC s b))) ∧
    (∀ e, e ≠ a → e ≠ b → getC t e = getC s e) ∧
    t = { s with creg := t.creg, pending := some (.bflyw a b w) })

/-- CLD and CST move one element bit for bit and change nothing else (R270, R271). -/
def Obligations.ElementMoves : Prop :=
  ∀ (r : BitVec 3) (z : BitVec 1) (row col : BitVec 9) (s : State), s.log2n.toNat ≤ 9 →
    row.toNat < activeN s → col.toNat < activeN s →
    (∃ t, exec (.cld r z row col) s = .next t ∧
      getC t r = getZ s z row.toNat col.toNat ∧ (∀ e, e ≠ r → getC t e = getC s e) ∧
      t = { s with
        creg := t.creg, draws := s.draws + 1, pending := some (.cld r z row col) }) ∧
    (∃ t, exec (.cst r z row col) s = .next t ∧
      HoldsZ t z row.toNat col.toNat (getC s r) ∧
      KeepsMemory s t (ByteOfZ z row.toNat col.toNat) ∧
      t = { s with mem := t.mem, pending := some (.cst r z row col) })

/-! ### Bank commands -/

/-- LIFT: every element of the region becomes the exact value of its sample, imaginary half +0
(R290). -/
def Obligations.LiftCommand : Prop :=
  ∀ (zd : BitVec 1) (ss : BitVec 2) (s : State), s.log2n.toNat ≤ 9 →
    ∃ t, exec (.lift zd ss) s = .next t ∧
      (∀ i j, i < activeN s → j < activeN s →
        HoldsZ t zd i j ⟨dbl (getS s ss i j).toNat, 0#64⟩) ∧
      OnlyStores (.lift zd ss) s t (RegionZ s zd)

/-- FFTROW and IFFTROW replace columns 0..N-1 of the named row by its transform and change no other
byte; FFTROW at N = 1 changes none (R255, R256). -/
def Obligations.RowTransformCommands : Prop :=
  ∀ (zd : BitVec 1) (row : BitVec 9) (s : State), s.log2n.toNat ≤ 9 → row.toNat < activeN s →
    (1 < activeN s → ∃ t, exec (.fftrow zd row) s = .next t ∧
      (∀ j, j < activeN s →
        HoldsZ t zd row.toNat j
          ((fft1d s.log2n.toNat (getRow s zd row.toNat)).getD j czero)) ∧
      OnlyStores (.fftrow zd row) s t
        (fun x => ∃ j, j < activeN s ∧ ByteOfZ zd row.toNat j x)) ∧
    (activeN s = 1 → exec (.fftrow zd row) s = .next { s with pending := some (.fftrow zd row) }) ∧
    (∃ t, exec (.ifftrow zd row) s = .next t ∧
      (∀ j, j < activeN s →
        HoldsZ t zd row.toNat j
          ((ifft1d s.log2n.toNat (getRow s zd row.toNat)).getD j czero)) ∧
      OnlyStores (.ifftrow zd row) s t
        (fun x => ∃ j, j < activeN s ∧ ByteOfZ zd row.toNat j x))

/-- FFTROWS and IFFTROWS replace every row of the region by its transform and change no byte outside
the region; FFTROWS at N = 1 changes none (R257, R258). -/
def Obligations.AllRowsTransformCommands : Prop :=
  ∀ (zd : BitVec 1) (s : State), s.log2n.toNat ≤ 9 →
    (1 < activeN s → ∃ t, exec (.fftrows zd) s = .next t ∧
      (∀ i j, i < activeN s → j < activeN s →
        HoldsZ t zd i j ((fft1d s.log2n.toNat (getRow s zd i)).getD j czero)) ∧
      OnlyStores (.fftrows zd) s t (RegionZ s zd)) ∧
    (activeN s = 1 → exec (.fftrows zd) s = .next { s with pending := some (.fftrows zd) }) ∧
    (∃ t, exec (.ifftrows zd) s = .next t ∧
      (∀ i j, i < activeN s → j < activeN s →
        HoldsZ t zd i j ((ifft1d s.log2n.toNat (getRow s zd i)).getD j czero)) ∧
      OnlyStores (.ifftrows zd) s t (RegionZ s zd))

/-- TRANS exchanges (i, j) and (j, i) bit for bit, off the diagonal, and touches no other byte
(R291). -/
def Obligations.TransposeCommand : Prop :=
  ∀ (zd : BitVec 1) (s : State), s.log2n.toNat ≤ 9 →
    ∃ t, exec (.trans zd) s = .next t ∧
      (∀ i j, i < activeN s → j < activeN s → i ≠ j → HoldsZ t zd i j (getZ s zd j i)) ∧
      OnlyStores (.trans zd) s t
        (fun x => ∃ i j, i < activeN s ∧ j < activeN s ∧ i ≠ j ∧ ByteOfZ zd i j x)

/-- ZCOPY copies the region bit for bit and changes no other byte; with ZD = ZS it changes none
(R292). -/
def Obligations.CopyRegionCommand : Prop :=
  ∀ (zd zs : BitVec 1) (s : State), s.log2n.toNat ≤ 9 →
    (zd ≠ zs → ∃ t, exec (.zcopy zd zs) s = .next t ∧
      (∀ i j, i < activeN s → j < activeN s → HoldsZ t zd i j (getZ s zs i j)) ∧
      OnlyStores (.zcopy zd zs) s t (RegionZ s zd)) ∧
    (zd = zs → exec (.zcopy zd zs) s = .next { s with pending := some (.zcopy zd zs) })

/-- REALCLAMP: every sample of the region is the rounded, clamped real half, IMAGMAX is the largest
imaginary magnitude, and nothing else changes (R297). -/
def Obligations.RealClampCommand : Prop :=
  ∀ (sd : BitVec 2) (zs : BitVec 1) (s : State), s.log2n.toNat ≤ 9 →
    ∃ t, exec (.realclamp sd zs) s = .next t ∧
      (∀ i j, i < activeN s → j < activeN s → HoldsS t sd i j (sat8 (getZ s zs i j).re)) ∧
      IsLargestImag t.imagmax (activeN s) (fun i j => (getZ s zs i j).im) ∧
      KeepsMemory s t (RegionS s sd) ∧
      t = { s with
        mem := t.mem, imagmax := t.imagmax, draws := s.draws + 1
        pending := some (.realclamp sd zs) }

/-- FFT2D: the region of ZD becomes F2D of the lifted samples, and no other byte changes (R298). -/
def Obligations.ForwardTransformCommand : Prop :=
  ∀ (zd : BitVec 1) (ss : BitVec 2) (s : State), s.log2n.toNat ≤ 9 →
    ∃ t, exec (.fft2d zd ss) s = .next t ∧
      (∀ i j, i < activeN s → j < activeN s →
        HoldsZ t zd i j (entry (f2d s.log2n.toNat (liftedRegion s ss)) i j)) ∧
      OnlyStores (.fft2d zd ss) s t (RegionZ s zd)

/-- IFFT2D: the region of ZD becomes I2D of the region of ZS, the samples and IMAGMAX are those of
REALCLAMP on it, and nothing else changes; a ZS other than ZD keeps every byte (R299). -/
def Obligations.InverseTransformCommand : Prop :=
  ∀ (sd : BitVec 2) (zd zs : BitVec 1) (s : State), s.log2n.toNat ≤ 9 →
    ∃ t, exec (.ifft2d sd zd zs) s = .next t ∧
      (∀ i j, i < activeN s → j < activeN s →
        HoldsZ t zd i j (entry (i2d s.log2n.toNat (getRegion s zs)) i j) ∧
        HoldsS t sd i j (sat8 (entry (i2d s.log2n.toNat (getRegion s zs)) i j).re)) ∧
      IsLargestImag t.imagmax (activeN s)
        (fun i j => (entry (i2d s.log2n.toNat (getRegion s zs)) i j).im) ∧
      KeepsMemory s t (fun x => RegionZ s zd x ∨ RegionS s sd x) ∧
      t = { s with
        mem := t.mem, imagmax := t.imagmax, draws := s.draws + 1
        pending := some (.ifft2d sd zd zs) }

/-- FILTER, all three families and both passes, each in its rule's operation order; no other byte
changes (R352 to R355). -/
def Obligations.FilterCommand : Prop :=
  ∀ (zd zs : BitVec 1) (s : State), s.log2n.toNat ≤ 9 → s.family ≠ 3#2 →
    PositiveFinite s.cutoff →
    ∃ t, exec (.filter zd zs) s = .next t ∧
      (∀ i j, i < activeN s → j < activeN s →
        ∀ (d2 : Nat) (d c : F64) (x : Cplx), d2 = distSq (activeN s) i j →
        d = fsqrt (dbl d2) → c = s.cutoff → x = getZ s zs i j →
        (s.family = 0#2 →
          HoldsZ t zd i j (if fle d c = decide (s.pass = 0#1) then x else ⟨0#64, 0#64⟩)) ∧
        (s.family = 1#2 → ∀ q g f : F64,
          q = (if d2 = 0 then 0#64 else fdiv (dbl d2) (fmul ftwo (fmul c c))) →
          g = cfgExp (fneg q) → f = (if s.pass = 0#1 then g else fsub fone g) →
          HoldsZ t zd i j ⟨fmul f x.re, fmul f x.im⟩) ∧
        (s.family = 2#2 → ∀ r r2 r4 den f : F64,
          r = fdiv d c → r2 = fmul r r → r4 = fmul r2 r2 → den = fadd fone r4 →
          f = (if s.pass = 0#1 then fdiv fone den else if r4 = finf then fone else fdiv r4 den) →
          HoldsZ t zd i j ⟨fmul f x.re, fmul f x.im⟩)) ∧
      OnlyStores (.filter zd zs) s t (RegionZ s zd)

/-- LOGMAG: the sample at the shifted place is the clamped quotient of log(1 + |x|) by LOGDIV, and
no other byte changes (R331). -/
def Obligations.LogMagnitudeCommand : Prop :=
  ∀ (sd : BitVec 2) (zs : BitVec 1) (s : State), s.log2n.toNat ≤ 9 → PositiveFinite s.logdiv →
    ∃ t, exec (.logmag sd zs) s = .next t ∧
      (∀ i j, i < activeN s → j < activeN s →
        HoldsS t sd ((activeN s / 2 + i) % activeN s) ((activeN s / 2 + j) % activeN s)
          (sat8 (fdiv (cfgLn (fadd fone (mag (getZ s zs i j)))) s.logdiv))) ∧
      OnlyStores (.logmag sd zs) s t (RegionS s sd)

/-! ### The transforms and the filter bank -/

/-- FFT1D's recursion, index by index: the base case returns its input, and at m = 2^(l+1) the two
halves of the output are the sums and differences of the half-size transforms with the ROM twiddle
of stride 512/m (R250); and IFFT1D is the transform of the conjugates, conjugated, with both halves
divided by m (R251). -/
def Obligations.FftRecursion : Prop :=
  (∀ x : Cplx, fft1d 0 [x] = [x]) ∧
  (∀ (l : Nat) (x e o : List Cplx), l + 1 ≤ 9 → x.length = 2 ^ (l + 1) →
    e = fft1d l ((List.range (2 ^ l)).map fun k => x.getD (2 * k) czero) →
    o = fft1d l ((List.range (2 ^ l)).map fun k => x.getD (2 * k + 1) czero) →
    (fft1d (l + 1) x).length = 2 ^ (l + 1) ∧
    ∀ k, k < 2 ^ l → ∀ t, t = cmul (tw (k * (512 / 2 ^ (l + 1)))) (o.getD k czero) →
      (fft1d (l + 1) x).getD k czero = cadd (e.getD k czero) t ∧
      (fft1d (l + 1) x).getD (k + 2 ^ l) czero = csub (e.getD k czero) t) ∧
  ∀ (l : Nat) (x y : List Cplx), l ≤ 9 → x.length = 2 ^ l →
    y = fft1d l ((List.range (2 ^ l)).map fun k =>
      ⟨(x.getD k czero).re, fneg (x.getD k czero).im⟩) →
    (ifft1d l x).length = 2 ^ l ∧
    ∀ k, k < 2 ^ l →
      (ifft1d l x).getD k czero =
        ⟨fdiv (y.getD k czero).re (dbl (2 ^ l)), fdiv (fneg (y.getD k czero).im) (dbl (2 ^ l))⟩

/-- The base case of both transforms: FFT1D returns its input; IFFT1D returns a non-NaN half
unchanged and a NaN half as the canonical NaN (R253). -/
def Obligations.TransformBaseCase : Prop :=
  ∀ x : Cplx, fft1d 0 [x] = [x] ∧
    ifft1d 0 [x] = [⟨if isNaN x.re then qnan else x.re, if isNaN x.im then qnan else x.im⟩]

/-- The 2D transforms are a pass over the rows and a pass over the columns of its result; the two
transpositions leave no trace (R293 to R295). -/
def Obligations.RowsThenColumns : Prop :=
  ∀ (l : Nat) (m : List (List Cplx)), m.length = 2 ^ l → (∀ r ∈ m, r.length = 2 ^ l) →
    ∀ u v, u < 2 ^ l → v < 2 ^ l →
      entry (f2d l m) u v =
        (fft1d l ((List.range (2 ^ l)).map fun i => (fft1d l (m.getD i [])).getD v czero)).getD u
          czero ∧
      entry (i2d l m) u v =
        (ifft1d l ((List.range (2 ^ l)).map fun i => (ifft1d l (m.getD i [])).getD v czero)).getD u
          czero

/-- FFT2D leaves exactly what LIFT, FFTROWS, TRANS, FFTROWS, TRANS leave (R298). On unwritten samples
the equality also rests on the model's numbering of the draws: both sides read them in the reading
event of the same number (log entries 4 and 22). -/
def Obligations.ForwardIsItsSteps : Prop :=
  ∀ (zd : BitVec 1) (ss : BitVec 2) (s : State), s.log2n.toNat ≤ 9 →
    ∃ t u, exec (.fft2d zd ss) s = .next t ∧
      runAll [.lift zd ss, .fftrows zd, .trans zd, .fftrows zd, .trans zd] s = some u ∧
      (∀ x, memFind t.mem x = memFind u.mem x) ∧
      u = { t with mem := u.mem, draws := u.draws, pending := u.pending }

/-- IFFT2D leaves exactly what ZCOPY, IFFTROWS, TRANS, IFFTROWS, TRANS, REALCLAMP leave, IMAGMAX
included (R299). On unwritten elements the equality also rests on the model's numbering of the
draws: both sides read them in the reading event of the same number (log entries 4 and 22). -/
def Obligations.InverseIsItsSteps : Prop :=
  ∀ (sd : BitVec 2) (zd zs : BitVec 1) (s : State), s.log2n.toNat ≤ 9 →
    ∃ t u, exec (.ifft2d sd zd zs) s = .next t ∧
      runAll [.zcopy zd zs, .ifftrows zd, .trans zd, .ifftrows zd, .trans zd, .realclamp sd zd] s
        = some u ∧
      (∀ x, memFind t.mem x = memFind u.mem x) ∧
      u = { t with mem := u.mem, draws := u.draws, pending := u.pending }

/-- After FFT2D the DC element's real half is the exact sum of the samples, and its imaginary half
is +0 (R300). -/
def Obligations.DcIsTheSampleSum : Prop :=
  ∀ (zd : BitVec 1) (ss : BitVec 2) (s : State), s.log2n.toNat ≤ 9 →
    ∃ t, exec (.fft2d zd ss) s = .next t ∧
      ∃ dc : F64, HoldsZ t zd 0 0 ⟨dc, 0#64⟩ ∧ isFinite dc = true ∧
        signedUnits dc
          = (((coords (activeN s)).map fun c => (getS s ss c.1 c.2).toNat).sum * 2 ^ 1074 : Nat)

/-- FFT2D of a uniform grid: the DC element is N·N times the sample, every other element is exactly
(+0, +0) (from R250, R293 and R298); at N = 512 and 128 the DC element is 0x4180_0000_0000_0000
(R304). -/
def Obligations.UniformGridSpectrum : Prop :=
  (∀ (zd : BitVec 1) (ss : BitVec 2) (s : State) (c : Byte), s.log2n.toNat ≤ 9 →
    (∀ i j, i < activeN s → j < activeN s → getS s ss i j = c) →
    ∃ t, exec (.fft2d zd ss) s = .next t ∧
      HoldsZ t zd 0 0 ⟨dbl (c.toNat * activeN s * activeN s), 0#64⟩ ∧
      ∀ i j, i < activeN s → j < activeN s → (i, j) ≠ (0, 0) → HoldsZ t zd i j ⟨0#64, 0#64⟩) ∧
  dbl (128 * 512 * 512) = 0x4180000000000000#64

/-- N = 1: FFT2D lifts its one sample, and IFFT2D of the result gives the sample back (R303). -/
def Obligations.SingleSampleRoundTrip : Prop :=
  ∀ s : State, s.log2n = 0#4 →
    ∃ t u, exec (.fft2d 0#1 0#2) s = .next t ∧
      HoldsZ t 0#1 0 0 ⟨dbl (getS s 0#2 0 0).toNat, 0#64⟩ ∧
      exec (.ifft2d 1#2 1#1 0#1) t = .next u ∧ HoldsS u 1#2 0 0 (getS s 0#2 0 0)

/-- The shift map is a bijection of 0..N-1, its own inverse from N = 2 on, sends DC to (H, H), and
is the identity at N = 1 (R330). -/
def Obligations.ShiftMap : Prop :=
  ∀ l, ∀ n, n = 2 ^ l →
    (∀ i, shiftIndex n i = (n / 2 + i) % n) ∧
    (∀ i, i < n → shiftIndex n i < n) ∧
    (∀ j, j < n → ∃ i, i < n ∧ shiftIndex n i = j ∧ ∀ i', i' < n → shiftIndex n i' = j → i' = i) ∧
    (2 ≤ n → (∀ i, i < n → shiftIndex n (shiftIndex n i) = i) ∧ shiftIndex n 0 = n / 2) ∧
    (n = 1 → shiftIndex n 0 = 0)

/-- The centered squared distance: the sum of squares of the two signed frequencies, at most 131072,
0 exactly at the DC coordinate, and the same at the mirrored coordinate (R350, R362). -/
def Obligations.CenteredDistance : Prop :=
  ∀ l, l ≤ 9 → ∀ n i j, n = 2 ^ l → i < n → j < n →
    (distSq n i j : Int) = frequency n i * frequency n i + frequency n j * frequency n j ∧
    distSq n i j ≤ 131072 ∧
    (distSq n i j = 0 ↔ i = 0 ∧ j = 0) ∧
    distSq n ((n - i) % n) ((n - j) % n) = distSq n i j

/-- At the DC coordinate every low-pass factor is exactly 1, every high-pass factor exactly +0, the
Ideal low-pass passes and the Ideal high-pass blocks; a factor 1 keeps a non-NaN element (R356). -/
def Obligations.DcFactors : Prop :=
  ∀ c : F64, PositiveFinite c →
    idealPass false c 0 = true ∧ idealPass true c 0 = false ∧
    gaussianFactor cfgExp false c 0 = fone ∧ gaussianFactor cfgExp true c 0 = fzero ∧
    butterworthFactor false c 0 = fone ∧ butterworthFactor true c 0 = fzero ∧
    ∀ x : Cplx, isNaN x.re = false → isNaN x.im = false → rscale fone x = x

/-- Every Gaussian and Butterworth factor of an accepted cutoff lies in 0..1: it is no NaN and no
infinity (R353, R354, R359). -/
def Obligations.FactorsLieBetweenZeroAndOne : Prop :=
  ∀ (hp : Bool) (c : F64) (d2 : Nat), PositiveFinite c → d2 ≤ 131072 →
    fle fzero (gaussianFactor cfgExp hp c d2) = true ∧
    fle (gaussianFactor cfgExp hp c d2) fone = true ∧
    fle fzero (butterworthFactor hp c d2) = true ∧
    fle (butterworthFactor hp c d2) fone = true

/-- A second Ideal FILTER with the same cutoff and pass changes no element of the bank, bit for bit,
whatever the input (R357). -/
def Obligations.IdealFilterIsIdempotent : Prop :=
  ∀ (zd zs ze : BitVec 1) (s : State), s.log2n.toNat ≤ 9 → s.family = 0#2 →
    PositiveFinite s.cutoff →
    ∃ t u, exec (.filter zd zs) s = .next t ∧ exec (.filter ze zd) t = .next u ∧
      ∀ i j, i < activeN s → j < activeN s → ∀ v, HoldsZ t zd i j v → HoldsZ u ze i j v

/-! ### Numerics -/

/-- A product, a quotient, a sum and a difference of finite operands is its exact value rounded once,
with the sign of the exact value; a zero sum or difference has the sign R203 gives it (R201, R202,
R203). -/
def Obligations.OperationsRoundOnce : Prop :=
  ∀ a b : F64, isFinite a = true → isFinite b = true →
    (RoundsTo (units a * units b) (2 ^ 1074) (fabs (fmul a b)) ∧
      fsign (fmul a b) = (fsign a != fsign b)) ∧
    (isZero b = false →
      RoundsTo (units a * 2 ^ 1074) (units b) (fabs (fdiv a b)) ∧
        fsign (fdiv a b) = (fsign a != fsign b)) ∧
    (RoundsTo (signedUnits a + signedUnits b).natAbs 1 (fabs (fadd a b)) ∧
      (signedUnits a + signedUnits b ≠ 0 →
        fsign (fadd a b) = decide (signedUnits a + signedUnits b < 0)) ∧
      (signedUnits a + signedUnits b = 0 → fsign (fadd a b) = (fsign a && fsign b))) ∧
    (RoundsTo (signedUnits a - signedUnits b).natAbs 1 (fabs (fsub a b)) ∧
      (signedUnits a - signedUnits b ≠ 0 →
        fsign (fsub a b) = decide (signedUnits a - signedUnits b < 0)) ∧
      (signedUnits a - signedUnits b = 0 → fsign (fsub a b) = (fsign a && !fsign b)))

/-- The square root of a positive finite value is nearest: no finite value lies closer, told by
where the mid-points to its neighbours lie (R201). -/
def Obligations.SquareRootIsNearest : Prop :=
  ∀ a : F64, isFinite a = true → isZero a = false → fsign a = false →
    isFinite (fsqrt a) = true ∧ fsign (fsqrt a) = false ∧
    ∀ z : F64, isFinite z = true →
      (units z < units (fsqrt a) →
        (units z + units (fsqrt a)) ^ 2 ≤ 4 * (units a * 2 ^ 1074)) ∧
      (units (fsqrt a) < units z →
        4 * (units a * 2 ^ 1074) ≤ (units (fsqrt a) + units z) ^ 2)

/-- A NaN operand gives the canonical NaN, and so does every NaN result of the five operations, EXP
and LN; the sign flip and the sign clear keep a payload (R204). -/
def Obligations.NansAreCanonical : Prop :=
  (∀ a b : F64, isNaN a = true ∨ isNaN b = true →
    fadd a b = qnan ∧ fsub a b = qnan ∧ fmul a b = qnan ∧ fdiv a b = qnan) ∧
  (∀ a b : F64, (isNaN (fadd a b) = true → fadd a b = qnan) ∧
    (isNaN (fsub a b) = true → fsub a b = qnan) ∧ (isNaN (fmul a b) = true → fmul a b = qnan) ∧
    (isNaN (fdiv a b) = true → fdiv a b = qnan)) ∧
  (∀ a : F64, (isNaN a = true → fsqrt a = qnan ∧ cfgExp a = qnan ∧ cfgLn a = qnan) ∧
    (isNaN (fsqrt a) = true → fsqrt a = qnan) ∧ (isNaN (cfgExp a) = true → cfgExp a = qnan) ∧
    (isNaN (cfgLn a) = true → cfgLn a = qnan)) ∧
  (∀ (a : F64) (k : Nat), k < 63 →
    (fneg a).getLsbD k = a.getLsbD k ∧ (fabs a).getLsbD k = a.getLsbD k) ∧
  ∀ a : F64, (fneg a).getLsbD 63 = !a.getLsbD 63 ∧ (fabs a).getLsbD 63 = false

/-- The special cases R203 lists of the five operations, but for overflow; and of EXP and LN the
values R208 and R209 fix, their bounds, and that both are monotone (LN wherever neither result is a
NaN, log entry 3). -/
def Obligations.SpecialCases : Prop :=
  (∀ x y : F64, isFinite x = true → isZero x = false → isZero y = true →
    fdiv x y = packSign (fsign x != fsign y) infPattern) ∧
  (∀ x y : F64, isZero x = true → isZero y = true → fdiv x y = qnan) ∧
  (∀ x y : F64, isInf x = true → isInf y = true → fdiv x y = qnan ∧
    (fsign x ≠ fsign y → fadd x y = qnan) ∧ (fsign x = fsign y → fsub x y = qnan)) ∧
  (∀ x y : F64, isZero x = true → isInf y = true → fmul x y = qnan ∧ fmul y x = qnan) ∧
  (∀ x : F64, fsign x = true → isZero x = false → fsqrt x = qnan) ∧
  fsqrt 0x8000000000000000#64 = 0x8000000000000000#64 ∧
  (∀ x y : F64, isFinite x = true → isFinite y = true →
    (signedUnits x + signedUnits y = 0 → fsign x ≠ fsign y → fadd x y = fzero) ∧
    (signedUnits x = signedUnits y → fsign x = fsign y → fsub x y = fzero)) ∧
  fadd 0x8000000000000000#64 0x8000000000000000#64 = 0x8000000000000000#64 ∧
  fsub 0x8000000000000000#64 0#64 = 0x8000000000000000#64 ∧
  (∀ x y : F64, isZero x = true → isFinite y = true →
    fmul x y = packSign (fsign x != fsign y) 0 ∧
    (isZero y = false → fdiv x y = packSign (fsign x != fsign y) 0)) ∧
  ((∀ x : F64, isZero x = true → cfgExp x = 0x3FF0000000000000#64) ∧
    cfgExp 0xFFF0000000000000#64 = 0#64 ∧
    (∀ x : F64, fle x fzero = true →
      fle fzero (cfgExp x) = true ∧ fle (cfgExp x) 0x3FF0000000000000#64 = true) ∧
    ∀ x y : F64, fle x y = true → fle y fzero = true → fle (cfgExp x) (cfgExp y) = true) ∧
  (cfgLn 0x3FF0000000000000#64 = 0#64 ∧
    cfgLn 0x7FF0000000000000#64 = 0x7FF0000000000000#64 ∧
    (∀ x : F64, fle 0x3FF0000000000000#64 x = true → fle fzero (cfgLn x) = true) ∧
    ∀ x y : F64, fle x y = true → isNaN (cfgLn x) = false → isNaN (cfgLn y) = false →
      fle (cfgLn x) (cfgLn y) = true)

/-- The conversion of a natural number below 2^53 is exact, and 0 converts to +0 (R207). The three
comparisons are false with a NaN operand and else those of the values, the zeros equal and the
infinities at the ends; only the pattern of +∞ equals +∞ (R206). -/
def Obligations.ConversionsAndComparisons : Prop :=
  dbl 0 = 0#64 ∧
  (∀ n : Nat, n < 2 ^ 53 →
    isFinite (dbl n) = true ∧ signedUnits (dbl n) = ((n * 2 ^ 1074 : Nat) : Int)) ∧
  (∀ a b : F64, isNaN a = true ∨ isNaN b = true →
    fle a b = false ∧ fgt a b = false ∧ feq a b = false) ∧
  (∀ a b : F64, isFinite a = true → isFinite b = true →
    (fle a b = true ↔ signedUnits a ≤ signedUnits b) ∧
    (fgt a b = true ↔ signedUnits b < signedUnits a) ∧
    (feq a b = true ↔ signedUnits a = signedUnits b)) ∧
  (∀ a b : F64, isNaN a = false → isNaN b = false →
    fgt a b = !fle a b ∧ feq a b = (fle a b && fle b a)) ∧
  ∀ a : F64, isNaN a = false →
    fle a finf = true ∧ fle fninf a = true ∧ (fle finf a = true ↔ a = 0x7FF0000000000000#64) ∧
    (fle a fninf = true ↔ a = 0xFFF0000000000000#64)

/-- SAT8: NaN and −∞ give 0, +∞ gives 255, and a finite value gives its nearest integer, ties to
the even integer, clamped to 0..255 (R296). -/
def Obligations.SaturationToByte : Prop :=
  ∀ x : F64,
    (isNaN x = true → sat8 x = 0#8) ∧
    (x = 0x7FF0000000000000#64 → sat8 x = 255#8) ∧
    (x = 0xFFF0000000000000#64 → sat8 x = 0#8) ∧
    (isFinite x = true → ∃ r : Int,
      (∀ q : Int, (r * 2 ^ 1074 - signedUnits x).natAbs ≤ (q * 2 ^ 1074 - signedUnits x).natAbs ∧
        ((r * 2 ^ 1074 - signedUnits x).natAbs = (q * 2 ^ 1074 - signedUnits x).natAbs →
          q = r ∨ r % 2 = 0)) ∧
      ((sat8 x).toNat : Int) = max 0 (min 255 r))
end

