-- ==== Sys2Proof/Laws/State.lean ====
section
/-! SUPPORT. What each shared update of the state does to each field: true by `rfl`, so that no
proof unfolds a record update. -/

namespace Sys2Proof.Machine

variable (s : State)

@[simp] theorem setC_log2n (i : BitVec 3) (v : Cplx) : (setC i v s).log2n = s.log2n := rfl
@[simp] theorem setC_family (i : BitVec 3) (v : Cplx) : (setC i v s).family = s.family := rfl
@[simp] theorem setC_pass (i : BitVec 3) (v : Cplx) : (setC i v s).pass = s.pass := rfl
@[simp] theorem setC_cutoff (i : BitVec 3) (v : Cplx) : (setC i v s).cutoff = s.cutoff := rfl
@[simp] theorem setC_logdiv (i : BitVec 3) (v : Cplx) : (setC i v s).logdiv = s.logdiv := rfl
@[simp] theorem setC_done (i : BitVec 3) (v : Cplx) : (setC i v s).done = s.done := rfl
@[simp] theorem setC_err (i : BitVec 3) (v : Cplx) : (setC i v s).err = s.err := rfl
@[simp] theorem setC_eovf (i : BitVec 3) (v : Cplx) : (setC i v s).eovf = s.eovf := rfl
@[simp] theorem setC_errcode (i : BitVec 3) (v : Cplx) : (setC i v s).errcode = s.errcode := rfl
@[simp] theorem setC_errcmd (i : BitVec 3) (v : Cplx) : (setC i v s).errcmd = s.errcmd := rfl
@[simp] theorem setC_doneie (i : BitVec 3) (v : Cplx) : (setC i v s).doneie = s.doneie := rfl
@[simp] theorem setC_errie (i : BitVec 3) (v : Cplx) : (setC i v s).errie = s.errie := rfl
@[simp] theorem setC_imagmax (i : BitVec 3) (v : Cplx) : (setC i v s).imagmax = s.imagmax := rfl
@[simp] theorem setC_creg (i : BitVec 3) (v : Cplx) :
    (setC i v s).creg = s.creg.set i.toNat v (by omega) := rfl
@[simp] theorem setC_mem (i : BitVec 3) (v : Cplx) : (setC i v s).mem = s.mem := rfl
@[simp] theorem setC_pending (i : BitVec 3) (v : Cplx) : (setC i v s).pending = s.pending := rfl
@[simp] theorem setC_events (i : BitVec 3) (v : Cplx) : (setC i v s).events = s.events := rfl
@[simp] theorem setC_resp (i : BitVec 3) (v : Cplx) : (setC i v s).resp = s.resp := rfl
@[simp] theorem setC_draws (i : BitVec 3) (v : Cplx) : (setC i v s).draws = s.draws := rfl

@[simp] theorem storeZ_log2n (z : BitVec 1) (val : Nat → Nat → Cplx) (cs : List (Nat × Nat)) :
    (storeZ z val cs s).log2n = s.log2n := rfl
@[simp] theorem storeZ_family (z : BitVec 1) (val : Nat → Nat → Cplx) (cs : List (Nat × Nat)) :
    (storeZ z val cs s).family = s.family := rfl
@[simp] theorem storeZ_pass (z : BitVec 1) (val : Nat → Nat → Cplx) (cs : List (Nat × Nat)) :
    (storeZ z val cs s).pass = s.pass := rfl
@[simp] theorem storeZ_cutoff (z : BitVec 1) (val : Nat → Nat → Cplx) (cs : List (Nat × Nat)) :
    (storeZ z val cs s).cutoff = s.cutoff := rfl
@[simp] theorem storeZ_logdiv (z : BitVec 1) (val : Nat → Nat → Cplx) (cs : List (Nat × Nat)) :
    (storeZ z val cs s).logdiv = s.logdiv := rfl
@[simp] theorem storeZ_done (z : BitVec 1) (val : Nat → Nat → Cplx) (cs : List (Nat × Nat)) :
    (storeZ z val cs s).done = s.done := rfl
@[simp] theorem storeZ_err (z : BitVec 1) (val : Nat → Nat → Cplx) (cs : List (Nat × Nat)) :
    (storeZ z val cs s).err = s.err := rfl
@[simp] theorem storeZ_eovf (z : BitVec 1) (val : Nat → Nat → Cplx) (cs : List (Nat × Nat)) :
    (storeZ z val cs s).eovf = s.eovf := rfl
@[simp] theorem storeZ_errcode (z : BitVec 1) (val : Nat → Nat → Cplx) (cs : List (Nat × Nat)) :
    (storeZ z val cs s).errcode = s.errcode := rfl
@[simp] theorem storeZ_errcmd (z : BitVec 1) (val : Nat → Nat → Cplx) (cs : List (Nat × Nat)) :
    (storeZ z val cs s).errcmd = s.errcmd := rfl
@[simp] theorem storeZ_doneie (z : BitVec 1) (val : Nat → Nat → Cplx) (cs : List (Nat × Nat)) :
    (storeZ z val cs s).doneie = s.doneie := rfl
@[simp] theorem storeZ_errie (z : BitVec 1) (val : Nat → Nat → Cplx) (cs : List (Nat × Nat)) :
    (storeZ z val cs s).errie = s.errie := rfl
@[simp] theorem storeZ_imagmax (z : BitVec 1) (val : Nat → Nat → Cplx) (cs : List (Nat × Nat)) :
    (storeZ z val cs s).imagmax = s.imagmax := rfl
@[simp] theorem storeZ_creg (z : BitVec 1) (val : Nat → Nat → Cplx) (cs : List (Nat × Nat)) :
    (storeZ z val cs s).creg = s.creg := rfl
@[simp] theorem storeZ_mem (z : BitVec 1) (val : Nat → Nat → Cplx) (cs : List (Nat × Nat)) :
    (storeZ z val cs s).mem = writeGrid (cplxAddr z) (fun i j => cplxBytes (val i j)) cs s.mem := rfl
@[simp] theorem storeZ_pending (z : BitVec 1) (val : Nat → Nat → Cplx) (cs : List (Nat × Nat)) :
    (storeZ z val cs s).pending = s.pending := rfl
@[simp] theorem storeZ_events (z : BitVec 1) (val : Nat → Nat → Cplx) (cs : List (Nat × Nat)) :
    (storeZ z val cs s).events = s.events := rfl
@[simp] theorem storeZ_resp (z : BitVec 1) (val : Nat → Nat → Cplx) (cs : List (Nat × Nat)) :
    (storeZ z val cs s).resp = s.resp := rfl
@[simp] theorem storeZ_draws (z : BitVec 1) (val : Nat → Nat → Cplx) (cs : List (Nat × Nat)) :
    (storeZ z val cs s).draws = s.draws := rfl

@[simp] theorem storeS_log2n (b : BitVec 2) (place : Nat → Nat) (val : Nat → Nat → Byte) (cs : List (Nat × Nat)) :
    (storeS b place val cs s).log2n = s.log2n := rfl
@[simp] theorem storeS_family (b : BitVec 2) (place : Nat → Nat) (val : Nat → Nat → Byte) (cs : List (Nat × Nat)) :
    (storeS b place val cs s).family = s.family := rfl
@[simp] theorem storeS_pass (b : BitVec 2) (place : Nat → Nat) (val : Nat → Nat → Byte) (cs : List (Nat × Nat)) :
    (storeS b place val cs s).pass = s.pass := rfl
@[simp] theorem storeS_cutoff (b : BitVec 2) (place : Nat → Nat) (val : Nat → Nat → Byte) (cs : List (Nat × Nat)) :
    (storeS b place val cs s).cutoff = s.cutoff := rfl
@[simp] theorem storeS_logdiv (b : BitVec 2) (place : Nat → Nat) (val : Nat → Nat → Byte) (cs : List (Nat × Nat)) :
    (storeS b place val cs s).logdiv = s.logdiv := rfl
@[simp] theorem storeS_done (b : BitVec 2) (place : Nat → Nat) (val : Nat → Nat → Byte) (cs : List (Nat × Nat)) :
    (storeS b place val cs s).done = s.done := rfl
@[simp] theorem storeS_err (b : BitVec 2) (place : Nat → Nat) (val : Nat → Nat → Byte) (cs : List (Nat × Nat)) :
    (storeS b place val cs s).err = s.err := rfl
@[simp] theorem storeS_eovf (b : BitVec 2) (place : Nat → Nat) (val : Nat → Nat → Byte) (cs : List (Nat × Nat)) :
    (storeS b place val cs s).eovf = s.eovf := rfl
@[simp] theorem storeS_errcode (b : BitVec 2) (place : Nat → Nat) (val : Nat → Nat → Byte) (cs : List (Nat × Nat)) :
    (storeS b place val cs s).errcode = s.errcode := rfl
@[simp] theorem storeS_errcmd (b : BitVec 2) (place : Nat → Nat) (val : Nat → Nat → Byte) (cs : List (Nat × Nat)) :
    (storeS b place val cs s).errcmd = s.errcmd := rfl
@[simp] theorem storeS_doneie (b : BitVec 2) (place : Nat → Nat) (val : Nat → Nat → Byte) (cs : List (Nat × Nat)) :
    (storeS b place val cs s).doneie = s.doneie := rfl
@[simp] theorem storeS_errie (b : BitVec 2) (place : Nat → Nat) (val : Nat → Nat → Byte) (cs : List (Nat × Nat)) :
    (storeS b place val cs s).errie = s.errie := rfl
@[simp] theorem storeS_imagmax (b : BitVec 2) (place : Nat → Nat) (val : Nat → Nat → Byte) (cs : List (Nat × Nat)) :
    (storeS b place val cs s).imagmax = s.imagmax := rfl
@[simp] theorem storeS_creg (b : BitVec 2) (place : Nat → Nat) (val : Nat → Nat → Byte) (cs : List (Nat × Nat)) :
    (storeS b place val cs s).creg = s.creg := rfl
@[simp] theorem storeS_mem (b : BitVec 2) (place : Nat → Nat) (val : Nat → Nat → Byte) (cs : List (Nat × Nat)) :
    (storeS b place val cs s).mem = writeGrid (fun i j => sampleAddr b (place i) (place j)) (fun i j => [val i j]) cs s.mem := rfl
@[simp] theorem storeS_pending (b : BitVec 2) (place : Nat → Nat) (val : Nat → Nat → Byte) (cs : List (Nat × Nat)) :
    (storeS b place val cs s).pending = s.pending := rfl
@[simp] theorem storeS_events (b : BitVec 2) (place : Nat → Nat) (val : Nat → Nat → Byte) (cs : List (Nat × Nat)) :
    (storeS b place val cs s).events = s.events := rfl
@[simp] theorem storeS_resp (b : BitVec 2) (place : Nat → Nat) (val : Nat → Nat → Byte) (cs : List (Nat × Nat)) :
    (storeS b place val cs s).resp = s.resp := rfl
@[simp] theorem storeS_draws (b : BitVec 2) (place : Nat → Nat) (val : Nat → Nat → Byte) (cs : List (Nat × Nat)) :
    (storeS b place val cs s).draws = s.draws := rfl

@[simp] theorem endReading_log2n : (endReading s).log2n = s.log2n := rfl
@[simp] theorem endReading_family : (endReading s).family = s.family := rfl
@[simp] theorem endReading_pass : (endReading s).pass = s.pass := rfl
@[simp] theorem endReading_cutoff : (endReading s).cutoff = s.cutoff := rfl
@[simp] theorem endReading_logdiv : (endReading s).logdiv = s.logdiv := rfl
@[simp] theorem endReading_done : (endReading s).done = s.done := rfl
@[simp] theorem endReading_err : (endReading s).err = s.err := rfl
@[simp] theorem endReading_eovf : (endReading s).eovf = s.eovf := rfl
@[simp] theorem endReading_errcode : (endReading s).errcode = s.errcode := rfl
@[simp] theorem endReading_errcmd : (endReading s).errcmd = s.errcmd := rfl
@[simp] theorem endReading_doneie : (endReading s).doneie = s.doneie := rfl
@[simp] theorem endReading_errie : (endReading s).errie = s.errie := rfl
@[simp] theorem endReading_imagmax : (endReading s).imagmax = s.imagmax := rfl
@[simp] theorem endReading_creg : (endReading s).creg = s.creg := rfl
@[simp] theorem endReading_mem : (endReading s).mem = s.mem := rfl
@[simp] theorem endReading_pending : (endReading s).pending = s.pending := rfl
@[simp] theorem endReading_events : (endReading s).events = s.events := rfl
@[simp] theorem endReading_resp : (endReading s).resp = s.resp := rfl
@[simp] theorem endReading_draws : (endReading s).draws = s.draws + 1 := rfl

@[simp] theorem accept_log2n (i : Instr) : (accept i s).log2n = s.log2n := rfl
@[simp] theorem accept_family (i : Instr) : (accept i s).family = s.family := rfl
@[simp] theorem accept_pass (i : Instr) : (accept i s).pass = s.pass := rfl
@[simp] theorem accept_cutoff (i : Instr) : (accept i s).cutoff = s.cutoff := rfl
@[simp] theorem accept_logdiv (i : Instr) : (accept i s).logdiv = s.logdiv := rfl
@[simp] theorem accept_done (i : Instr) : (accept i s).done = s.done := rfl
@[simp] theorem accept_err (i : Instr) : (accept i s).err = s.err := rfl
@[simp] theorem accept_eovf (i : Instr) : (accept i s).eovf = s.eovf := rfl
@[simp] theorem accept_errcode (i : Instr) : (accept i s).errcode = s.errcode := rfl
@[simp] theorem accept_errcmd (i : Instr) : (accept i s).errcmd = s.errcmd := rfl
@[simp] theorem accept_doneie (i : Instr) : (accept i s).doneie = s.doneie := rfl
@[simp] theorem accept_errie (i : Instr) : (accept i s).errie = s.errie := rfl
@[simp] theorem accept_imagmax (i : Instr) : (accept i s).imagmax = s.imagmax := rfl
@[simp] theorem accept_creg (i : Instr) : (accept i s).creg = s.creg := rfl
@[simp] theorem accept_mem (i : Instr) : (accept i s).mem = s.mem := rfl
@[simp] theorem accept_pending (i : Instr) : (accept i s).pending = some i := rfl
@[simp] theorem accept_events (i : Instr) : (accept i s).events = s.events := rfl
@[simp] theorem accept_resp (i : Instr) : (accept i s).resp = s.resp := rfl
@[simp] theorem accept_draws (i : Instr) : (accept i s).draws = s.draws := rfl

@[simp] theorem complete_log2n : (complete s).log2n = s.log2n := rfl
@[simp] theorem complete_family : (complete s).family = s.family := rfl
@[simp] theorem complete_pass : (complete s).pass = s.pass := rfl
@[simp] theorem complete_cutoff : (complete s).cutoff = s.cutoff := rfl
@[simp] theorem complete_logdiv : (complete s).logdiv = s.logdiv := rfl
@[simp] theorem complete_done : (complete s).done = true := rfl
@[simp] theorem complete_err : (complete s).err = s.err := rfl
@[simp] theorem complete_eovf : (complete s).eovf = s.eovf := rfl
@[simp] theorem complete_errcode : (complete s).errcode = s.errcode := rfl
@[simp] theorem complete_errcmd : (complete s).errcmd = s.errcmd := rfl
@[simp] theorem complete_doneie : (complete s).doneie = s.doneie := rfl
@[simp] theorem complete_errie : (complete s).errie = s.errie := rfl
@[simp] theorem complete_imagmax : (complete s).imagmax = s.imagmax := rfl
@[simp] theorem complete_creg : (complete s).creg = s.creg := rfl
@[simp] theorem complete_mem : (complete s).mem = s.mem := rfl
@[simp] theorem complete_pending : (complete s).pending = none := rfl
@[simp] theorem complete_events : (complete s).events = s.events := rfl
@[simp] theorem complete_resp : (complete s).resp = s.resp := rfl
@[simp] theorem complete_draws : (complete s).draws = s.draws := rfl

@[simp] theorem answer_log2n (r : Response) : (answer r s).log2n = s.log2n := rfl
@[simp] theorem answer_family (r : Response) : (answer r s).family = s.family := rfl
@[simp] theorem answer_pass (r : Response) : (answer r s).pass = s.pass := rfl
@[simp] theorem answer_cutoff (r : Response) : (answer r s).cutoff = s.cutoff := rfl
@[simp] theorem answer_logdiv (r : Response) : (answer r s).logdiv = s.logdiv := rfl
@[simp] theorem answer_done (r : Response) : (answer r s).done = s.done := rfl
@[simp] theorem answer_err (r : Response) : (answer r s).err = s.err := rfl
@[simp] theorem answer_eovf (r : Response) : (answer r s).eovf = s.eovf := rfl
@[simp] theorem answer_errcode (r : Response) : (answer r s).errcode = s.errcode := rfl
@[simp] theorem answer_errcmd (r : Response) : (answer r s).errcmd = s.errcmd := rfl
@[simp] theorem answer_doneie (r : Response) : (answer r s).doneie = s.doneie := rfl
@[simp] theorem answer_errie (r : Response) : (answer r s).errie = s.errie := rfl
@[simp] theorem answer_imagmax (r : Response) : (answer r s).imagmax = s.imagmax := rfl
@[simp] theorem answer_creg (r : Response) : (answer r s).creg = s.creg := rfl
@[simp] theorem answer_mem (r : Response) : (answer r s).mem = s.mem := rfl
@[simp] theorem answer_pending (r : Response) : (answer r s).pending = s.pending := rfl
@[simp] theorem answer_events (r : Response) : (answer r s).events = s.events := rfl
@[simp] theorem answer_resp (r : Response) : (answer r s).resp = some r := rfl
@[simp] theorem answer_draws (r : Response) : (answer r s).draws = s.draws := rfl

@[simp] theorem writeOneToClear_log2n (v : BitVec 64) : (writeOneToClear v s).log2n = s.log2n := rfl
@[simp] theorem writeOneToClear_family (v : BitVec 64) :
    (writeOneToClear v s).family = s.family := rfl
@[simp] theorem writeOneToClear_pass (v : BitVec 64) : (writeOneToClear v s).pass = s.pass := rfl
@[simp] theorem writeOneToClear_cutoff (v : BitVec 64) :
    (writeOneToClear v s).cutoff = s.cutoff := rfl
@[simp] theorem writeOneToClear_logdiv (v : BitVec 64) :
    (writeOneToClear v s).logdiv = s.logdiv := rfl
@[simp] theorem writeOneToClear_done (v : BitVec 64) :
    (writeOneToClear v s).done = (s.done && !v.getLsbD 1) := rfl
@[simp] theorem writeOneToClear_err (v : BitVec 64) :
    (writeOneToClear v s).err = (s.err && !v.getLsbD 2) := rfl
@[simp] theorem writeOneToClear_eovf (v : BitVec 64) :
    (writeOneToClear v s).eovf = (s.eovf && !v.getLsbD 3) := rfl
@[simp] theorem writeOneToClear_errcode (v : BitVec 64) :
    (writeOneToClear v s).errcode = (if v.getLsbD 2 then codeNone else s.errcode) := rfl
@[simp] theorem writeOneToClear_errcmd (v : BitVec 64) :
    (writeOneToClear v s).errcmd = (if v.getLsbD 2 then 0#64 else s.errcmd) := rfl
@[simp] theorem writeOneToClear_doneie (v : BitVec 64) :
    (writeOneToClear v s).doneie = s.doneie := rfl
@[simp] theorem writeOneToClear_errie (v : BitVec 64) : (writeOneToClear v s).errie = s.errie := rfl
@[simp] theorem writeOneToClear_imagmax (v : BitVec 64) :
    (writeOneToClear v s).imagmax = s.imagmax := rfl
@[simp] theorem writeOneToClear_creg (v : BitVec 64) : (writeOneToClear v s).creg = s.creg := rfl
@[simp] theorem writeOneToClear_mem (v : BitVec 64) : (writeOneToClear v s).mem = s.mem := rfl
@[simp] theorem writeOneToClear_pending (v : BitVec 64) :
    (writeOneToClear v s).pending = s.pending := rfl
@[simp] theorem writeOneToClear_events (v : BitVec 64) :
    (writeOneToClear v s).events = s.events := rfl
@[simp] theorem writeOneToClear_resp (v : BitVec 64) : (writeOneToClear v s).resp = s.resp := rfl
@[simp] theorem writeOneToClear_draws (v : BitVec 64) : (writeOneToClear v s).draws = s.draws := rfl

end Sys2Proof.Machine
end

