-- ==== Sys2Proof/Laws/Memory.lean ====
section
/-! SUPPORT. What memory reads and writes do: read after write, what a write leaves alone, and the
canonical form. -/

namespace Sys2Proof.Machine

theorem wf_cons_iff (c : Host.Cell) (m : Memory) :
    Memory.wf (c :: m) = true ↔ (∀ c' ∈ m, c.1 < c'.1) ∧ Memory.wf m = true := by
  induction m generalizing c with
  | nil => simp [Memory.wf]
  | cons d rest ih =>
    simp only [Memory.wf, Bool.and_eq_true, decide_eq_true_eq]
    rw [ih d]
    constructor
    · rintro ⟨h, h1, h2⟩
      refine ⟨fun c' hc => ?_, h1, h2⟩
      rcases List.mem_cons.1 hc with rfl | hc
      · exact h
      · exact lt_trans h (h1 c' hc)
    · rintro ⟨h, h1, h2⟩
      exact ⟨h d (by simp), h1, h2⟩

/-- A read of another address sees through an insertion to `next`. -/
theorem memFind_insertThen_of_ne (next : Memory → Memory) (a : Nat) (b : Byte) (m : Memory)
    (x : Nat) (hx : a ≠ x) (hnext : ∀ m', memFind (next m') x = memFind m' x) :
    memFind (insertThen next a b m) x = memFind m x := by
  induction m with
  | nil => simp [insertThen, memFind, hnext, hx]
  | cons c rest ih =>
    unfold insertThen
    split_ifs with h1 h2
    · simp [memFind, ih]
    · have : c.1 ≠ x := by omega
      simp [memFind, hnext, hx, this]
    · simp [memFind, hnext, hx]

/-- Insertion at `a` reads as `b` there, whatever `next` does above. -/
theorem memFind_insertThen_self (next : Memory → Memory) (a : Nat) (b : Byte) (m : Memory) :
    memFind (insertThen next a b m) a = some b := by
  induction m with
  | nil => simp [insertThen, memFind]
  | cons c rest ih =>
    unfold insertThen
    split_ifs with h1 h2
    · have : c.1 ≠ a := by omega
      simp [memFind, ih, this]
    · simp [memFind]
    · simp [memFind]

/-- Read after write of a run of bytes: inside the run the written byte, outside it what stood
there. -/
theorem memFind_writeRun (a : Nat) (bs : List Byte) (m : Memory) (x : Nat) :
    memFind (writeRun a bs m) x = if a ≤ x then (bs[x - a]?).or (memFind m x) else memFind m x := by
  induction bs generalizing a m with
  | nil => simp [writeRun]
  | cons b bs ih =>
    unfold writeRun
    rcases lt_trichotomy x a with h | rfl | h
    · rw [memFind_insertThen_of_ne _ _ _ _ _ (by omega)
        (fun m' => by rw [ih]; simp [show ¬(a + 1 ≤ x) by omega])]
      simp [show ¬ a ≤ x by omega]
    · rw [memFind_insertThen_self]; simp
    · have hx : x - a = (x - (a + 1)) + 1 := by omega
      have key : ∀ m', memFind (insertThen (writeRun (a + 1) bs) a b m') x
          = (bs[x - (a + 1)]?).or (memFind m' x) := by
        intro m'
        induction m' with
        | nil => simp [insertThen, memFind, ih, show a ≠ x by omega, show a + 1 ≤ x by omega]
        | cons c rest ih2 =>
          unfold insertThen
          split_ifs with h1 h2
          · by_cases hc : c.1 = x
            · omega
            · simp [memFind, ih2, hc]
          · simp [memFind, ih, show a ≠ x by omega, show a + 1 ≤ x by omega,
              show c.1 ≠ x by omega]
          · simp [memFind, ih, show a ≠ x by omega, show a + 1 ≤ x by omega]
      rw [key]
      simp [show a ≤ x by omega, hx]

/-- A run of bytes leaves every address outside it alone. -/
theorem memFind_writeRun_of_outside (a : Nat) (bs : List Byte) (m : Memory) (x : Nat)
    (h : x < a ∨ a + bs.length ≤ x) : memFind (writeRun a bs m) x = memFind m x := by
  rw [memFind_writeRun]
  split_ifs with h1
  · rw [List.getElem?_eq_none (by omega)]; simp
  · rfl

/-- Inside a run the written byte is read back. -/
theorem memFind_writeRun_of_inside (a : Nat) (bs : List Byte) (m : Memory) (k : Nat)
    (h : k < bs.length) : memFind (writeRun a bs m) (a + k) = some bs[k] := by
  rw [memFind_writeRun]
  simp [h]

theorem insertThen_spec (next : Memory → Memory) (a : Nat) (b : Byte) (m : Memory)
    (hw : Memory.wf m = true)
    (hnext : ∀ m', Memory.wf m' = true → (∀ c ∈ m', a < c.1) →
      Memory.wf (next m') = true ∧ ∀ c ∈ next m', a < c.1) :
    Memory.wf (insertThen next a b m) = true ∧
      ∀ l, l < a → (∀ c ∈ m, l < c.1) → ∀ c ∈ insertThen next a b m, l < c.1 := by
  induction m with
  | nil =>
    obtain ⟨h1, h2⟩ := hnext [] rfl (by simp)
    simp only [insertThen]
    refine ⟨(wf_cons_iff _ _).2 ⟨h2, h1⟩, fun l hl _ c hc => ?_⟩
    rcases List.mem_cons.1 hc with rfl | hc
    · exact hl
    · exact lt_trans hl (h2 c hc)
  | cons d rest ih =>
    obtain ⟨hd, hr⟩ := (wf_cons_iff _ _).1 hw
    unfold insertThen
    split_ifs with h1 h2
    · obtain ⟨i1, i2⟩ := ih hr
      refine ⟨(wf_cons_iff _ _).2 ⟨i2 d.1 h1 hd, i1⟩, fun l hl hm c hc => ?_⟩
      rcases List.mem_cons.1 hc with rfl | hc
      · exact hm _ (by simp)
      · exact i2 l hl (fun c hc => hm c (by simp [hc])) c hc
    · obtain ⟨n1, n2⟩ := hnext rest hr (fun c hc => h2 ▸ hd c hc)
      refine ⟨(wf_cons_iff _ _).2 ⟨n2, n1⟩, fun l hl _ c hc => ?_⟩
      rcases List.mem_cons.1 hc with rfl | hc
      · exact hl
      · exact lt_trans hl (n2 c hc)
    · have habove : ∀ c ∈ d :: rest, a < c.1 := by
        intro c hc
        have hda : a < d.1 := by omega
        rcases List.mem_cons.1 hc with rfl | hc
        · exact hda
        · exact lt_trans hda (hd c hc)
      obtain ⟨n1, n2⟩ := hnext _ hw habove
      refine ⟨(wf_cons_iff _ _).2 ⟨n2, n1⟩, fun l hl _ c hc => ?_⟩
      rcases List.mem_cons.1 hc with rfl | hc
      · exact hl
      · exact lt_trans hl (n2 c hc)

theorem writeRun_spec (a : Nat) (bs : List Byte) (m : Memory) (hw : Memory.wf m = true) :
    Memory.wf (writeRun a bs m) = true ∧
      ∀ l, l < a → (∀ c ∈ m, l < c.1) → ∀ c ∈ writeRun a bs m, l < c.1 := by
  induction bs generalizing a m with
  | nil => exact ⟨hw, fun l _ h => h⟩
  | cons b bs ih =>
    refine insertThen_spec _ a b m hw fun m' hm' habove => ?_
    obtain ⟨h1, h2⟩ := ih (a + 1) m' hm'
    exact ⟨h1, h2 a (by omega) habove⟩

/-- Writing a run of bytes keeps the canonical form. -/
theorem writeRun_wf (a : Nat) (bs : List Byte) (m : Memory) (hw : Memory.wf m = true) :
    Memory.wf (writeRun a bs m) = true := (writeRun_spec a bs m hw).1

/-- Writing a grid keeps the canonical form. -/
theorem writeGrid_wf (addr : Nat → Nat → Nat) (val : Nat → Nat → List Byte)
    (cs : List (Nat × Nat)) (m : Memory) (hw : Memory.wf m = true) :
    Memory.wf (writeGrid addr val cs m) = true := by
  induction cs generalizing m with
  | nil => exact hw
  | cons c cs ih => exact ih _ (writeRun_wf _ _ _ hw)

/-- A grid leaves every address outside its elements alone. -/
theorem memFind_writeGrid_of_outside (addr : Nat → Nat → Nat) (val : Nat → Nat → List Byte)
    (cs : List (Nat × Nat)) (m : Memory) (x : Nat)
    (h : ∀ c ∈ cs, x < addr c.1 c.2 ∨ addr c.1 c.2 + (val c.1 c.2).length ≤ x) :
    memFind (writeGrid addr val cs m) x = memFind m x := by
  induction cs generalizing m with
  | nil => rfl
  | cons c cs ih =>
    obtain ⟨i, j⟩ := c
    show memFind (writeGrid addr val cs (writeRun (addr i j) (val i j) m)) x = _
    rw [ih _ (fun c hc => h c (by simp [hc])),
      memFind_writeRun_of_outside _ _ _ _ (h (i, j) (by simp))]

/-- Inside an element of a grid whose elements do not overlap, the written byte is read back. -/
theorem memFind_writeGrid_of_inside (addr : Nat → Nat → Nat) (val : Nat → Nat → List Byte)
    (cs : List (Nat × Nat)) (m : Memory) (i j k : Nat) (hmem : (i, j) ∈ cs)
    (hk : k < (val i j).length)
    (hsep : ∀ c ∈ cs, c ≠ (i, j) → addr i j + k < addr c.1 c.2 ∨
      addr c.1 c.2 + (val c.1 c.2).length ≤ addr i j + k) :
    memFind (writeGrid addr val cs m) (addr i j + k) = some (val i j)[k] := by
  induction cs generalizing m with
  | nil => simp at hmem
  | cons c cs ih =>
    obtain ⟨i', j'⟩ := c
    show memFind (writeGrid addr val cs (writeRun (addr i' j') (val i' j') m)) _ = _
    by_cases hin : (i, j) ∈ cs
    · exact ih _ hin fun c hc hne => hsep c (by simp [hc]) hne
    · have hhead : (i', j') = (i, j) := by
        rcases List.mem_cons.1 hmem with h | h
        · exact h.symm
        · exact absurd h hin
      obtain ⟨rfl, rfl⟩ := Prod.mk.inj hhead
      rw [memFind_writeGrid_of_outside, memFind_writeRun_of_inside]
      intro c hc
      exact hsep c (by simp [hc]) (fun he => hin (he ▸ hc))

@[simp] theorem mem_coords (n i j : Nat) : (i, j) ∈ coords n ↔ i < n ∧ j < n := by
  simp [coords]

end Sys2Proof.Machine
end

