-- ==== Sys2Proof/Laws/Banks.lean ====
section
/-! SUPPORT. Elements of the banks: bytes and words, addresses that do not overlap, and what an
element reads as after a store. -/

namespace Sys2Proof.Machine

@[simp] theorem toBytes_length (n : Nat) (v : BitVec 64) : (toBytes n v).length = n := by
  simp [toBytes]

@[simp] theorem cplxBytes_length (c : Cplx) : (cplxBytes c).length = 16 := by simp [cplxBytes]

theorem natOfBytes_range' (v : BitVec 64) (s n : Nat) :
    natOfBytes ((List.range' s n).map fun k => v.extractLsb' (8 * k) 8)
      = v.toNat / 256 ^ s % 256 ^ n := by
  induction n generalizing s with
  | zero => simp [natOfBytes, Nat.mod_one]
  | succ n ih =>
    rw [List.range'_succ, List.map_cons, natOfBytes, ih]
    have h1 : (v.extractLsb' (8 * s) 8).toNat = v.toNat / 256 ^ s % 256 := by
      simp [BitVec.extractLsb'_toNat, Nat.shiftRight_eq_div_pow, Nat.pow_mul]
    rw [h1, pow_succ (n := n), mul_comm (256 ^ n) 256, Nat.mod_mul, pow_succ, ← Nat.div_div_eq_div_mul]

/-- The low `n` bytes of a word, read back (R103). -/
theorem natOfBytes_toBytes (n : Nat) (v : BitVec 64) :
    natOfBytes (toBytes n v) = v.toNat % 256 ^ n := by
  have := natOfBytes_range' v 0 n
  simpa [toBytes, List.range_eq_range'] using this

/-- A word is its eight bytes (R103). -/
theorem ofBytes_toBytes (v : BitVec 64) : ofBytes (toBytes 8 v) = v := by
  apply BitVec.eq_of_toNat_eq
  rw [ofBytes, natOfBytes_toBytes]
  have := v.isLt
  simp only [BitVec.toNat_ofNat]
  omega

theorem sampleAddr_inj {b : BitVec 2} {i j i' j' : Nat} (hj : j < 512) (hj' : j' < 512)
    (h : sampleAddr b i j = sampleAddr b i' j') : i = i' ∧ j = j' := by
  simp only [sampleAddr] at h; omega

theorem cplxAddr_disjoint (z : BitVec 1) {i j i' j' k : Nat} (hj : j < 512) (hj' : j' < 512)
    (hk : k < 16) (hne : (i', j') ≠ (i, j)) :
    cplxAddr z i j + k < cplxAddr z i' j' ∨ cplxAddr z i' j' + 16 ≤ cplxAddr z i j + k := by
  have : ¬(i' = i ∧ j' = j) := fun h => hne (by rw [h.1, h.2])
  simp only [cplxAddr]
  omega

/-- A byte of a stored complex element. -/
theorem memFind_storeZ (z : BitVec 1) (val : Nat → Nat → Cplx) (cs : List (Nat × Nat)) (s : State)
    (i j k : Nat) (hcs : ∀ c ∈ cs, c.2 < 512) (hmem : (i, j) ∈ cs) (hk : k < 16) :
    memFind (storeZ z val cs s).mem (cplxAddr z i j + k)
      = some ((cplxBytes (val i j))[k]'(by simpa using hk)) := by
  refine memFind_writeGrid_of_inside _ _ cs s.mem i j k hmem (by simpa using hk) ?_
  intro c hc hne
  simpa using cplxAddr_disjoint z (hcs _ hmem) (hcs c hc) hk hne

/-- Outside the stored elements memory is as before. -/
theorem memFind_storeZ_of_outside (z : BitVec 1) (val : Nat → Nat → Cplx)
    (cs : List (Nat × Nat)) (s : State) (x : Nat)
    (h : ∀ c ∈ cs, x < cplxAddr z c.1 c.2 ∨ cplxAddr z c.1 c.2 + 16 ≤ x) :
    memFind (storeZ z val cs s).mem x = memFind s.mem x :=
  memFind_writeGrid_of_outside _ _ cs s.mem x (by simpa using h)

/-- Bytes that are all written read as written, whatever the draws. -/
theorem readHalf_of_written (s : State) (a : Nat) (v : F64)
    (h : ∀ k, (hk : k < 8) → memFind s.mem (a + k) = some ((toBytes 8 v)[k]'(by simpa using hk))) :
    readHalf s a = v := by
  have : readBytes s a 8 = toBytes 8 v := by
    apply List.ext_getElem
    · simp [readBytes]
    · intro k h1 h2
      simp [readBytes] at h1
      simp [readBytes, readByte, h k h1]
  rw [readHalf, this, ofBytes_toBytes]

/-- An element whose 16 bytes are written reads as the value written, whatever the draws. -/
theorem getZ_of_written (s : State) (z : BitVec 1) (i j : Nat) (v : Cplx)
    (h : ∀ k, (hk : k < 16) → memFind s.mem (cplxAddr z i j + k)
      = some ((cplxBytes v)[k]'(by simpa using hk))) : getZ s z i j = v := by
  have h1 : readHalf s (cplxAddr z i j) = v.re := by
    refine readHalf_of_written s _ _ fun k hk => ?_
    rw [h k (by omega)]
    simp [cplxBytes, List.getElem_append_left, hk]
  have h2 : readHalf s (cplxAddr z i j + 8) = v.im := by
    refine readHalf_of_written s _ _ fun k hk => ?_
    rw [add_assoc, h (8 + k) (by omega)]
    simp [cplxBytes, List.getElem_append_right]
  simp [getZ, h1, h2]

/-- Read after store of a complex element. -/
theorem getZ_storeZ (z : BitVec 1) (val : Nat → Nat → Cplx) (cs : List (Nat × Nat)) (s t : State)
    (ht : t.mem = (storeZ z val cs s).mem) (i j : Nat) (hcs : ∀ c ∈ cs, c.2 < 512)
    (hmem : (i, j) ∈ cs) : getZ t z i j = val i j :=
  getZ_of_written t z i j _ fun k hk => by rw [ht]; exact memFind_storeZ z val cs s i j k hcs hmem hk

/-- Read after write of a C register. -/
theorem getC_setC (i e : BitVec 3) (v : Cplx) (s : State) :
    getC (setC i v s) e = if e = i then v else getC s e := by
  simp only [getC, setC, Vector.getElem_set]
  by_cases h : e = i
  · simp [h]
  · have : ¬ i.toNat = e.toNat := fun h' => h (BitVec.eq_of_toNat_eq h'.symm)
    simp [h, this]

theorem activeN_le (s : State) (h : s.log2n.toNat ≤ 9) : activeN s ≤ 512 := by
  have : (2 : Nat) ^ s.log2n.toNat ≤ 2 ^ 9 := Nat.pow_le_pow_right (by norm_num) h
  simpa [activeN] using this

end Sys2Proof.Machine
end

