-- ==== Sys2Proof/Laws/Encoding.lean ====
section
/-! SUPPORT. The fields of encoded words, and the masks of the opcode map on them. -/

namespace Sys2Proof

theorem toNat_append_add {n m : Nat} (x : BitVec n) (y : BitVec m) :
    (x ++ y).toNat = x.toNat * 2 ^ m + y.toNat := by
  rw [BitVec.toNat_append, Nat.shiftLeft_eq, ← Nat.shiftLeft_eq, Nat.shiftLeft_add_eq_or_of_lt y.isLt]

/-- A format R word as a number (R153). -/
theorem toNat_encodeR (opc : BitVec 8) (d a b : BitVec 3) (k : BitVec 8) :
    (encodeR opc d a b k).toNat
      = opc.toNat + 2 ^ 8 * d.toNat + 2 ^ 11 * a.toNat + 2 ^ 14 * b.toNat + 2 ^ 17 * k.toNat := by
  simp only [encodeR, toNat_append_add, BitVec.toNat_ofNat]
  omega

/-- A format X word as a number (R154). -/
theorem toNat_encodeX (opc : BitVec 8) (r : BitVec 3) (z : BitVec 1) (row col : BitVec 9) :
    (encodeX opc r z row col).toNat
      = opc.toNat + 2 ^ 8 * r.toNat + 2 ^ 11 * z.toNat + 2 ^ 12 * row.toNat
        + 2 ^ 21 * col.toNat := by
  simp only [encodeX, toNat_append_add, BitVec.toNat_ofNat]
  omega

/-- A format M word as a number (R155). -/
theorem toNat_encodeM (opc : BitVec 8) (zd zs : BitVec 1) (sd ss : BitVec 2) (row : BitVec 9) :
    (encodeM opc zd zs sd ss row).toNat
      = opc.toNat + 2 ^ 8 * zd.toNat + 2 ^ 9 * zs.toNat + 2 ^ 10 * sd.toNat + 2 ^ 12 * ss.toNat
        + 2 ^ 16 * row.toNat := by
  simp only [encodeM, toNat_append_add, BitVec.toNat_ofNat]
  omega

section
variable (opc : BitVec 8) (d a b : BitVec 3) (k : BitVec 8)

@[simp] theorem fieldD_encodeR : fieldD (encodeR opc d a b k) = d := by
  apply BitVec.eq_of_toNat_eq
  simp only [fieldD, BitVec.extractLsb'_toNat, toNat_encodeR, Nat.shiftRight_eq_div_pow]
  omega

@[simp] theorem fieldA_encodeR : fieldA (encodeR opc d a b k) = a := by
  apply BitVec.eq_of_toNat_eq
  simp only [fieldA, BitVec.extractLsb'_toNat, toNat_encodeR, Nat.shiftRight_eq_div_pow]
  omega

@[simp] theorem fieldB_encodeR : fieldB (encodeR opc d a b k) = b := by
  apply BitVec.eq_of_toNat_eq
  simp only [fieldB, BitVec.extractLsb'_toNat, toNat_encodeR, Nat.shiftRight_eq_div_pow]
  omega

@[simp] theorem fieldK_encodeR : fieldK (encodeR opc d a b k) = k := by
  apply BitVec.eq_of_toNat_eq
  simp only [fieldK, BitVec.extractLsb'_toNat, toNat_encodeR, Nat.shiftRight_eq_div_pow]
  omega

@[simp] theorem fieldOpc_encodeR : fieldOpc (encodeR opc d a b k) = opc := by
  apply BitVec.eq_of_toNat_eq
  simp only [fieldOpc, BitVec.extractLsb'_toNat, toNat_encodeR, Nat.shiftRight_eq_div_pow]
  omega

end

section
variable (opc : BitVec 8) (r : BitVec 3) (z : BitVec 1) (row col : BitVec 9)

@[simp] theorem fieldD_encodeX : fieldD (encodeX opc r z row col) = r := by
  apply BitVec.eq_of_toNat_eq
  simp only [fieldD, BitVec.extractLsb'_toNat, toNat_encodeX, Nat.shiftRight_eq_div_pow]
  omega

@[simp] theorem fieldZ_encodeX : fieldZ (encodeX opc r z row col) = z := by
  apply BitVec.eq_of_toNat_eq
  simp only [fieldZ, BitVec.extractLsb'_toNat, toNat_encodeX, Nat.shiftRight_eq_div_pow]
  omega

@[simp] theorem fieldRowX_encodeX : fieldRowX (encodeX opc r z row col) = row := by
  apply BitVec.eq_of_toNat_eq
  simp only [fieldRowX, BitVec.extractLsb'_toNat, toNat_encodeX, Nat.shiftRight_eq_div_pow]
  omega

@[simp] theorem fieldCol_encodeX : fieldCol (encodeX opc r z row col) = col := by
  apply BitVec.eq_of_toNat_eq
  simp only [fieldCol, BitVec.extractLsb'_toNat, toNat_encodeX, Nat.shiftRight_eq_div_pow]
  omega

@[simp] theorem fieldOpc_encodeX : fieldOpc (encodeX opc r z row col) = opc := by
  apply BitVec.eq_of_toNat_eq
  simp only [fieldOpc, BitVec.extractLsb'_toNat, toNat_encodeX, Nat.shiftRight_eq_div_pow]
  omega

end

section
variable (opc : BitVec 8) (zd zs : BitVec 1) (sd ss : BitVec 2) (row : BitVec 9)

@[simp] theorem fieldZD_encodeM : fieldZD (encodeM opc zd zs sd ss row) = zd := by
  apply BitVec.eq_of_toNat_eq
  simp only [fieldZD, BitVec.extractLsb'_toNat, toNat_encodeM, Nat.shiftRight_eq_div_pow]
  omega

@[simp] theorem fieldZS_encodeM : fieldZS (encodeM opc zd zs sd ss row) = zs := by
  apply BitVec.eq_of_toNat_eq
  simp only [fieldZS, BitVec.extractLsb'_toNat, toNat_encodeM, Nat.shiftRight_eq_div_pow]
  omega

@[simp] theorem fieldSD_encodeM : fieldSD (encodeM opc zd zs sd ss row) = sd := by
  apply BitVec.eq_of_toNat_eq
  simp only [fieldSD, BitVec.extractLsb'_toNat, toNat_encodeM, Nat.shiftRight_eq_div_pow]
  omega

@[simp] theorem fieldSS_encodeM : fieldSS (encodeM opc zd zs sd ss row) = ss := by
  apply BitVec.eq_of_toNat_eq
  simp only [fieldSS, BitVec.extractLsb'_toNat, toNat_encodeM, Nat.shiftRight_eq_div_pow]
  omega

@[simp] theorem fieldRowM_encodeM : fieldRowM (encodeM opc zd zs sd ss row) = row := by
  apply BitVec.eq_of_toNat_eq
  simp only [fieldRowM, BitVec.extractLsb'_toNat, toNat_encodeM, Nat.shiftRight_eq_div_pow]
  omega

@[simp] theorem fieldOpc_encodeM : fieldOpc (encodeM opc zd zs sd ss row) = opc := by
  apply BitVec.eq_of_toNat_eq
  simp only [fieldOpc, BitVec.extractLsb'_toNat, toNat_encodeM, Nat.shiftRight_eq_div_pow]
  omega

end

/-- The bits of a format R word (R153). -/
theorem getLsbD_encodeR (opc : BitVec 8) (d a b : BitVec 3) (k : BitVec 8) (i : Nat) :
    (encodeR opc d a b k).getLsbD i =
      if i < 8 then opc.getLsbD i
      else if i < 11 then d.getLsbD (i - 8)
      else if i < 14 then a.getLsbD (i - 11)
      else if i < 17 then b.getLsbD (i - 14)
      else k.getLsbD (i - 17) := by
  unfold encodeR
  rw [BitVec.getLsbD_append, BitVec.getLsbD_append, BitVec.getLsbD_append, BitVec.getLsbD_append,
    BitVec.getLsbD_append, Nat.sub_sub, Nat.sub_sub, Nat.sub_sub, BitVec.getLsbD_zero]
  split_ifs <;> first | rfl | omega | skip
  exact (BitVec.getLsbD_of_ge k _ (by omega)).symm

/-- The bits of a format X word (R154). -/
theorem getLsbD_encodeX (opc : BitVec 8) (r : BitVec 3) (z : BitVec 1) (row col : BitVec 9)
    (i : Nat) :
    (encodeX opc r z row col).getLsbD i =
      if i < 8 then opc.getLsbD i
      else if i < 11 then r.getLsbD (i - 8)
      else if i < 12 then z.getLsbD (i - 11)
      else if i < 21 then row.getLsbD (i - 12)
      else col.getLsbD (i - 21) := by
  unfold encodeX
  rw [BitVec.getLsbD_append, BitVec.getLsbD_append, BitVec.getLsbD_append, BitVec.getLsbD_append,
    BitVec.getLsbD_append, Nat.sub_sub, Nat.sub_sub, Nat.sub_sub, BitVec.getLsbD_zero]
  split_ifs <;> first | rfl | omega | skip
  exact (BitVec.getLsbD_of_ge col _ (by omega)).symm

/-- The bits of a format M word (R155). -/
theorem getLsbD_encodeM (opc : BitVec 8) (zd zs : BitVec 1) (sd ss : BitVec 2) (row : BitVec 9)
    (i : Nat) :
    (encodeM opc zd zs sd ss row).getLsbD i =
      if i < 8 then opc.getLsbD i
      else if i < 9 then zd.getLsbD (i - 8)
      else if i < 10 then zs.getLsbD (i - 9)
      else if i < 12 then sd.getLsbD (i - 10)
      else if i < 14 then ss.getLsbD (i - 12)
      else if i < 16 then false
      else row.getLsbD (i - 16) := by
  unfold encodeM
  rw [BitVec.getLsbD_append, BitVec.getLsbD_append, BitVec.getLsbD_append, BitVec.getLsbD_append,
    BitVec.getLsbD_append, BitVec.getLsbD_append, BitVec.getLsbD_append, Nat.sub_sub, Nat.sub_sub,
    Nat.sub_sub, Nat.sub_sub, Nat.sub_sub, BitVec.getLsbD_zero, BitVec.getLsbD_zero]
  split_ifs <;> first | rfl | omega | skip
  exact (BitVec.getLsbD_of_ge row _ (by omega)).symm

theorem getLsbD_and_not {n : Nat} (x y : BitVec n) (j : Nat) :
    (x &&& ~~~y).getLsbD j = (x.getLsbD j && !y.getLsbD j) := by
  rcases Nat.lt_or_ge j n with h | h
  · rw [BitVec.getLsbD_and, BitVec.getLsbD_not, decide_eq_true h, Bool.true_and]
  · rw [BitVec.getLsbD_of_ge _ _ h, BitVec.getLsbD_of_ge _ _ h, Bool.false_and]

/-- A format R word under a mask that lets the bits of a format R word through. -/
theorem encodeR_and_not (opc : BitVec 8) (d a b d' a' b' : BitVec 3) (k k' : BitVec 8) :
    encodeR opc d a b k &&& ~~~encodeR 0#8 d' a' b' k'
      = encodeR opc (d &&& ~~~d') (a &&& ~~~a') (b &&& ~~~b') (k &&& ~~~k') := by
  apply BitVec.eq_of_getLsbD_eq
  intro i hi
  rw [getLsbD_and_not]
  simp only [getLsbD_encodeR]
  split_ifs <;> simp only [getLsbD_and_not, BitVec.getLsbD_zero, Bool.not_false, Bool.and_true]

/-- A format X word under a mask that lets the bits of a format X word through. -/
theorem encodeX_and_not (opc : BitVec 8) (r r' : BitVec 3) (z z' : BitVec 1) (row col row' col' : BitVec 9) :
    encodeX opc r z row col &&& ~~~encodeX 0#8 r' z' row' col'
      = encodeX opc (r &&& ~~~r') (z &&& ~~~z') (row &&& ~~~row') (col &&& ~~~col') := by
  apply BitVec.eq_of_getLsbD_eq
  intro i hi
  rw [getLsbD_and_not]
  simp only [getLsbD_encodeX]
  split_ifs <;> simp only [getLsbD_and_not, BitVec.getLsbD_zero, Bool.not_false, Bool.and_true]

/-- A format M word under a mask that lets the bits of a format M word through. -/
theorem encodeM_and_not (opc : BitVec 8) (zd zs zd' zs' : BitVec 1) (sd ss sd' ss' : BitVec 2) (row row' : BitVec 9) :
    encodeM opc zd zs sd ss row &&& ~~~encodeM 0#8 zd' zs' sd' ss' row'
      = encodeM opc (zd &&& ~~~zd') (zs &&& ~~~zs') (sd &&& ~~~sd') (ss &&& ~~~ss') (row &&& ~~~row') := by
  apply BitVec.eq_of_getLsbD_eq
  intro i hi
  rw [getLsbD_and_not]
  simp only [getLsbD_encodeM]
  split_ifs <;> simp only [getLsbD_and_not, BitVec.getLsbD_zero, Bool.not_false, Bool.and_true]

end Sys2Proof
end

