-- ==== Sys2Proof/Laws/PerInstr.lean ====
section
/-! SUPPORT. Statements about every instruction, one lemma per constructor. -/

namespace Sys2Proof.Laws.OpcodeRow

/-- A command's word meets the mask and match of the command's own row of the opcode map, and the
row reads every field of it back (R157, R158). -/
def Statement (i : Instr) : Prop :=
  (rowOf i).accepts (encode i) = true ∧ (rowOf i).build (encode i) = i

theorem nop : Statement .nop := by
  refine ⟨?_, by simp [rowOf, rowNop, encode]⟩
  rw [OpcodeRow.accepts, rowOf, encode, show rowNop.mask = ~~~encodeR 0#8 0#3 0#3 0#3 0#8 by decide,
    encodeR_and_not]
  simp [rowNop, encodeR]

theorem cmov (d a : BitVec 3) : Statement (.cmov d a) := by
  refine ⟨?_, by simp [rowOf, rowCmov, encode]⟩
  rw [OpcodeRow.accepts, rowOf, encode, show rowCmov.mask = ~~~encodeR 0#8 7#3 7#3 0#3 0#8 by decide,
    encodeR_and_not]
  simp [rowCmov, encodeR]

theorem cadd (d a b : BitVec 3) : Statement (.cadd d a b) := by
  refine ⟨?_, by simp [rowOf, rowCadd, encode]⟩
  rw [OpcodeRow.accepts, rowOf, encode, show rowCadd.mask = ~~~encodeR 0#8 7#3 7#3 7#3 0#8 by decide,
    encodeR_and_not]
  simp [rowCadd, encodeR]

theorem csub (d a b : BitVec 3) : Statement (.csub d a b) := by
  refine ⟨?_, by simp [rowOf, rowCsub, encode]⟩
  rw [OpcodeRow.accepts, rowOf, encode, show rowCsub.mask = ~~~encodeR 0#8 7#3 7#3 7#3 0#8 by decide,
    encodeR_and_not]
  simp [rowCsub, encodeR]

theorem cmul (d a b : BitVec 3) : Statement (.cmul d a b) := by
  refine ⟨?_, by simp [rowOf, rowCmul, encode]⟩
  rw [OpcodeRow.accepts, rowOf, encode, show rowCmul.mask = ~~~encodeR 0#8 7#3 7#3 7#3 0#8 by decide,
    encodeR_and_not]
  simp [rowCmul, encodeR]

theorem cdiv (d a b : BitVec 3) : Statement (.cdiv d a b) := by
  refine ⟨?_, by simp [rowOf, rowCdiv, encode]⟩
  rw [OpcodeRow.accepts, rowOf, encode, show rowCdiv.mask = ~~~encodeR 0#8 7#3 7#3 7#3 0#8 by decide,
    encodeR_and_not]
  simp [rowCdiv, encodeR]

theorem cconj (d a : BitVec 3) : Statement (.cconj d a) := by
  refine ⟨?_, by simp [rowOf, rowCconj, encode]⟩
  rw [OpcodeRow.accepts, rowOf, encode, show rowCconj.mask = ~~~encodeR 0#8 7#3 7#3 0#3 0#8 by decide,
    encodeR_and_not]
  simp [rowCconj, encodeR]

theorem cmag (d a : BitVec 3) : Statement (.cmag d a) := by
  refine ⟨?_, by simp [rowOf, rowCmag, encode]⟩
  rw [OpcodeRow.accepts, rowOf, encode, show rowCmag.mask = ~~~encodeR 0#8 7#3 7#3 0#3 0#8 by decide,
    encodeR_and_not]
  simp [rowCmag, encodeR]

theorem cscln (d a : BitVec 3) : Statement (.cscln d a) := by
  refine ⟨?_, by simp [rowOf, rowCscln, encode]⟩
  rw [OpcodeRow.accepts, rowOf, encode, show rowCscln.mask = ~~~encodeR 0#8 7#3 7#3 0#3 0#8 by decide,
    encodeR_and_not]
  simp [rowCscln, encodeR]

theorem twld (d : BitVec 3) (k : BitVec 8) : Statement (.twld d k) := by
  refine ⟨?_, by simp [rowOf, rowTwld, encode]⟩
  rw [OpcodeRow.accepts, rowOf, encode, show rowTwld.mask = ~~~encodeR 0#8 7#3 0#3 0#3 255#8 by decide,
    encodeR_and_not]
  simp [rowTwld, encodeR]

theorem bfly (a b : BitVec 3) (k : BitVec 8) : Statement (.bfly a b k) := by
  refine ⟨?_, by simp [rowOf, rowBfly, encode]⟩
  rw [OpcodeRow.accepts, rowOf, encode, show rowBfly.mask = ~~~encodeR 0#8 0#3 7#3 7#3 255#8 by decide,
    encodeR_and_not]
  simp [rowBfly, encodeR]

theorem bflyw (a b w : BitVec 3) : Statement (.bflyw a b w) := by
  refine ⟨?_, by simp [rowOf, rowBflyw, encode]⟩
  rw [OpcodeRow.accepts, rowOf, encode, show rowBflyw.mask = ~~~encodeR 0#8 7#3 7#3 7#3 0#8 by decide,
    encodeR_and_not]
  simp [rowBflyw, encodeR]

theorem cld (r : BitVec 3) (z : BitVec 1) (row col : BitVec 9) : Statement (.cld r z row col) := by
  refine ⟨?_, by simp [rowOf, rowCld, encode]⟩
  rw [OpcodeRow.accepts, rowOf, encode, show rowCld.mask = ~~~encodeX 0#8 7#3 1#1 511#9 511#9 by decide,
    encodeX_and_not]
  simp [rowCld, encodeX]

theorem cst (r : BitVec 3) (z : BitVec 1) (row col : BitVec 9) : Statement (.cst r z row col) := by
  refine ⟨?_, by simp [rowOf, rowCst, encode]⟩
  rw [OpcodeRow.accepts, rowOf, encode, show rowCst.mask = ~~~encodeX 0#8 7#3 1#1 511#9 511#9 by decide,
    encodeX_and_not]
  simp [rowCst, encodeX]

theorem lift (zd : BitVec 1) (ss : BitVec 2) : Statement (.lift zd ss) := by
  refine ⟨?_, by simp [rowOf, rowLift, encode]⟩
  rw [OpcodeRow.accepts, rowOf, encode, show rowLift.mask = ~~~encodeM 0#8 1#1 0#1 0#2 3#2 0#9 by decide,
    encodeM_and_not]
  simp [rowLift, encodeM]

theorem fftrow (zd : BitVec 1) (row : BitVec 9) : Statement (.fftrow zd row) := by
  refine ⟨?_, by simp [rowOf, rowFftrow, encode]⟩
  rw [OpcodeRow.accepts, rowOf, encode, show rowFftrow.mask = ~~~encodeM 0#8 1#1 0#1 0#2 0#2 511#9 by decide,
    encodeM_and_not]
  simp [rowFftrow, encodeM]

theorem ifftrow (zd : BitVec 1) (row : BitVec 9) : Statement (.ifftrow zd row) := by
  refine ⟨?_, by simp [rowOf, rowIfftrow, encode]⟩
  rw [OpcodeRow.accepts, rowOf, encode, show rowIfftrow.mask = ~~~encodeM 0#8 1#1 0#1 0#2 0#2 511#9 by decide,
    encodeM_and_not]
  simp [rowIfftrow, encodeM]

theorem fftrows (zd : BitVec 1) : Statement (.fftrows zd) := by
  refine ⟨?_, by simp [rowOf, rowFftrows, encode]⟩
  rw [OpcodeRow.accepts, rowOf, encode, show rowFftrows.mask = ~~~encodeM 0#8 1#1 0#1 0#2 0#2 0#9 by decide,
    encodeM_and_not]
  simp [rowFftrows, encodeM]

theorem ifftrows (zd : BitVec 1) : Statement (.ifftrows zd) := by
  refine ⟨?_, by simp [rowOf, rowIfftrows, encode]⟩
  rw [OpcodeRow.accepts, rowOf, encode, show rowIfftrows.mask = ~~~encodeM 0#8 1#1 0#1 0#2 0#2 0#9 by decide,
    encodeM_and_not]
  simp [rowIfftrows, encodeM]

theorem trans (zd : BitVec 1) : Statement (.trans zd) := by
  refine ⟨?_, by simp [rowOf, rowTrans, encode]⟩
  rw [OpcodeRow.accepts, rowOf, encode, show rowTrans.mask = ~~~encodeM 0#8 1#1 0#1 0#2 0#2 0#9 by decide,
    encodeM_and_not]
  simp [rowTrans, encodeM]

theorem zcopy (zd zs : BitVec 1) : Statement (.zcopy zd zs) := by
  refine ⟨?_, by simp [rowOf, rowZcopy, encode]⟩
  rw [OpcodeRow.accepts, rowOf, encode, show rowZcopy.mask = ~~~encodeM 0#8 1#1 1#1 0#2 0#2 0#9 by decide,
    encodeM_and_not]
  simp [rowZcopy, encodeM]

theorem realclamp (sd : BitVec 2) (zs : BitVec 1) : Statement (.realclamp sd zs) := by
  refine ⟨?_, by simp [rowOf, rowRealclamp, encode]⟩
  rw [OpcodeRow.accepts, rowOf, encode, show rowRealclamp.mask = ~~~encodeM 0#8 0#1 1#1 3#2 0#2 0#9 by decide,
    encodeM_and_not]
  simp [rowRealclamp, encodeM]

theorem fft2d (zd : BitVec 1) (ss : BitVec 2) : Statement (.fft2d zd ss) := by
  refine ⟨?_, by simp [rowOf, rowFft2d, encode]⟩
  rw [OpcodeRow.accepts, rowOf, encode, show rowFft2d.mask = ~~~encodeM 0#8 1#1 0#1 0#2 3#2 0#9 by decide,
    encodeM_and_not]
  simp [rowFft2d, encodeM]

theorem ifft2d (sd : BitVec 2) (zd zs : BitVec 1) : Statement (.ifft2d sd zd zs) := by
  refine ⟨?_, by simp [rowOf, rowIfft2d, encode]⟩
  rw [OpcodeRow.accepts, rowOf, encode, show rowIfft2d.mask = ~~~encodeM 0#8 1#1 1#1 3#2 0#2 0#9 by decide,
    encodeM_and_not]
  simp [rowIfft2d, encodeM]

theorem filter (zd zs : BitVec 1) : Statement (.filter zd zs) := by
  refine ⟨?_, by simp [rowOf, rowFilter, encode]⟩
  rw [OpcodeRow.accepts, rowOf, encode, show rowFilter.mask = ~~~encodeM 0#8 1#1 1#1 0#2 0#2 0#9 by decide,
    encodeM_and_not]
  simp [rowFilter, encodeM]

theorem logmag (sd : BitVec 2) (zs : BitVec 1) : Statement (.logmag sd zs) := by
  refine ⟨?_, by simp [rowOf, rowLogmag, encode]⟩
  rw [OpcodeRow.accepts, rowOf, encode, show rowLogmag.mask = ~~~encodeM 0#8 0#1 1#1 3#2 0#2 0#9 by decide,
    encodeM_and_not]
  simp [rowLogmag, encodeM]

end Sys2Proof.Laws.OpcodeRow
end

