-- ==== Sys2Proof/Laws/Decode.lean ====
section
/-! SUPPORT. Decoding by the opcode map: one row at most, and what a decoded word tells. -/

namespace Sys2Proof

/-- Every instruction's word meets its own row, which reads it back (R157, R158). -/
theorem rowOf_statement (i : Instr) : Laws.OpcodeRow.Statement i := by
  cases i
  · exact Laws.OpcodeRow.nop
  · exact Laws.OpcodeRow.cmov _ _
  · exact Laws.OpcodeRow.cadd _ _ _
  · exact Laws.OpcodeRow.csub _ _ _
  · exact Laws.OpcodeRow.cmul _ _ _
  · exact Laws.OpcodeRow.cdiv _ _ _
  · exact Laws.OpcodeRow.cconj _ _
  · exact Laws.OpcodeRow.cmag _ _
  · exact Laws.OpcodeRow.cscln _ _
  · exact Laws.OpcodeRow.twld _ _
  · exact Laws.OpcodeRow.bfly _ _ _
  · exact Laws.OpcodeRow.bflyw _ _ _
  · exact Laws.OpcodeRow.cld _ _ _ _
  · exact Laws.OpcodeRow.cst _ _ _ _
  · exact Laws.OpcodeRow.lift _ _
  · exact Laws.OpcodeRow.fftrow _ _
  · exact Laws.OpcodeRow.ifftrow _ _
  · exact Laws.OpcodeRow.fftrows _
  · exact Laws.OpcodeRow.ifftrows _
  · exact Laws.OpcodeRow.trans _
  · exact Laws.OpcodeRow.zcopy _ _
  · exact Laws.OpcodeRow.realclamp _ _
  · exact Laws.OpcodeRow.fft2d _ _
  · exact Laws.OpcodeRow.ifft2d _ _ _
  · exact Laws.OpcodeRow.filter _ _
  · exact Laws.OpcodeRow.logmag _ _

/-- Every instruction's row is in the opcode map. -/
theorem rowOf_mem (i : Instr) : rowOf i ∈ opcodeTable := by
  cases i <;> simp [rowOf, opcodeTable]

/-- A word that meets a row has the row's opcode: every mask covers bits 7:0 (R157). -/
theorem fieldOpc_of_accepts (r : OpcodeRow) (hr : r ∈ opcodeTable) (w : BitVec 32) (h : r.accepts w = true) :
    fieldOpc w = fieldOpc r.pattern := by
  simp only [OpcodeRow.accepts, beq_iff_eq] at h
  rw [← h]
  have : r.mask &&& 0xFF#32 = 0xFF#32 := by
    simp only [opcodeTable, List.mem_append, List.mem_cons, List.not_mem_nil, or_false] at hr
    rcases hr with (h|h|h|h|h|h|h|h|h|h|h|h|h|h)|(h|h|h|h|h|h|h|h|h|h|h|h) <;> subst h <;> decide
  simp only [fieldOpc]
  apply BitVec.eq_of_getLsbD_eq
  intro i hi
  have h2 := congrArg (fun x => x.getLsbD i) this
  simp at h2
  simp [hi]
  intro _
  have : (0xFF#32).getLsbD i = true := by interval_cases i <;> decide
  simp [this] at h2
  exact h2

/-- The rows have different opcodes (R161). -/
theorem opcodes_differ : opcodeTable.Pairwise fun r r' => fieldOpc r.pattern ≠ fieldOpc r'.pattern := by
  unfold opcodeTable; decide


/-- At most one row matches a word (R161). -/
theorem accepts_unique {r r' : OpcodeRow} (hr : r ∈ opcodeTable) (hr' : r' ∈ opcodeTable) (w : BitVec 32)
    (h : r.accepts w = true) (h' : r'.accepts w = true) : r = r' := by
  by_contra hne
  have h1 := fieldOpc_of_accepts r hr w h
  have h2 := fieldOpc_of_accepts r' hr' w h'
  have hs : ∀ a ∈ opcodeTable, ∀ b ∈ opcodeTable, a ≠ b →
      fieldOpc a.pattern ≠ fieldOpc b.pattern := by
    intro a ha b hb hab
    obtain ⟨n, hn, rfl⟩ := List.getElem_of_mem ha
    obtain ⟨m, hm, rfl⟩ := List.getElem_of_mem hb
    have hp := List.pairwise_iff_getElem.1 opcodes_differ
    rcases lt_trichotomy n m with h | rfl | h
    · exact hp n m hn hm h
    · exact absurd rfl hab
    · exact (hp m n hm hn h).symm
  exact hs r hr r' hr' hne (h1.symm.trans h2)

/-- A word that meets a row decodes by it (R161). -/
theorem decodeWord_of_accepts {r : OpcodeRow} (hr : r ∈ opcodeTable) (w : BitVec 32)
    (h : r.accepts w = true) : decodeWord w = some (r.build w) := by
  unfold decodeWord
  cases hf : opcodeTable.find? (fun r => r.accepts w) with
  | none => exact absurd h (by simpa using List.find?_eq_none.1 hf r hr)
  | some r' =>
    have : r' = r :=
      accepts_unique (List.mem_of_find?_eq_some hf) hr w
        (by simpa using List.find?_some hf) h
    simp [this]

/-- What a row builds belongs to the row. -/
theorem rowOf_build (r : OpcodeRow) (hr : r ∈ opcodeTable) (w : BitVec 32) :
    rowOf (r.build w) = r := by
  simp only [opcodeTable, List.mem_append, List.mem_cons, List.not_mem_nil, or_false] at hr
  rcases hr with (h|h|h|h|h|h|h|h|h|h|h|h|h|h)|(h|h|h|h|h|h|h|h|h|h|h|h) <;> subst h <;> rfl

/-- Everything a word that decodes tells (R161). -/
theorem decodeWord_cases {w : BitVec 32} {i : Instr} (h : decodeWord w = some i) :
    (rowOf i).accepts w = true ∧ (rowOf i).build w = i := by
  unfold decodeWord at h
  cases hf : opcodeTable.find? (fun r => r.accepts w) with
  | none => simp [hf] at h
  | some r =>
    have ha : r.accepts w = true := by simpa using List.find?_some hf
    simp only [hf, Option.map_some, Option.some.injEq] at h
    have hr := rowOf_build r (List.mem_of_find?_eq_some hf) w
    rw [h] at hr
    rw [hr]
    exact ⟨ha, h⟩

end Sys2Proof
end

