-- ==== Sys2Proof/Laws/Elementary.lean ====
section
/-! SUPPORT. EXP and LN are the implementation's functions, and have every property that R208 and
R209 ask for. -/

namespace Sys2Proof.Machine

theorem cfgExp_eq : cfgExp = Config.expFunction.eval := by
  have h := Config.expFunction.allowed
  funext x
  unfold cfgExp
  split
  · exact (h.nan.1 x ‹_›).symm
  · split
    · exact (h.atZero x ‹_›).symm
    · split
      · rename_i hx
        rw [hx, h.atNegInf]
      · rfl

theorem cfgLn_eq : cfgLn = Config.lnFunction.eval := by
  have h := Config.lnFunction.allowed
  funext x
  unfold cfgLn
  split
  · exact (h.nan.1 x ‹_›).symm
  · split
    · rename_i hx
      rw [hx, h.atOne]
    · split
      · rename_i hx
        rw [hx, h.atInf]
      · rfl

/-- EXP has every property of R208. -/
theorem cfgExp_allowed : ExpAllowed cfgExp := cfgExp_eq ▸ Config.expFunction.allowed

/-- LN has every property of R209. -/
theorem cfgLn_allowed : LnAllowed cfgLn := cfgLn_eq ▸ Config.lnFunction.allowed

end Sys2Proof.Machine
end

