-- ==== Sys2Proof/Laws/Numerics.lean ====
section
/-! SUPPORT. Bit patterns and values of binary64: signs and magnitudes, the integer logarithm, the
packing of rounded magnitudes, and the validity checks of R351 and R331 read off the pattern. -/

namespace Sys2Proof.Machine

theorem fsign_eq (x : F64) : fsign x = decide (2 ^ 63 ≤ x.toNat) := by
  rw [fsign, BitVec.msb_eq_decide]

theorem fmag_lt (x : F64) : fmag x < 2 ^ 63 := Nat.mod_lt _ (by decide)

theorem toNat_packSign (neg : Bool) (p : Nat) (hp : p < 2 ^ 63) :
    (packSign neg p).toNat = if neg then 2 ^ 63 + p else p := by
  rw [packSign, BitVec.toNat_ofNat]
  split_ifs <;> omega

theorem fmag_packSign (neg : Bool) (p : Nat) (hp : p < 2 ^ 63) : fmag (packSign neg p) = p := by
  rw [fmag, toNat_packSign neg p hp]
  split_ifs <;> omega

theorem fsign_packSign (neg : Bool) (p : Nat) (hp : p < 2 ^ 63) : fsign (packSign neg p) = neg := by
  rw [fsign_eq, toNat_packSign neg p hp]
  cases neg
  · simp only [Bool.false_eq_true, if_false, decide_eq_false_iff_not]; omega
  · simp

/-- A value is its sign and its magnitude pattern. -/
theorem packSign_fmag (x : F64) : packSign (fsign x) (fmag x) = x := by
  apply BitVec.eq_of_toNat_eq
  rw [toNat_packSign _ _ (fmag_lt x), fsign_eq, fmag]
  have := x.isLt
  simp only [decide_eq_true_eq]
  split_ifs <;> omega

theorem ilog2Below_eq (k n : Nat) (h : n < 2 ^ 2 ^ k) : ilog2Below k n = Nat.log2 n := by
  induction k generalizing n with
  | zero =>
    have : n = 0 ∨ n = 1 := by
      have : n < 2 := by simpa using h
      omega
    rcases this with rfl | rfl <;> simp [ilog2Below, Nat.log2_eq_log_two]
  | succ k ih =>
    unfold ilog2Below
    split_ifs with h1
    · exact ih n h1
    · have hpos : 0 < 2 ^ 2 ^ k := by positivity
      have h2 : 2 ^ 2 ^ (k + 1) = 2 ^ 2 ^ k * 2 ^ 2 ^ k := by rw [← pow_add, pow_succ]; congr 1; omega
      have hdiv : n / 2 ^ 2 ^ k < 2 ^ 2 ^ k := by
        rw [Nat.div_lt_iff_lt_mul hpos, ← h2]; exact h
      rw [ih _ hdiv]
      have hn : n ≠ 0 := by omega
      have hq : n / 2 ^ 2 ^ k ≠ 0 := by
        have := Nat.div_pos (by omega : 2 ^ 2 ^ k ≤ n) hpos
        omega
      rw [Nat.log2_eq_log_two, Nat.log2_eq_log_two, Nat.log_div_base_pow]
      have : 2 ^ k ≤ Nat.log 2 n := Nat.le_log_of_pow_le (by decide) (by omega)
      omega

/-- The integer logarithm is the library's. -/
theorem ilog2_eq (n : Nat) : ilog2 n = Nat.log2 n := by
  unfold ilog2
  split_ifs with h
  · exact ilog2Below_eq _ n h
  · rfl

/-- The pattern that `packUnits` makes is never above `+∞`. -/
theorem packUnits_le (sh r : Nat) : packUnits sh r ≤ infPattern := Nat.min_le_right _ _

theorem roundUnits_le (num den : Nat) : roundUnits num den ≤ infPattern := packUnits_le _ _

/-- The magnitude in units of a pattern: a subnormal, or a significand and an exponent. -/
theorem units_of_fmag (x : F64) (m : Nat) (h : fmag x = m) :
    units x = if m / 2 ^ 52 = 0 then m % 2 ^ 52 else (2 ^ 52 + m % 2 ^ 52) * 2 ^ (m / 2 ^ 52 - 1) := by
  subst h; rfl

/-- The magnitude in units of a packed pattern below `+∞`: `r · 2^sh`. -/
theorem units_packSign (neg : Bool) (sh r : Nat) (hr : r ≤ 2 ^ 53) (hsh : sh = 0 ∨ 2 ^ 52 ≤ r)
    (hfin : sh * 2 ^ 52 + r < infPattern) :
    units (packSign neg (packUnits sh r)) = r * 2 ^ sh := by
  have hp : packUnits sh r = sh * 2 ^ 52 + r := Nat.min_eq_left hfin.le
  have hlt : sh * 2 ^ 52 + r < 2 ^ 63 := lt_trans hfin (by decide)
  rw [hp, units_of_fmag _ _ (fmag_packSign neg _ hlt)]
  rcases Nat.lt_or_ge r (2 ^ 52) with h | h
  · obtain rfl : sh = 0 := by omega
    rw [if_pos (by omega), pow_zero]
    omega
  · rcases Nat.lt_or_ge r (2 ^ 53) with h' | h'
    · rw [if_neg (by omega), show (sh * 2 ^ 52 + r) / 2 ^ 52 - 1 = sh by omega,
        show 2 ^ 52 + (sh * 2 ^ 52 + r) % 2 ^ 52 = r by omega]
    · obtain rfl : r = 2 ^ 53 := by omega
      rw [if_neg (by omega), show (sh * 2 ^ 52 + 2 ^ 53) / 2 ^ 52 - 1 = sh + 1 by omega,
        show 2 ^ 52 + (sh * 2 ^ 52 + 2 ^ 53) % 2 ^ 52 = 2 ^ 52 by omega, pow_succ (n := sh),
        pow_succ (n := 52)]
      exact (mul_left_comm _ _ _).trans (by rw [mul_comm (2 ^ sh), mul_right_comm])

theorem fle_zero_iff (c : F64) :
    fle c fzero = true ↔ isNaN c = false ∧ (c.toNat = 0 ∨ 2 ^ 63 ≤ c.toNat) := by
  have h0 : isNaN fzero = false ∧ orderKey fzero = 0 := by decide
  rw [fle, h0.1, h0.2]
  simp only [Bool.not_false, Bool.and_true, Bool.and_eq_true, Bool.not_eq_true', decide_eq_true_eq,
    orderKey, fsign_eq, fmag]
  refine and_congr_right fun _ => ?_
  have := c.isLt
  split_ifs with h <;> omega

/-- The checks on a positive finite parameter, read off its bit pattern. -/
theorem positive_checks (c : F64) :
    (isNaN c = false ∧ fle c fzero = false ∧ c ≠ finf) ↔
      0 < c.toNat ∧ c.toNat < 0x7FF0000000000000 := by
  have hn : isNaN c = false ↔ c.toNat % 2 ^ 63 ≤ 0x7FF0000000000000 := by
    rw [isNaN, fmag, infPattern, decide_eq_false_iff_not, not_lt]
  have hf : c ≠ finf ↔ c.toNat ≠ 0x7FF0000000000000 := by
    rw [ne_eq, ← BitVec.toNat_inj]; rfl
  have hz : fle c fzero = false ↔ ¬(isNaN c = false ∧ (c.toNat = 0 ∨ 2 ^ 63 ≤ c.toNat)) := by
    rw [← fle_zero_iff]; simp
  rw [hz, hn, hf]
  have := c.isLt
  omega

/-- FILTER accepts exactly the families 0 to 2 with a positive finite cutoff (R351). -/
theorem filtValid_iff (family : BitVec 2) (c : F64) :
    filtValid family c = true ↔
      family ≠ 3#2 ∧ 0 < c.toNat ∧ c.toNat < 0x7FF0000000000000 := by
  rw [← positive_checks]
  simp [filtValid, and_assoc]

/-- LOGMAG accepts exactly a positive finite divisor (R331). -/
theorem logValid_iff (q : F64) :
    logValid q = true ↔ 0 < q.toNat ∧ q.toNat < 0x7FF0000000000000 := by
  have hg : isNaN q = false → (fgt q fzero = true ↔ fle q fzero = false) := by
    intro h
    have h0 : isNaN fzero = false := by decide
    simp [fgt, fle, h, h0]
  rw [← positive_checks]
  simp only [logValid, Bool.and_eq_true, Bool.not_eq_true', bne_iff_ne, and_assoc]
  exact and_congr_right fun h => and_congr_left fun _ => hg h

end Sys2Proof.Machine
end

