-- ==== Sys2Proof/Laws/Rom.lean ====
section
/-! SUPPORT. What shows that the ROM holds the rounded cosines and sines of R51: rational bounds on
`cos (πk/256)` and `sin (πk/256)`, and rounding to nearest told by mid-points. -/

namespace Sys2Proof.Machine

open Real

/-- Bounds on a cosine give bounds on the cosine of half the angle. -/
theorem cos_half_bounds {x lo hi a b : ℝ} (h0 : 0 ≤ x) (hπ : x ≤ π) (hlo : lo ≤ cos x)
    (hhi : cos x ≤ hi) (hb : 0 ≤ b) (ha2 : a ^ 2 ≤ (1 + lo) / 2) (hb2 : (1 + hi) / 2 ≤ b ^ 2) :
    a ≤ cos (x / 2) ∧ cos (x / 2) ≤ b := by
  rw [cos_half (by linarith [pi_pos]) hπ]
  exact ⟨le_sqrt_of_sq_le (by linarith), sqrt_le_iff.2 ⟨hb, by linarith⟩⟩

/-- Bounds on a cosine give bounds on the sine of half the angle. -/
theorem sin_half_bounds {x lo hi a b : ℝ} (h0 : 0 ≤ x) (hπ : x ≤ π) (hlo : lo ≤ cos x)
    (hhi : cos x ≤ hi) (hb : 0 ≤ b) (ha2 : a ^ 2 ≤ (1 - hi) / 2) (hb2 : (1 - lo) / 2 ≤ b ^ 2) :
    a ≤ sin (x / 2) ∧ sin (x / 2) ≤ b := by
  rw [sin_half_eq_sqrt h0 (by linarith [pi_pos])]
  exact ⟨le_sqrt_of_sq_le (by linarith), sqrt_le_iff.2 ⟨hb, by linarith⟩⟩

/-- `cos (π/256) · 2^250`, rounded down. -/
def cosStep : Int :=
  0x3ffec42d3725b6aeed1e40fde867e3b87fe362559a886076eac956fdda15e89

/-- `sin (π/256) · 2^250`, rounded down. -/
def sinStep : Int :=
  0xc90e8fe6f63c2330f1d7d06db39ea9fc095d01be8b0bc941b80ea263afe08

theorem step_bounds :
    |cos (π / 256) * 2 ^ 250 - cosStep| ≤ 32 ∧ |sin (π / 256) * 2 ^ 250 - sinStep| ≤ 32 := by
  have hπ := pi_pos
  have h2 : (0 : ℝ) ≤ cos (π / 2) ∧ cos (π / 2) ≤ 0 := by simp
  have h4 : (0x2d413cccfe779921165f626cdd52afa7c75bd82ea24eea133b45eb2160cce64 / 2 ^ 250 : ℝ) ≤ cos (π / 4) ∧
      cos (π / 4) ≤ 0x2d413cccfe779921165f626cdd52afa7c75bd82ea24eea133b45eb2160cce65 / 2 ^ 250 := by
    have := cos_half_bounds (x := π / 2) (by positivity) (by linarith) h2.1 h2.2
      (a := 0x2d413cccfe779921165f626cdd52afa7c75bd82ea24eea133b45eb2160cce64 / 2 ^ 250)
      (b := 0x2d413cccfe779921165f626cdd52afa7c75bd82ea24eea133b45eb2160cce65 / 2 ^ 250) (by positivity)
      (by norm_num) (by norm_num)
    rwa [div_div, show ((2 : ℝ) * 2) = 4 by norm_num] at this
  have h8 : (0x3b20d79e651a8c515f98408c6b0758603c2a0f4f3436ba6d76e25f08e1020dd / 2 ^ 250 : ℝ) ≤ cos (π / 8) ∧
      cos (π / 8) ≤ 0x3b20d79e651a8c515f98408c6b0758603c2a0f4f3436ba6d76e25f08e1020de / 2 ^ 250 := by
    have := cos_half_bounds (x := π / 4) (by positivity) (by linarith) h4.1 h4.2
      (a := 0x3b20d79e651a8c515f98408c6b0758603c2a0f4f3436ba6d76e25f08e1020dd / 2 ^ 250)
      (b := 0x3b20d79e651a8c515f98408c6b0758603c2a0f4f3436ba6d76e25f08e1020de / 2 ^ 250) (by positivity)
      (by norm_num) (by norm_num)
    rwa [div_div, show ((4 : ℝ) * 2) = 8 by norm_num] at this
  have h16 : (0x3ec52f9feeb96055885ca8d87f4a9c8bb17d038ff63c62b86c665cc86d23a2c / 2 ^ 250 : ℝ) ≤ cos (π / 16) ∧
      cos (π / 16) ≤ 0x3ec52f9feeb96055885ca8d87f4a9c8bb17d038ff63c62b86c665cc86d23a2d / 2 ^ 250 := by
    have := cos_half_bounds (x := π / 8) (by positivity) (by linarith) h8.1 h8.2
      (a := 0x3ec52f9feeb96055885ca8d87f4a9c8bb17d038ff63c62b86c665cc86d23a2c / 2 ^ 250)
      (b := 0x3ec52f9feeb96055885ca8d87f4a9c8bb17d038ff63c62b86c665cc86d23a2d / 2 ^ 250) (by positivity)
      (by norm_num) (by norm_num)
    rwa [div_div, show ((8 : ℝ) * 2) = 16 by norm_num] at this
  have h32 : (0x3fb11b47a24a4b3c104e43bf71c9ba7bd68b25db465a8d59ec9a06d1a3bee8d / 2 ^ 250 : ℝ) ≤ cos (π / 32) ∧
      cos (π / 32) ≤ 0x3fb11b47a24a4b3c104e43bf71c9ba7bd68b25db465a8d59ec9a06d1a3bee8e / 2 ^ 250 := by
    have := cos_half_bounds (x := π / 16) (by positivity) (by linarith) h16.1 h16.2
      (a := 0x3fb11b47a24a4b3c104e43bf71c9ba7bd68b25db465a8d59ec9a06d1a3bee8d / 2 ^ 250)
      (b := 0x3fb11b47a24a4b3c104e43bf71c9ba7bd68b25db465a8d59ec9a06d1a3bee8e / 2 ^ 250) (by positivity)
      (by norm_num) (by norm_num)
    rwa [div_div, show ((16 : ℝ) * 2) = 32 by norm_num] at this
  have h64 : (0x3fec43c6f2dafbc75087a3b6abd6514f73d4f92ea900c942d5d41c029b7c994 / 2 ^ 250 : ℝ) ≤ cos (π / 64) ∧
      cos (π / 64) ≤ 0x3fec43c6f2dafbc75087a3b6abd6514f73d4f92ea900c942d5d41c029b7c995 / 2 ^ 250 := by
    have := cos_half_bounds (x := π / 32) (by positivity) (by linarith) h32.1 h32.2
      (a := 0x3fec43c6f2dafbc75087a3b6abd6514f73d4f92ea900c942d5d41c029b7c994 / 2 ^ 250)
      (b := 0x3fec43c6f2dafbc75087a3b6abd6514f73d4f92ea900c942d5d41c029b7c995 / 2 ^ 250) (by positivity)
      (by norm_num) (by norm_num)
    rwa [div_div, show ((32 : ℝ) * 2) = 64 by norm_num] at this
  have h128 : (0x3ffb10c1099a19765595d548d9a585cc95a3eda4a0860bccbbdbcc36a3f8c1f / 2 ^ 250 : ℝ) ≤ cos (π / 128) ∧
      cos (π / 128) ≤ 0x3ffb10c1099a19765595d548d9a585cc95a3eda4a0860bccbbdbcc36a3f8c20 / 2 ^ 250 := by
    have := cos_half_bounds (x := π / 64) (by positivity) (by linarith) h64.1 h64.2
      (a := 0x3ffb10c1099a19765595d548d9a585cc95a3eda4a0860bccbbdbcc36a3f8c1f / 2 ^ 250)
      (b := 0x3ffb10c1099a19765595d548d9a585cc95a3eda4a0860bccbbdbcc36a3f8c20 / 2 ^ 250) (by positivity)
      (by norm_num) (by norm_num)
    rwa [div_div, show ((64 : ℝ) * 2) = 128 by norm_num] at this
  have h256 : (0x3ffec42d3725b6aeed1e40fde867e3b87fe362559a886076eac956fdda15e89 / 2 ^ 250 : ℝ) ≤ cos (π / 256) ∧
      cos (π / 256) ≤ 0x3ffec42d3725b6aeed1e40fde867e3b87fe362559a886076eac956fdda15e8b / 2 ^ 250 := by
    have := cos_half_bounds (x := π / 128) (by positivity) (by linarith) h128.1 h128.2
      (a := 0x3ffec42d3725b6aeed1e40fde867e3b87fe362559a886076eac956fdda15e89 / 2 ^ 250)
      (b := 0x3ffec42d3725b6aeed1e40fde867e3b87fe362559a886076eac956fdda15e8b / 2 ^ 250) (by positivity)
      (by norm_num) (by norm_num)
    rwa [div_div, show ((128 : ℝ) * 2) = 256 by norm_num] at this
  have hs : (0xc90e8fe6f63c2330f1d7d06db39ea9fc095d01be8b0bc941b80ea263afe08 / 2 ^ 250 : ℝ) ≤ sin (π / 256) ∧
      sin (π / 256) ≤ 0xc90e8fe6f63c2330f1d7d06db39ea9fc095d01be8b0bc941b80ea263afe28 / 2 ^ 250 := by
    have := sin_half_bounds (x := π / 128) (by positivity) (by linarith) h128.1 h128.2
      (a := 0xc90e8fe6f63c2330f1d7d06db39ea9fc095d01be8b0bc941b80ea263afe08 / 2 ^ 250)
      (b := 0xc90e8fe6f63c2330f1d7d06db39ea9fc095d01be8b0bc941b80ea263afe28 / 2 ^ 250) (by positivity)
      (by norm_num) (by norm_num)
    rwa [div_div, show ((128 : ℝ) * 2) = 256 by norm_num] at this
  rw [div_le_iff₀ (by positivity), le_div_iff₀ (by positivity)] at h256 hs
  unfold cosStep sinStep
  constructor <;> rw [abs_le] <;> push_cast <;> constructor <;> linarith [h256.1, h256.2, hs.1, hs.2]

/-- `(cos (πk/256), sin (πk/256))`, scaled by `2^250`, by repeated turns through `π/256`. -/
def turn : Nat → Int × Int
  | 0 => (2 ^ 250, 0)
  | k + 1 =>
    (((turn k).1 * cosStep - (turn k).2 * sinStep) / 2 ^ 250,
      ((turn k).2 * cosStep + (turn k).1 * sinStep) / 2 ^ 250)

/-- A product of two scaled and rounded numbers is near the scaled product. -/
theorem scaled_mul_error {P x y X Y e : ℝ} (hP : 0 < P) (hx : |x * P - X| ≤ e)
    (hy : |y * P - Y| ≤ 32) (hx1 : |x| ≤ 1) :
    |x * y * P - X * Y / P| ≤ 32 + e * (|Y| / P) := by
  have h : x * y * P - X * Y / P = x * (y * P - Y) + (x * P - X) * (Y / P) := by
    field_simp
    ring
  rw [h]
  refine (abs_add_le _ _).trans (add_le_add ?_ ?_)
  · rw [abs_mul]
    nlinarith [abs_nonneg x, abs_nonneg (y * P - Y)]
  · rw [abs_mul, abs_div, abs_of_pos hP]
    exact mul_le_mul_of_nonneg_right hx (by positivity)

/-- Rounding a quotient of integers down moves it by at most 1. -/
theorem floor_div_error (n : Int) : |(n : ℝ) / 2 ^ 250 - ((n / 2 ^ 250 : Int) : ℝ)| ≤ 1 := by
  have h1 : n / 2 ^ 250 * 2 ^ 250 ≤ n := Int.ediv_mul_le n (by norm_num)
  have h2 : n < (n / 2 ^ 250 + 1) * 2 ^ 250 := Int.lt_ediv_add_one_mul_self n (by norm_num)
  have h1' : ((n / 2 ^ 250 : Int) : ℝ) * 2 ^ 250 ≤ n := by exact_mod_cast h1
  have h2' : (n : ℝ) < (((n / 2 ^ 250 : Int) : ℝ) + 1) * 2 ^ 250 := by exact_mod_cast h2
  rw [abs_le]
  constructor
  · have : ((n / 2 ^ 250 : Int) : ℝ) ≤ (n : ℝ) / 2 ^ 250 := by
      rw [le_div_iff₀ (by positivity)]; exact h1'
    linarith
  · have : (n : ℝ) / 2 ^ 250 ≤ ((n / 2 ^ 250 : Int) : ℝ) + 1 := by
      rw [div_le_iff₀ (by positivity)]; exact h2'.le
    linarith

/-- The turns stay near the scaled cosines and sines. -/
theorem turn_error (k : Nat) :
    |cos (k * (π / 256)) * 2 ^ 250 - (turn k).1| ≤ 4352 * ((65 / 64) ^ k - 1) ∧
    |sin (k * (π / 256)) * 2 ^ 250 - (turn k).2| ≤ 4352 * ((65 / 64) ^ k - 1) := by
  induction k with
  | zero => norm_num [turn]
  | succ k ih =>
    obtain ⟨hc, hs⟩ := ih
    obtain ⟨bc, bs⟩ := step_bounds
    have hP : (0 : ℝ) < 2 ^ 250 := by positivity
    have hsum : |(cosStep : ℝ)| / 2 ^ 250 + |(sinStep : ℝ)| / 2 ^ 250 ≤ 65 / 64 := by
      rw [← add_div, div_le_iff₀ hP, abs_of_nonneg (by norm_num [cosStep]),
        abs_of_nonneg (by norm_num [sinStep])]
      norm_num [cosStep, sinStep]
    have e0 := (abs_nonneg _).trans hc
    have key : ∀ e : ℝ, 0 ≤ e →
        32 + e * (|(cosStep : ℝ)| / 2 ^ 250) + (32 + e * (|(sinStep : ℝ)| / 2 ^ 250)) + 1
          ≤ 65 / 64 * e + 68 := by
      intro e he
      nlinarith [mul_le_mul_of_nonneg_left hsum he]
    have hk := key _ e0
    have hfin : 65 / 64 * (4352 * ((65 / 64) ^ k - 1)) + 68
        = (4352 * ((65 / 64) ^ (k + 1) - 1) : ℝ) := by ring
    rw [hfin] at hk
    have hang : ((k + 1 : Nat) : ℝ) * (π / 256) = k * (π / 256) + π / 256 := by push_cast; ring
    have c1 := abs_cos_le_one (k * (π / 256))
    have s1 := abs_sin_le_one (k * (π / 256))
    rw [hang, cos_add, sin_add]
    constructor
    · refine le_trans ?_ hk
      have m1 := scaled_mul_error hP hc bc c1
      have m2 := scaled_mul_error hP hs bs s1
      have f := floor_div_error ((turn k).1 * cosStep - (turn k).2 * sinStep)
      simp only [turn]
      push_cast at f ⊢
      rw [sub_div] at f
      rw [abs_le] at *
      constructor <;> linarith [m1.1, m1.2, m2.1, m2.2, f.1, f.2]
    · refine le_trans ?_ hk
      have m1 := scaled_mul_error hP hs bc s1
      have m2 := scaled_mul_error hP hc bs c1
      have f := floor_div_error ((turn k).2 * cosStep + (turn k).1 * sinStep)
      simp only [turn]
      push_cast at f ⊢
      rw [add_div] at f
      rw [abs_le] at *
      constructor <;> linarith [m1.1, m1.2, m2.1, m2.2, f.1, f.2]

/-- The turns used by the ROM, with one bound for all. -/
theorem turn_error_lt {k : Nat} (hk : k < 256) :
    |cos (k * (π / 256)) * 2 ^ 250 - (turn k).1| ≤ 2 ^ 18 ∧
    |sin (k * (π / 256)) * 2 ^ 250 - (turn k).2| ≤ 2 ^ 18 := by
  have h : (4352 * ((65 / 64) ^ k - 1) : ℝ) ≤ 2 ^ 18 := by
    have : ((65 : ℝ) / 64) ^ k ≤ (65 / 64) ^ 255 :=
      pow_le_pow_right₀ (by norm_num) (by omega)
    have h2 : ((65 : ℝ) / 64) ^ 255 ≤ 54 := by norm_num
    linarith
  exact ⟨(turn_error k).1.trans h, (turn_error k).2.trans h⟩

/-- The magnitude in units of a pattern without its sign bit. -/
def magUnits (m : Nat) : Nat :=
  if m / 2 ^ 52 = 0 then m % 2 ^ 52 else (2 ^ 52 + m % 2 ^ 52) * 2 ^ (m / 2 ^ 52 - 1)

theorem units_eq_magUnits (x : F64) : units x = magUnits (fmag x) := rfl

/-- The binary64 encoding is monotone in the magnitude. -/
theorem magUnits_strictMono : StrictMono magUnits := by
  refine strictMono_nat_of_lt_succ fun m => ?_
  have hd := Nat.div_add_mod m (2 ^ 52)
  have hr := Nat.mod_lt m (show 0 < 2 ^ 52 by norm_num)
  by_cases hc : m % 2 ^ 52 + 1 < 2 ^ 52
  · have h1 : (m + 1) / 2 ^ 52 = m / 2 ^ 52 := by omega
    have h2 : (m + 1) % 2 ^ 52 = m % 2 ^ 52 + 1 := by omega
    simp only [magUnits, h1, h2]
    split
    · omega
    · exact Nat.mul_lt_mul_of_pos_right (by omega) (by positivity)
  · have h1 : (m + 1) / 2 ^ 52 = m / 2 ^ 52 + 1 := by omega
    have h2 : (m + 1) % 2 ^ 52 = 0 := by omega
    simp only [magUnits, h1, h2]
    rw [if_neg (Nat.succ_ne_zero _)]
    split
    · rename_i h0
      rw [h0]
      simpa using hr
    · rename_i h0
      have hp : 2 ^ (m / 2 ^ 52 + 1 - 1) = 2 * 2 ^ (m / 2 ^ 52 - 1) := by
        rw [← Nat.pow_succ', show m / 2 ^ 52 + 1 - 1 = (m / 2 ^ 52 - 1).succ by omega]
      have hpos : 0 < 2 ^ (m / 2 ^ 52 - 1) := by positivity
      rw [hp]
      nlinarith

/-- The finite values below and above a nonzero one, in units. -/
def lowerUnits (v : F64) : Int :=
  if fsign v then -(magUnits (fmag v + 1) : Int) else magUnits (fmag v - 1)

def upperUnits (v : F64) : Int :=
  if fsign v then -(magUnits (fmag v - 1) : Int) else magUnits (fmag v + 1)

/-- No value lies strictly between a nonzero one and its neighbours. -/
theorem signedUnits_gap (v w : F64) :
    signedUnits w ≤ lowerUnits v ∨ signedUnits w = signedUnits v ∨
      upperUnits v ≤ signedUnits w := by
  have mono : ∀ {a b : Nat}, a ≤ b → magUnits a ≤ magUnits b :=
    fun h => magUnits_strictMono.monotone h
  have hpos : ∀ a : Nat, (0 : Int) ≤ magUnits a := fun a => Int.natCast_nonneg _
  have hle : ∀ {a b : Nat}, a ≤ b → (magUnits a : Int) ≤ magUnits b :=
    fun h => by exact_mod_cast mono h
  simp only [signedUnits, lowerUnits, upperUnits, units_eq_magUnits]
  have h0 := hpos (fmag w)
  have h1 := hpos (fmag v - 1)
  rcases lt_trichotomy (fmag w) (fmag v) with h | h | h
  · have := hle (show fmag w ≤ fmag v - 1 by omega)
    split <;> split <;> omega
  · rw [h]
    have := hle (show fmag v - 1 ≤ fmag v by omega)
    split <;> split <;> omega
  · have := hle (show fmag v + 1 ≤ fmag w by omega)
    have := hle (show fmag v - 1 ≤ fmag v + 1 by omega)
    split <;> split <;> omega

/-- The neighbours of a nonzero value are other values. -/
theorem neighbours_ne {v : F64} (hv : fmag v ≠ 0) :
    lowerUnits v < signedUnits v ∧ signedUnits v < upperUnits v := by
  have h1 : (magUnits (fmag v - 1) : Int) < magUnits (fmag v) := by
    exact_mod_cast magUnits_strictMono (show fmag v - 1 < fmag v by omega)
  have h2 : (magUnits (fmag v) : Int) < magUnits (fmag v + 1) := by
    exact_mod_cast magUnits_strictMono (show fmag v < fmag v + 1 by omega)
  simp only [signedUnits, lowerUnits, upperUnits, units_eq_magUnits]
  split <;> constructor <;> omega

theorem abs_sub_div (x a : ℝ) : |x - a / 2 ^ 1074| = |x * 2 ^ 1074 - a| / 2 ^ 1074 := by
  have hP : (0 : ℝ) < 2 ^ 1074 := by positivity
  rw [eq_div_iff hP.ne', ← abs_of_pos hP, ← abs_mul, sub_mul, abs_of_pos hP, div_mul_cancel₀ _ hP.ne']

/-- A real strictly between the mid-points to a value's neighbours rounds to the value. -/
theorem isNearest_of_midpoints {v : F64} {x : ℝ} (hf : isFinite v = true) (hv : fmag v ≠ 0)
    (hlo : (lowerUnits v : ℝ) + signedUnits v < 2 * (x * 2 ^ 1074))
    (hhi : 2 * (x * 2 ^ 1074) < signedUnits v + (upperUnits v : ℝ)) : IsNearest x v := by
  refine ⟨hf, fun w _ => ?_⟩
  simp only [abs_sub_div]
  have hP : (0 : ℝ) < 2 ^ 1074 := by positivity
  have hn := neighbours_ne hv
  have hl : (lowerUnits v : ℝ) < signedUnits v := by exact_mod_cast hn.1
  have hu : (signedUnits v : ℝ) < upperUnits v := by exact_mod_cast hn.2
  generalize x * 2 ^ 1074 = X at *
  rcases signedUnits_gap v w with h | h | h
  · have h' : (signedUnits w : ℝ) ≤ lowerUnits v := by exact_mod_cast h
    have hlt : |X - signedUnits v| / 2 ^ 1074 < |X - signedUnits w| / 2 ^ 1074 :=
      div_lt_div_of_pos_right
        (lt_of_lt_of_le (abs_lt.2 ⟨by linarith, by linarith⟩) (le_abs_self _)) hP
    exact ⟨hlt.le, fun he => absurd he hlt.ne⟩
  · rw [h]
    exact ⟨le_rfl, fun _ => .inl rfl⟩
  · have h' : (upperUnits v : ℝ) ≤ signedUnits w := by exact_mod_cast h
    have hlt : |X - signedUnits v| / 2 ^ 1074 < |X - signedUnits w| / 2 ^ 1074 :=
      div_lt_div_of_pos_right
        (lt_of_lt_of_le (abs_lt.2 ⟨by linarith, by linarith⟩) (neg_le_abs _)) hP
    exact ⟨hlt.le, fun he => absurd he hlt.ne⟩

/-- Whether all within `2^18` of `c`, on the scale `2^250`, lies between the mid-points of `v`. -/
def roundsScaled (v : F64) (c : Int) : Bool :=
  isFinite v && fmag v != 0 &&
    decide ((lowerUnits v + signedUnits v) * 2 ^ 250 + 2 ^ 19 * 2 ^ 1074 < 2 * c * 2 ^ 1074) &&
    decide (2 * c * 2 ^ 1074 + 2 ^ 19 * 2 ^ 1074 < (signedUnits v + upperUnits v) * 2 ^ 250)

/-- The integer check shows the rounding: with `turn_error_lt`, for the entries of the ROM. -/
theorem isNearest_of_roundsScaled {v : F64} {c : Int} {x : ℝ} (h : roundsScaled v c = true)
    (hx : |x * 2 ^ 250 - c| ≤ 2 ^ 18) : IsNearest x v := by
  simp only [roundsScaled, Bool.and_eq_true, decide_eq_true_eq, bne_iff_ne] at h
  obtain ⟨⟨⟨h1, h2⟩, h3⟩, h4⟩ := h
  have h3' : ((lowerUnits v + signedUnits v : Int) : ℝ) * 2 ^ 250 + 2 ^ 19 * 2 ^ 1074
      < 2 * c * 2 ^ 1074 := by exact_mod_cast h3
  have h4' : 2 * (c : ℝ) * 2 ^ 1074 + 2 ^ 19 * 2 ^ 1074
      < ((signedUnits v + upperUnits v : Int) : ℝ) * 2 ^ 250 := by exact_mod_cast h4
  push_cast at h3' h4'
  obtain ⟨hx1, hx2⟩ := abs_le.1 hx
  refine isNearest_of_midpoints h1 h2 ?_ ?_
  all_goals
    have hQ : (0 : ℝ) < 2 ^ 1074 := by positivity
    have hP : (0 : ℝ) < 2 ^ 250 := by positivity
    generalize (2 : ℝ) ^ 1074 = Q at *
    generalize (2 : ℝ) ^ 250 = P at *
    refine lt_of_mul_lt_mul_right ?_ hP.le
    nlinarith

/-- Zero rounds to zero. -/
theorem isNearest_zero {v : F64} (hv : fmag v = 0) : IsNearest 0 v := by
  have hs : signedUnits v = 0 := by simp [signedUnits, units_eq_magUnits, hv, magUnits]
  refine ⟨by simp [isFinite, hv, infPattern], fun w _ => ?_⟩
  rw [hs, abs_sub_div, abs_sub_div]
  refine ⟨by simp; positivity, fun he => .inl ?_⟩
  have h0 : |(signedUnits w : ℝ)| = 0 := by
    field_simp at he
    simpa using he.symm
  exact_mod_cast (abs_eq_zero.1 h0).symm

end Sys2Proof.Machine
end

