-- ==== Sys2Proof/Laws/Stores.lean ====
section
/-! SUPPORT. What the stores to the banks do, said once: sample stores read back, every store keeps
the canonical form, and a store to one kind of bank leaves the other kind alone. -/

namespace Sys2Proof.Machine

theorem storeZ_wf (z : BitVec 1) (val : Nat → Nat → Cplx) (cs : List (Nat × Nat)) (s : State)
    (h : Memory.wf s.mem = true) : Memory.wf (storeZ z val cs s).mem = true :=
  writeGrid_wf _ _ cs _ h

theorem storeS_wf (b : BitVec 2) (place : Nat → Nat) (val : Nat → Nat → Byte)
    (cs : List (Nat × Nat)) (s : State) (h : Memory.wf s.mem = true) :
    Memory.wf (storeS b place val cs s).mem = true :=
  writeGrid_wf _ _ cs _ h

/-- A stored sample reads back, where `place` sends the coordinates to different places. -/
theorem memFind_storeS (b : BitVec 2) (place : Nat → Nat) (val : Nat → Nat → Byte)
    (cs : List (Nat × Nat)) (s : State) (i j : Nat) (hmem : (i, j) ∈ cs)
    (hlt : ∀ c ∈ cs, place c.2 < 512)
    (hinj : ∀ c ∈ cs, place c.1 = place i → place c.2 = place j → c = (i, j)) :
    memFind (storeS b place val cs s).mem (sampleAddr b (place i) (place j)) = some (val i j) := by
  have := memFind_writeGrid_of_inside (fun i j => sampleAddr b (place i) (place j))
    (fun i j => [val i j]) cs s.mem i j 0 hmem (by simp) (fun c hc hne => by
      have : sampleAddr b (place i) (place j) ≠ sampleAddr b (place c.1) (place c.2) := fun h => by
        obtain ⟨h1, h2⟩ := sampleAddr_inj (hlt _ hmem) (hlt c hc) h
        exact hne (hinj c hc h1.symm h2.symm)
      simp only [List.length_singleton]
      omega)
  simpa using this

/-- Outside the stored samples memory is as before. -/
theorem memFind_storeS_of_outside (b : BitVec 2) (place : Nat → Nat) (val : Nat → Nat → Byte)
    (cs : List (Nat × Nat)) (s : State) (x : Nat)
    (h : ∀ c ∈ cs, x ≠ sampleAddr b (place c.1) (place c.2)) :
    memFind (storeS b place val cs s).mem x = memFind s.mem x :=
  memFind_writeGrid_of_outside _ _ cs s.mem x fun c hc => by
    have := h c hc
    simp only [List.length_singleton]
    omega

/-- A store to a complex bank leaves every sample alone. -/
theorem memFind_storeZ_of_sample (z : BitVec 1) (val : Nat → Nat → Cplx) (cs : List (Nat × Nat))
    (s : State) (x : Nat) (hx : x < 0x1000000) :
    memFind (storeZ z val cs s).mem x = memFind s.mem x :=
  memFind_storeZ_of_outside z val cs s x fun c _ => .inl (by simp only [cplxAddr]; omega)

/-- A store to a sample bank leaves every complex element alone. -/
theorem memFind_storeS_of_complex (b : BitVec 2) (place : Nat → Nat) (val : Nat → Nat → Byte)
    (cs : List (Nat × Nat)) (s : State) (x : Nat) (hx : 0x500000 ≤ x)
    (hlt : ∀ c ∈ cs, place c.1 < 512 ∧ place c.2 < 512) :
    memFind (storeS b place val cs s).mem x = memFind s.mem x :=
  memFind_storeS_of_outside b place val cs s x fun c hc => by
    have := hlt c hc
    simp only [sampleAddr]
    omega

/-- The coordinates of a region lie inside the bank. -/
theorem coords_lt (s : State) (h : s.log2n.toNat ≤ 9) {c : Nat × Nat} (hc : c ∈ coords (activeN s)) :
    c.1 < activeN s ∧ c.2 < activeN s ∧ c.1 < 512 ∧ c.2 < 512 := by
  have hN := activeN_le s h
  obtain ⟨i, j⟩ := c
  have := (mem_coords _ _ _).1 hc
  exact ⟨this.1, this.2, by omega, by omega⟩

end Sys2Proof.Machine
end

