-- ==== Sys2Proof/Laws/Submit.lean ====
section
/-! SUPPORT. What submission and a step can do, said once. -/

namespace Sys2Proof.Machine

/-- Everything a submission can do: refused with its code, or accepted with its effect (R400). -/
theorem submit_cases (i : Instr) (check : Option (BitVec 8)) (effect : State → State) (s : State) :
    (∃ code, check = some code ∧ submit i check effect s = refuse (cmdValue i) code s) ∨
      (check = none ∧ submit i check effect s = accept i (effect s)) := by
  cases check with
  | none => exact .inr ⟨rfl, rfl⟩
  | some code => exact .inl ⟨code, rfl, rfl⟩

@[simp] theorem submit_none (i : Instr) (effect : State → State) (s : State) :
    submit i none effect s = accept i (effect s) := rfl

@[simp] theorem submit_some (i : Instr) (code : BitVec 8) (effect : State → State) (s : State) :
    submit i (some code) effect s = refuse (cmdValue i) code s := rfl

theorem checkN_of_legal (own : Option (BitVec 8)) (s : State) (h : s.log2n.toNat ≤ 9) :
    checkN own s = own := by simp [checkN, h]

theorem checkN_of_illegal (own : Option (BitVec 8)) (s : State) (h : 9 < s.log2n.toNat) :
    checkN own s = some codeShape := by simp [checkN, h]

/-- Everything a refusal can do (R404). -/
theorem refuse_cases (v : BitVec 64) (code : BitVec 8) (s : State) :
    (s.err = true ∧ refuse v code s = { s with eovf := true }) ∨
      (s.err = false ∧
        refuse v code s = { s with err := true, errcode := code, errcmd := v }) := by
  cases h : s.err <;> simp [refuse, h]

/-- Everything a step can do: the next event settles, or `exec` runs a submitted command. -/
theorem step_cases (s : State) :
    (∃ t, nextActivity s = .settled t ∧ step s = .next t) ∨
      (∃ i t, nextActivity s = .command i t ∧ step s = exec i t) := by
  unfold step
  cases nextActivity s with
  | settled t => exact .inl ⟨t, rfl, rfl⟩
  | command i t => exact .inr ⟨i, t, rfl, rfl⟩

/-- Everything a submitted CMD value can do (R400). -/
theorem submitValue_cases (v : BitVec 64) (s : State) :
    (∃ i, decode v = .command i ∧ submitValue v s = .command i s) ∨
      (∃ c, decode v = .illegal c ∧ submitValue v s = .settled (refuse v codeIllegal s)) := by
  unfold submitValue
  cases decode v with
  | command i => exact .inl ⟨i, rfl, rfl⟩
  | illegal c => exact .inr ⟨c, rfl, rfl⟩

/-- Everything a host write can do (R111). -/
theorem busWrite_cases (a n : Nat) (v : BitVec 64) (s : State) :
    busWrite a n v s = .settled (answer .error s) ∨
      ((accessible s a n = true ∧ readOnly a = false) ∧
        ((a = 0x028 ∧ busWrite a n v s = submitValue v (answer (.okay 0#64) s)) ∨
          (a ≠ 0x028 ∧
            busWrite a n v s = .settled (answer (.okay 0#64) (writeValue a n v s))))) := by
  unfold busWrite
  split_ifs with h1 h2
  · simp only [Bool.and_eq_true, Bool.not_eq_true'] at h1
    exact .inr ⟨h1, .inl ⟨h2, rfl⟩⟩
  · simp only [Bool.and_eq_true, Bool.not_eq_true'] at h1
    exact .inr ⟨h1, .inr ⟨h2, rfl⟩⟩
  · exact .inl rfl

/-- Everything a host read can do (R111). -/
theorem busRead_cases (a n : Nat) (s : State) :
    (accessible s a n = true ∧ busRead a n s
        = answer (.okay (readValue s a n)) (if inBank a then endReading s else s)) ∨
      (accessible s a n = false ∧ busRead a n s = answer .error s) := by
  cases h : accessible s a n <;> simp [busRead, h]

/-- Every command ends in a next state (R272, R401, R404). -/
theorem exec_next (i : Instr) (s : State) : ∃ t, exec i s = .next t := by
  cases i <;> exact ⟨_, rfl⟩

end Sys2Proof.Machine
end

