-- ==== Sys2Proof/Laws/Transforms.lean ====
section
/-! SUPPORT. Lengths and entries of the reference transforms and of the regions they work on. -/

namespace Sys2Proof.Machine

theorem evens_length {α : Type} (x : List α) : (evens x).length = (x.length + 1) / 2 := by
  induction x using evens.induct with
  | case1 => simp [evens]
  | case2 => simp [evens]
  | case3 x y rest ih => simp only [evens, List.length_cons, ih]; omega

theorem odds_length {α : Type} (x : List α) : (odds x).length = x.length / 2 := by
  induction x using odds.induct with
  | case1 => simp [odds]
  | case2 => simp [odds]
  | case3 x y rest ih => simp only [odds, List.length_cons, ih]; omega

theorem evens_getElem? {α : Type} (x : List α) (k : Nat) : (evens x)[k]? = x[2 * k]? := by
  induction x using evens.induct generalizing k with
  | case1 => rfl
  | case2 x => cases k <;> simp [evens, Nat.mul_add]
  | case3 x y rest ih => cases k <;> simp [evens, Nat.mul_add, ih]

theorem odds_getElem? {α : Type} (x : List α) (k : Nat) : (odds x)[k]? = x[2 * k + 1]? := by
  induction x using odds.induct generalizing k with
  | case1 => rfl
  | case2 x => cases k <;> simp [odds]
  | case3 x y rest ih => cases k <;> simp [odds, Nat.mul_add, ih]

@[simp] theorem twiddled_length (stride k : Nat) (x : List Cplx) :
    (twiddled stride k x).length = x.length := by
  induction x generalizing k with
  | nil => rfl
  | cons o rest ih => simp [twiddled, ih]

theorem twiddled_getElem (stride k : Nat) (x : List Cplx) (i : Nat) (h : i < x.length) :
    (twiddled stride k x)[i]'(by simpa using h) = cmul (tw ((k + i) * stride)) x[i] := by
  induction x generalizing k i with
  | nil => simp at h
  | cons o rest ih =>
    cases i with
    | zero => rfl
    | succ i =>
      have := ih (k + 1) i (by simpa using h)
      simp only [twiddled, List.getElem_cons_succ, this]
      rw [Nat.add_right_comm, Nat.add_assoc k i 1]

theorem combine_length (stride : Nat) (e o : List Cplx) (h : e.length = o.length) :
    (combine stride e o).length = 2 * e.length := by
  simp [combine, h]; omega

/-- FFT1D of `2^level` values is `2^level` values. -/
theorem fft1d_length (level : Nat) (x : List Cplx) (h : x.length = 2 ^ level) :
    (fft1d level x).length = 2 ^ level := by
  induction level generalizing x with
  | zero => exact h
  | succ l ih =>
    have h2 : 2 ^ (l + 1) = 2 * 2 ^ l := by rw [pow_succ, mul_comm]
    have he : (evens x).length = 2 ^ l := by rw [evens_length]; omega
    have ho : (odds x).length = 2 ^ l := by rw [odds_length]; omega
    rw [fft1d, combine_length _ _ _ (by rw [ih _ he, ih _ ho]), ih _ he, h2]

theorem ifft1d_length (level : Nat) (x : List Cplx) (h : x.length = 2 ^ level) :
    (ifft1d level x).length = 2 ^ level := by
  rw [ifft1d, List.length_map, fft1d_length _ _ (by rwa [List.length_map])]

/-- An entry of a matrix given by a formula. -/
theorem entry_of_formula (n : Nat) (f : Nat → Nat → Cplx) {i j : Nat} (hi : i < n) (hj : j < n) :
    entry ((List.range n).map fun i => (List.range n).map fun j => f i j) i j = f i j := by
  simp [entry, hi, hj]

theorem entry_transpose (n : Nat) (m : List (List Cplx)) {i j : Nat} (hi : i < n) (hj : j < n) :
    entry (transpose n m) i j = entry m j i := entry_of_formula n _ hi hj

@[simp] theorem getRow_length (s : State) (z : BitVec 1) (i : Nat) :
    (getRow s z i).length = activeN s := by simp [getRow]

@[simp] theorem getRegion_length (s : State) (z : BitVec 1) : (getRegion s z).length = activeN s := by
  simp [getRegion]

theorem entry_getRegion (s : State) (z : BitVec 1) {i j : Nat} (hi : i < activeN s)
    (hj : j < activeN s) : entry (getRegion s z) i j = getZ s z i j := entry_of_formula _ _ hi hj

theorem entry_liftedRegion (s : State) (ss : BitVec 2) {i j : Nat} (hi : i < activeN s)
    (hj : j < activeN s) : entry (liftedRegion s ss) i j = liftSample (getS s ss i j) :=
  entry_of_formula _ _ hi hj

/-- An entry of a matrix whose rows are transformed. -/
theorem entry_map (f : List Cplx → List Cplx) (m : List (List Cplx)) {i : Nat} (j : Nat)
    (hi : i < m.length) : entry (m.map f) i j = (f (m.getD i [])).getD j czero := by
  simp [entry, hi]

/-- A transposed matrix, row by row. -/
theorem transpose_getD (n : Nat) (m : List (List Cplx)) {i : Nat} (hi : i < n) :
    (transpose n m).getD i [] = (List.range n).map fun j => entry m j i := by
  simp [transpose, hi]

/-- Rows, then columns: what the two transpositions come to (R295). -/
theorem entry_transform2d (f : List Cplx → List Cplx) (n : Nat) (m : List (List Cplx))
    (hm : m.length = n) {u v : Nat} (hu : u < n) (hv : v < n) :
    entry (transform2d f n m) u v
      = (f ((List.range n).map fun i => (f (m.getD i [])).getD v czero)).getD u czero := by
  rw [transform2d, entry_transpose n _ hu hv,
    entry_map _ _ _ (by simpa [transpose] using hv), transpose_getD n _ hv]
  congr 2
  apply List.map_congr_left
  intro i hi
  rw [entry_map _ _ _ (by rw [hm]; exact List.mem_range.1 hi)]

end Sys2Proof.Machine
end

