-- ==== Sys2Proof/WellFormed.lean ====
section
/-! DEFINITION. Well-formedness of what the host presents.

A command needs no check of its own: every field of `Instr` has its encoded width, and the register
and bank fields cover exactly the registers and banks that exist (R156). What can be ill-formed is
a host access whose write data is wider than its size (R100: data is size bytes). -/

namespace Sys2Proof

/-- The data of a write fits in the write's size (R100). -/
def Access.wellFormed : Access → Bool
  | .read _ _ => true
  | .write _ size data => decide (data.toNat < 2 ^ (8 * size.bytes))

/-- Every access among the events is well formed. -/
def eventsWellFormed (es : List Event) : Bool :=
  es.all fun
    | .access a => a.wellFormed
    | .core => true
    | .reset => true

end Sys2Proof
end

