-- ==== Sys2Proof/Tests/Slice0.lean ====
section
/-! SUPPORT. Tests against the vectors of spec/95_test_vectors.md and the examples of the command
rules, and a witness for the hypotheses of each statement. The named vector or rule gives every
expected value. -/

namespace Sys2Proof.Tests

open Sys2Proof.Machine Sys2Proof.Claims

/-! ### Building small states -/

/-- The state after a command, or the state itself where it does not answer a next one. -/
def after (i : Instr) (s : State) : State :=
  match exec i s with
  | .next t => t
  | .fault _ => s
  | .refused _ => s

/-- The state after the step that runs one event. -/
def afterEvent (e : Event) (s : State) : State :=
  match step { s with events := [e] } with
  | .next t => t
  | .fault _ => s
  | .refused _ => s

/-- Reset state with `C0 = a`, `C1 = b`, `C2 = c`. -/
def regs (a b c : Cplx) : State := setC 2#3 c (setC 1#3 b (setC 0#3 a State.reset))

/-- Reset state at `N = 2^l`. -/
def side (l : BitVec 4) : State := { State.reset with log2n := l }

/-- Puts rows into the top left of a complex bank. -/
def rowsZ (z : BitVec 1) (m : List (List Cplx)) (s : State) : State :=
  storeZ z (entry m) (coords m.length) s

/-- Puts rows into the top left of a sample bank. -/
def rowsS (b : BitVec 2) (m : List (List Byte)) (s : State) : State :=
  storeS b (fun i => i) (fun i j => (m.getD i []).getD j 0#8) (coords m.length) s

/-- The top left 2 x 2 of a complex bank. -/
def top2 (t : State) (z : BitVec 1) : List Cplx :=
  [getZ t z 0 0, getZ t z 0 1, getZ t z 1 0, getZ t z 1 1]

/-- The top left 2 x 2 of a sample bank. -/
def topS2 (t : State) (b : BitVec 2) : List Byte :=
  [getS t b 0 0, getS t b 0 1, getS t b 1 0, getS t b 1 1]

/-- A state with a command in flight. -/
def inFlight (i : Instr) : State := accept i State.reset

/-- 1.0 -/
abbrev d1 : F64 := 0x3FF0000000000000#64
/-- 2.0 -/
abbrev d2 : F64 := 0x4000000000000000#64
/-- 3.0 -/
abbrev d3 : F64 := 0x4008000000000000#64
/-- 4.0 -/
abbrev d4 : F64 := 0x4010000000000000#64
/-- 5.0 -/
abbrev d5 : F64 := 0x4014000000000000#64
/-- 10.0 -/
abbrev d10 : F64 := 0x4024000000000000#64
/-- −1.0 -/
abbrev m1 : F64 := 0xBFF0000000000000#64
/-- −2.0 -/
abbrev m2 : F64 := 0xC000000000000000#64
/-- −4.0 -/
abbrev m4 : F64 := 0xC010000000000000#64
/-- −0.0 -/
abbrev m0 : F64 := 0x8000000000000000#64
/-- +0.0 -/
abbrev p0 : F64 := 0#64

/-! ### Well-formedness of what the host presents (R100) -/

theorem test_wellFormed_read : (Access.read 0x400001#32 .b2).wellFormed = true := by decide
theorem test_wellFormed_write1_wide : (Access.write 0x400000#32 .b1 0x100#64).wellFormed = false := by
  decide
theorem test_wellFormed_write2_wide :
    (Access.write 0x400000#32 .b2 0x10000#64).wellFormed = false := by decide
theorem test_wellFormed_write4_wide :
    (Access.write 0x400000#32 .b4 0x100000000#64).wellFormed = false := by decide
theorem test_wellFormed_write8 : (Access.write 0x028#32 .b8 (-1#64)).wellFormed = true := by decide
theorem test_wellFormed_events :
    eventsWellFormed [.core, .reset, .access (.write 0x400000#32 .b1 0x100#64)] = false := by decide

/-! ### Decoding: one word per constructor, from R158 and the rules' examples -/

theorem test_decode_nop : decode 0x00000000#64 = .command .nop := by decide
theorem test_decode_cmov : decode 0x00000801#64 = .command (.cmov 0#3 1#3) := by decide
theorem test_decode_cadd : decode 0x0000DB02#64 = .command (.cadd 3#3 3#3 3#3) := by decide
theorem test_decode_csub : decode 0x00012503#64 = .command (.csub 5#3 4#3 4#3) := by decide
theorem test_decode_cmul : decode 0x00017704#64 = .command (.cmul 7#3 6#3 5#3) := by decide
theorem test_decode_cdiv : decode 0x00008805#64 = .command (.cdiv 0#3 1#3 2#3) := by decide
theorem test_decode_cconj : decode 0x00000106#64 = .command (.cconj 1#3 0#3) := by decide
theorem test_decode_cmag : decode 0x00001607#64 = .command (.cmag 6#3 2#3) := by decide
theorem test_decode_cscln : decode 0x00000108#64 = .command (.cscln 1#3 0#3) := by decide
theorem test_decode_twld : decode 0x01FE0709#64 = .command (.twld 7#3 255#8) := by decide
theorem test_decode_bfly : decode 0x0100D00A#64 = .command (.bfly 2#3 3#3 128#8) := by decide
theorem test_decode_bflyw : decode 0x0001AF0B#64 = .command (.bflyw 5#3 6#3 7#3) := by decide
theorem test_decode_cld : decode 0x3FFFFA10#64 = .command (.cld 2#3 1#1 511#9 511#9) := by decide
theorem test_decode_cst : decode 0x00601011#64 = .command (.cst 0#3 0#1 1#9 3#9) := by decide
theorem test_decode_lift : decode 0x00001020#64 = .command (.lift 0#1 1#2) := by decide
theorem test_decode_fftrow : decode 0x00040021#64 = .command (.fftrow 0#1 4#9) := by decide
theorem test_decode_ifftrow : decode 0x01FF0022#64 = .command (.ifftrow 0#1 511#9) := by decide
theorem test_decode_fftrows : decode 0x00000123#64 = .command (.fftrows 1#1) := by decide
theorem test_decode_ifftrows : decode 0x00000124#64 = .command (.ifftrows 1#1) := by decide
theorem test_decode_trans : decode 0x00000025#64 = .command (.trans 0#1) := by decide
theorem test_decode_zcopy : decode 0x00000226#64 = .command (.zcopy 0#1 1#1) := by decide
theorem test_decode_realclamp : decode 0x00000E27#64 = .command (.realclamp 3#2 1#1) := by decide
theorem test_decode_fft2d : decode 0x00000128#64 = .command (.fft2d 1#1 0#2) := by decide
theorem test_decode_ifft2d : decode 0x00000F29#64 = .command (.ifft2d 3#2 1#1 1#1) := by decide
theorem test_decode_filter : decode 0x0000012A#64 = .command (.filter 1#1 0#1) := by decide
theorem test_decode_logmag : decode 0x00000A2B#64 = .command (.logmag 2#2 1#1) := by decide

/-- V-RC-57 to 59, V-BF-6, V-BF-20, V-LS-6, V-2D-14, V-2D-15, V-EX-4: must-be-zero bits. -/
theorem test_decode_mustBeZero :
    [0x4801#64, 0x28802#64, 0x4009#64, 0x10A#64, 0x8021#64, 0x40000010#64, 0x1029#64, 0x426#64,
      0x100#64].all (fun v => decide (decode v = .illegal .mustBeZero)) = true := by decide

/-- V-EX-2, V-EX-3, V-EX-1. -/
theorem test_decode_reserved :
    decode 0x0C#64 = .illegal .reservedOpcode ∧ decode 0xFFFFFFFF#64 = .illegal .reservedOpcode ∧
    decode 0x100000000#64 = .illegal .upperBits := by decide

/-- The encoder on the example of R270. -/
theorem test_encode_cld : encode (.cld 4#3 1#1 3#9 5#9) = 0x00A03C10#32 := by decide

/-- The example of R171's pseudo-instruction `TW`: W_16^1 is ROM entry 32 (V-RC-53). -/
theorem test_pseudoTw : pseudoTw 2#3 1 16 = .twld 2#3 32#8 := by decide

/-- The assembler form of R270's example. -/
theorem test_asmText_cld : asmText (.cld 4#3 1#1 3#9 5#9) = "CLD c4, z1, 3, 5" := by decide +kernel

/-! ### Register commands -/

/-- V-RC-2: NOP does not read N. -/
theorem test_nop_at_illegal_side : (after .nop (side 12#4)).pending = some .nop := by decide

/-- V-RC-3. -/
theorem test_cmov :
    getC (after (.cmov 0#3 1#3) (regs czero ⟨0x4004000000000000#64, m0⟩ czero)) 0#3
      = ⟨0x4004000000000000#64, m0⟩ := by decide

/-- V-RC-8: overflow in one half, an exact zero sum in the other. -/
theorem test_cadd_overflow :
    getC (after (.cadd 2#3 0#3 1#3)
      (regs ⟨0x7FEFFFFFFFFFFFFF#64, d1⟩ ⟨0x7FEFFFFFFFFFFFFF#64, m1⟩ czero)) 2#3
      = ⟨finf, p0⟩ := by decide +kernel

/-- V-RC-9: the NaN result is canonical. -/
theorem test_cadd_nan :
    getC (after (.cadd 2#3 0#3 1#3) (regs ⟨0x7FF0000000000001#64, d1⟩ ⟨d1, d1⟩ czero)) 2#3
      = ⟨qnan, d2⟩ := by decide +kernel

/-- V-RC-14. -/
theorem test_csub_zeros :
    getC (after (.csub 2#3 0#3 1#3) (regs ⟨m0, m0⟩ ⟨p0, m0⟩ czero)) 2#3 = ⟨m0, p0⟩ := by
  decide +kernel

/-- V-RC-15. -/
theorem test_cmul :
    getC (after (.cmul 2#3 0#3 1#3) (regs ⟨d1, d2⟩ ⟨d3, d4⟩ czero)) 2#3
      = ⟨0xC014000000000000#64, d10⟩ := by decide +kernel

/-- V-RC-16: no Annex G recovery. -/
theorem test_cmul_infinity :
    getC (after (.cmul 2#3 0#3 1#3) (regs ⟨finf, p0⟩ ⟨p0, d1⟩ czero)) 2#3 = ⟨qnan, finf⟩ := by
  decide +kernel

/-- V-RC-28. -/
theorem test_cdiv_third :
    getC (after (.cdiv 0#3 1#3 2#3) (regs czero ⟨d1, p0⟩ ⟨d3, p0⟩)) 0#3
      = ⟨0x3FD5555555555555#64, p0⟩ := by decide +kernel

/-- V-RC-24: division by zero is no error. -/
theorem test_cdiv_zero :
    getC (after (.cdiv 0#3 1#3 2#3) (regs czero ⟨d1, d1⟩ czero)) 0#3 = ⟨qnan, qnan⟩ ∧
    (after (.cdiv 0#3 1#3 2#3) (regs czero ⟨d1, d1⟩ czero)).err = false := by decide +kernel

/-- V-RC-31, in other registers: the sign flips and the payload stays. -/
theorem test_cconj_payload :
    getC (after (.cconj 1#3 1#3) (regs czero ⟨d1, 0x7FF0000000000001#64⟩ czero)) 1#3
      = ⟨d1, 0xFFF0000000000001#64⟩ := by decide

/-- V-RC-35. -/
theorem test_cmag_root2 :
    getC (after (.cmag 6#3 2#3) (regs czero czero ⟨d1, d1⟩)) 6#3
      = ⟨0x3FF6A09E667F3BCD#64, p0⟩ := by decide +kernel

/-- V-RC-37: magnitude of (∞, NaN) is NaN. -/
theorem test_cmag_infNan :
    getC (after (.cmag 6#3 2#3) (regs czero czero ⟨finf, qnan⟩)) 6#3 = ⟨qnan, p0⟩ := by
  decide +kernel

/-- V-RC-44: 1.5 units round to 2. -/
theorem test_cscln_subnormal :
    getC (after (.cscln 0#3 0#3) (setC 0#3 ⟨3#64, p0⟩ (side 1#4))) 0#3 = ⟨2#64, p0⟩ := by
  decide +kernel

/-- V-RC-48: refused with SHAPE. -/
theorem test_cscln_shape :
    (after (.cscln 0#3 0#3) (side 10#4)).errcode = 2#8 ∧
    (after (.cscln 0#3 0#3) (side 10#4)).errcmd = 8#64 := by decide

/-- V-RC-52. -/
theorem test_twld :
    getC (after (.twld 7#3 255#8) State.reset) 7#3
      = ⟨0xBFEFFF62169B92DB#64, 0xBF8921D1FCDEC784#64⟩ := by decide

/-! ### Butterflies and row transforms -/

/-- V-BF-3. -/
theorem test_bfly :
    (fun t => (getC t 0#3, getC t 1#3))
        (after (.bfly 0#3 1#3 64#8) (regs ⟨d1, p0⟩ ⟨d1, p0⟩ czero))
      = (⟨0x3FFB504F333F9DE6#64, 0xBFE6A09E667F3BCD#64⟩,
         ⟨0x3FD2BEC333018866#64, 0x3FE6A09E667F3BCD#64⟩) := by decide +kernel

/-- V-BF-4, in another register: A = B, the difference is written last. And (1, −0) by R240's
pseudocode with R203 and R211 (log entry 24). -/
theorem test_bfly_same :
    getC (after (.bfly 1#3 1#3 0#8) (regs czero ⟨d3, m2⟩ czero)) 1#3 = czero ∧
    getC (after (.bfly 1#3 1#3 0#8) (regs czero ⟨d1, m0⟩ czero)) 1#3 = ⟨p0, m0⟩ := by
  decide +kernel

/-- V-BF-9: W = B, its old value used. -/
theorem test_bflyw_alias :
    (fun t => (getC t 0#3, getC t 1#3))
        (after (.bflyw 0#3 1#3 1#3) (regs ⟨d1, p0⟩ ⟨d2, p0⟩ czero))
      = (⟨d5, p0⟩, ⟨0xC008000000000000#64, p0⟩) := by decide +kernel

/-- V-BF-10. -/
theorem test_fftrow :
    getRow (after (.fftrow 0#1 0#9)
        (rowsZ 0#1 [[⟨d1, p0⟩, ⟨d2, p0⟩, ⟨d3, p0⟩, ⟨d4, p0⟩], [], [], []] (side 2#4))) 0#1 0
      = [⟨d10, p0⟩, ⟨m2, d2⟩, ⟨m2, p0⟩, ⟨m2, m2⟩] := by decide +kernel

/-- V-BF-17: refused with RANGE, ERRCMD the whole word. -/
theorem test_fftrow_range :
    (after (.fftrow 0#1 4#9) (side 2#4)).errcode = 3#8 ∧
    (after (.fftrow 0#1 4#9) (side 2#4)).errcmd = 0x40021#64 := by decide

/-- V-BF-11. -/
theorem test_ifftrow :
    getRow (after (.ifftrow 0#1 1#9)
        (rowsZ 0#1 [[], [⟨d10, p0⟩, ⟨m2, d2⟩, ⟨m2, p0⟩, ⟨m2, m2⟩], [], []] (side 2#4))) 0#1 1
      = [⟨d1, m0⟩, ⟨d2, m0⟩, ⟨d3, p0⟩, ⟨d4, m0⟩] := by decide +kernel

/-- V-BF-15. -/
theorem test_fftrows :
    top2 (after (.fftrows 1#1)
        (rowsZ 1#1 [[⟨d1, p0⟩, ⟨d2, p0⟩], [⟨d3, p0⟩, ⟨d5, p0⟩]] (side 1#4))) 1#1
      = [⟨d3, p0⟩, ⟨m1, p0⟩, ⟨0x4020000000000000#64, p0⟩, ⟨m2, p0⟩] := by decide +kernel

/-- V-BF-16. -/
theorem test_ifftrows :
    top2 (after (.ifftrows 1#1)
        (rowsZ 1#1 [[⟨d3, p0⟩, ⟨m1, p0⟩], [⟨0x4020000000000000#64, p0⟩, ⟨m2, p0⟩]] (side 1#4))) 1#1
      = [⟨d1, p0⟩, ⟨d2, m0⟩, ⟨d3, p0⟩, ⟨d5, m0⟩] := by decide +kernel

/-! ### Element moves -/

/-- V-LS-3: the payload is kept. -/
theorem test_cld_payload :
    getC (after (.cld 2#3 1#1 511#9 511#9)
        (storeZ 1#1 (fun _ _ => ⟨0x7FF0000000000001#64, m0⟩) [(511, 511)] State.reset)) 2#3
      = ⟨0x7FF0000000000001#64, m0⟩ := by decide

/-- V-LS-7: SHAPE comes before RANGE. -/
theorem test_cld_shape_first : (after (.cld 0#3 0#1 0#9 4#9) (side 10#4)).errcode = 2#8 := by
  decide

/-- V-LS-2, by the host offsets of R49. -/
theorem test_cst :
    readHalf (after (.cst 0#3 0#1 1#9 3#9) (setC 0#3 ⟨d1, d2⟩ (side 2#4))) 0x1002030 = d1 ∧
    readHalf (after (.cst 0#3 0#1 1#9 3#9) (setC 0#3 ⟨d1, d2⟩ (side 2#4))) 0x1002038 = d2 := by
  decide

/-! ### 2D commands -/

/-- V-2D-1. -/
theorem test_lift :
    top2 (after (.lift 1#1 0#2) (rowsS 0#2 [[1#8, 2#8], [3#8, 255#8]] (side 1#4))) 1#1
      = [⟨d1, p0⟩, ⟨d2, p0⟩, ⟨d3, p0⟩, ⟨0x406FE00000000000#64, p0⟩] := by decide +kernel

/-- V-2D-3. -/
theorem test_trans :
    top2 (after (.trans 0#1)
        (rowsZ 0#1 [[⟨1#64, 2#64⟩, ⟨3#64, 4#64⟩], [⟨5#64, 6#64⟩, ⟨7#64, 8#64⟩]] (side 1#4))) 0#1
      = [⟨1#64, 2#64⟩, ⟨5#64, 6#64⟩, ⟨3#64, 4#64⟩, ⟨7#64, 8#64⟩] := by decide

/-- V-2D-4. -/
theorem test_zcopy :
    getZ (after (.zcopy 0#1 1#1) (rowsZ 1#1 [[⟨0x401C000000000000#64, m0⟩]] (side 0#4))) 0#1 0 0
      = ⟨0x401C000000000000#64, m0⟩ := by decide

/-- V-2D-9. -/
theorem test_realclamp :
    (fun t => (topS2 t 1#2, t.imagmax)) (after (.realclamp 1#2 0#1)
        (rowsZ 0#1 [[⟨0x405FE00000000000#64, 0x3FD0000000000000#64⟩,
            ⟨0xC008000000000000#64, 0xBD719799812DEA11#64⟩],
          [⟨0x4072C00000000000#64, qnan⟩, ⟨qnan, 0xBFE0000000000000#64⟩]] (side 1#4)))
      = ([128#8, 0#8, 255#8, 0#8], 0x3FE0000000000000#64) := by decide +kernel

/-- V-2D-10: an infinite imaginary half. -/
theorem test_realclamp_infinite :
    (after (.realclamp 3#2 1#1)
        (rowsZ 1#1 [[⟨d1, m0⟩, ⟨d2, finf⟩], [⟨d3, fninf⟩, ⟨d4, p0⟩]] (side 1#4))).imagmax
      = finf := by decide +kernel

/-- V-2D-5. -/
theorem test_fft2d :
    top2 (after (.fft2d 1#1 0#2) (rowsS 0#2 [[1#8, 2#8], [3#8, 4#8]] (side 1#4))) 1#1
      = [⟨d10, p0⟩, ⟨m2, p0⟩, ⟨m4, p0⟩, ⟨p0, p0⟩] := by decide +kernel

/-- V-2D-6. -/
theorem test_ifft2d :
    (fun t => (topS2 t 2#2, t.imagmax, top2 t 0#1)) (after (.ifft2d 2#2 0#1 1#1)
        (rowsZ 1#1 [[⟨d10, p0⟩, ⟨m2, p0⟩], [⟨m4, p0⟩, ⟨p0, p0⟩]] (side 1#4)))
      = ([1#8, 2#8, 3#8, 4#8], p0, [⟨d1, m0⟩, ⟨d2, m0⟩, ⟨d3, p0⟩, ⟨d4, m0⟩]) := by decide +kernel

/-- V-2D-8: a residue, which is not an error. -/
theorem test_ifft2d_residue :
    (fun t => (topS2 t 1#2, t.imagmax, t.err)) (after (.ifft2d 1#2 1#1 0#1)
        (rowsZ 0#1 [[⟨d4, p0⟩, ⟨p0, d4⟩], [⟨p0, p0⟩, ⟨p0, p0⟩]] (side 1#4)))
      = ([1#8, 1#8, 1#8, 1#8], d1, false) := by decide +kernel

/-- The examples of R296. -/
theorem test_sat8 :
    [0x3FE0000000000000#64, 0x3FF8000000000000#64, 0x4004000000000000#64, 0x405FE00000000000#64,
      0x406FD00000000000#64, 0x406FF00000000000#64, m0, 0xBFE0000000000000#64,
      0x3FDFFFFFFFFFFFFF#64].map sat8 = [0#8, 2#8, 2#8, 128#8, 254#8, 255#8, 0#8, 0#8, 0#8] := by
  decide +kernel

/-! ### Display and filter bank -/

/-- The spectrum of V-LM-2. -/
def specialSpectrum : List (List Cplx) :=
  [[⟨qnan, p0⟩, ⟨finf, p0⟩],
    [⟨0x6974E718D7D7625A#64, 0x6974E718D7D7625A#64⟩, ⟨p0, m0⟩]]

/-- V-LM-2, which needs no value of LN but those that R209 fixes. -/
theorem test_logmag :
    topS2 (after (.logmag 0#2 0#1)
        (rowsZ 0#1 specialSpectrum { side 1#4 with logdiv := 0x3F847AE147AE147B#64 })) 0#2
      = [0#8, 255#8, 255#8, 0#8] := by decide +kernel

/-- V-LM-1's element (0, 0), with the logarithm of 11 that R331 gives: 239.789… rounds to 240. -/
theorem test_logSample :
    logSample (fun _ => 0x40032EE3B77F374C#64) 0x3F847AE147AE147B#64 ⟨d10, p0⟩ = 240#8 := by
  decide +kernel

/-- V-FB-1, row 0, Butterworth low-pass. -/
theorem test_filter_butterworth :
    getRow (after (.filter 1#1 0#1)
        (storeZ 0#1 (fun _ _ => ⟨d2, m4⟩) (coords 4)
          { side 2#4 with family := 2#2, cutoff := d1 })) 1#1 0
      = [⟨d2, m4⟩, ⟨d1, m2⟩, ⟨0x3FBE1E1E1E1E1E1E#64, 0xBFCE1E1E1E1E1E1E#64⟩, ⟨d1, m2⟩] := by
  decide +kernel

/-- V-FB-11, Ideal high-pass: a blocked infinity becomes zero, a passed payload stays. -/
theorem test_filter_ideal_high :
    top2 (after (.filter 1#1 0#1)
        (storeZ 0#1 (fun _ _ => ⟨finf, 0x7FF0000000000001#64⟩) (coords 2)
          { side 1#4 with pass := 1#1, cutoff := d1 })) 1#1
      = [czero, czero, czero, ⟨finf, 0x7FF0000000000001#64⟩] := by decide +kernel

/-- V-FB-9, Gaussian at the smallest cutoff: 1 at DC and +0 elsewhere, by R208's fixed values. -/
theorem test_gaussian_tiny_cutoff :
    [gaussianFactor cfgExp false 1#64 0, gaussianFactor cfgExp false 1#64 1,
      gaussianFactor cfgExp true 1#64 0, gaussianFactor cfgExp true 1#64 1]
      = [fone, fzero, fzero, fone] := by decide +kernel

/-- R206: `−0 <= +0`, no NaN compares, and `+∞` is above every finite value. -/
theorem test_comparisons :
    [fle m0 p0, feq m0 p0, fgt m0 p0, fle qnan qnan, feq qnan qnan, fgt finf 0x7FEFFFFFFFFFFFFF#64,
      fle fninf m2, fle m1 m2] = [true, true, false, false, false, true, true, false] := by decide

/-- V-FB-6 at D2 = 1, with the default exponential of −0.5: LP and HP factors. -/
theorem test_gaussian_high :
    gaussianFactor (fun _ => 0x3FE368B2FC6F960A#64) true d1 1 = 0x3FD92E9A0720D3EC#64 := by
  decide +kernel

/-- V-FB-7: the Butterworth pair at c = 10, D2 = 4. -/
theorem test_butterworth_pair :
    butterworthFactor false d10 4 = 0x3FEFF2E9EABC1D71#64 ∧
    butterworthFactor true d10 4 = 0x3F5A2C2A87C51CA3#64 := by decide +kernel

/-- V-FB-16: every illegal cutoff is refused. -/
theorem test_filtValid :
    [p0, m0, m1, fninf, qnan, finf].all (fun c => !filtValid 0#2 c) = true ∧
    filtValid 3#2 d1 = false ∧ filtValid 0#2 1#64 = true := by decide +kernel

/-- V-LM-8. -/
theorem test_shiftIndex : (List.range 8).map (shiftIndex 8) = [4, 5, 6, 7, 0, 1, 2, 3] := by decide

/-! ### Errors, interrupt, host bus, reset -/

/-- V-EX-5: ILLEGAL comes first. -/
theorem test_illegal_first :
    (afterEvent (.access (.write 0x028#32 .b8 0x112A#64))
      { side 12#4 with cutoff := m1 }).errcode = 1#8 := by decide +kernel

/-- V-EX-6: SHAPE comes before FILTPARAM. -/
theorem test_shape_before_filtparam :
    (after (.filter 1#1 0#1) { side 12#4 with cutoff := m1 }).errcode = 2#8 := by decide +kernel

/-- V-EX-7: the first error stays, EOVF is set. -/
theorem test_second_refusal :
    (fun t => (t.eovf, t.errcode, t.errcmd)) (afterEvent (.access (.write 0x028#32 .b8 0x0C#64))
      { State.reset with err := true, errcode := 2#8, errcmd := 8#64 })
      = (true, 2#8, 8#64) := by decide +kernel

/-- V-EX-8. -/
theorem test_status_w1c :
    (fun t => (statusWord t, t.errcmd)) (afterEvent (.access (.write 0x030#32 .b8 0x4#64))
      { State.reset with
        done := true, err := true, eovf := true, errcode := 2#8, errcmd := 8#64 })
      = (0x000A#64, 0#64) := by decide

/-- V-EX-13: without DONEIE completion does not raise the line. -/
theorem test_irq_masked :
    irq { State.reset with done := true, errie := true } = false ∧
    irq { State.reset with done := true, doneie := true } = true := by decide

/-- V-BUS-1. -/
theorem test_read_id :
    (afterEvent (.access (.read 0x000#32 .b8)) State.reset).resp
      = some (.okay 0x4543363935303207#64) := by decide

/-- V-BUS-2, V-BUS-4, V-BUS-6, V-BUS-7, V-BUS-10, V-BUS-12: BusError. -/
theorem test_bus_errors :
    [Access.read 0x000#32 .b4, .write 0x000#32 .b8 0#64, .write 0x1000#32 .b8 0#64,
      .read 0x050#32 .b8, .read 0x180#32 .b8, .read 0x2000#32 .b8, .read 0x500000#32 .b8,
      .read 0x1800000#32 .b8, .read 0x400001#32 .b2, .read 0x1000000#32 .b4].all
      (fun a => decide ((afterEvent (.access a) State.reset).resp = some .error)) = true := by
  decide

/-- V-BUS-9: bytes of a 4-byte write. -/
theorem test_bus_samples :
    (fun t => [getS t 0#2 0 0, getS t 0#2 0 1, getS t 0#2 0 2, getS t 0#2 0 3])
      (afterEvent (.access (.write 0x400000#32 .b4 0x04030201#64)) State.reset)
      = [1#8, 2#8, 3#8, 4#8] := by decide

/-- V-BUS-13, the imaginary half. -/
theorem test_bus_creg :
    getC (afterEvent (.access (.write 0x138#32 .b8 d2)) State.reset) 3#3 = ⟨p0, d2⟩ := by decide

/-- V-BUS-14. -/
theorem test_bus_rom :
    (afterEvent (.access (.read 0x1408#32 .b8)) State.reset).resp
      = some (.okay 0xBFE6A09E667F3BCD#64) := by decide

/-- V-BUS-15. -/
theorem test_bus_ncfg :
    (afterEvent (.access (.write 0x008#32 .b8 0xFFFFFFFFFFFFFFF3#64)) State.reset).log2n = 3#4 := by
  decide

/-- V-BUS-18: a CMD write in flight is lost. -/
theorem test_bus_busy :
    (fun t => (t.resp, t.err, t.eovf, t.pending))
      (afterEvent (.access (.write 0x028#32 .b8 0x0C#64)) (inFlight .nop))
      = (some .error, false, false, some .nop) := by decide

/-- V-RC-1: NOP and its completion leave STATUS = 2. -/
theorem test_nop_completes : statusWord (afterEvent .core (inFlight .nop)) = 2#64 := by decide

/-- V-RST-2: reset abandons the command in flight; the bank is unwritten and DONE stays 0. -/
theorem test_reset_in_flight :
    (fun t => (t.mem, t.pending, t.done, t.cutoff)) (afterEvent .reset
      (accept (.fft2d 0#1 0#2) (rowsZ 0#1 [[⟨d1, d1⟩]] State.reset)))
      = ([], none, false, 0x4034000000000000#64) := by decide

/-- A word of the opcode table placed and run as the first command after reset (TWLD c7, 255). -/
theorem test_withFetchWord :
    step (State.reset.withFetchWord 32 0x01FE0709)
      = exec (.twld 7#3 255#8) { State.reset with resp := some (.okay 0#64) } := by rfl

/-- The same word through the table's decoder. -/
theorem test_decodeTableWord : decodeTableWord 32 0x01FE0709 = some (.twld 7#3 255#8) := by decide

/-! ### Witnesses: states and operands that meet the hypotheses of each statement -/

/-- A CMD write of a value as the only event. -/
def submitting (v : BitVec 64) (s : State) : State :=
  { s with events := [.access (.write 0x028#32 .b8 v)] }

theorem witness_StepRunsDecodedCommand :
    (submitting 0x4202#64 State.reset).events = [.access (.write 0x028#32 .b8 0x4202#64)] ∧
    (submitting 0x4202#64 State.reset).pending = none ∧
    decode 0x4202#64 = .command (.cadd 2#3 0#3 1#3) := by decide

theorem witness_EncodeOfDecode : decode 0x0000022A#64 = .command (.filter 0#1 1#1) := by decide

theorem witness_ReservedEncodingsAreIllegal :
    (0x100000000#64).extractLsb' 32 32 ≠ 0#32 ∧
    [0x0C#64, 0x0F#64, 0x12#64, 0x1F#64, 0x2C#64, 0xFF#64].all (fun v =>
      v.extractLsb' 32 32 == 0#32 && decode v == .illegal .reservedOpcode) = true ∧
    [0x0B#64, 0x10#64, 0x11#64, 0x20#64, 0x2B#64].all (fun v =>
      decode v != .illegal .reservedOpcode) = true := by decide

theorem witness_FailedCheckRefuses_illegal :
    submitError 0x0C#64 (submitting 0x0C#64 State.reset) = some 1#8 ∧
    (submitting 0x0C#64 State.reset).pending = none := by decide

theorem witness_FailedCheckRefuses_shape : submitError 0x08#64 (side 10#4) = some 2#8 := by decide

theorem witness_FailedCheckRefuses_range :
    submitError 0x00800010#64 (side 2#4) = some 3#8 ∧
    submitError 0x40021#64 (side 2#4) = some 3#8 := by decide

theorem witness_FailedCheckRefuses_parameters :
    submitError 0x12A#64 { side 1#4 with cutoff := finf } = some 4#8 ∧
    submitError 0x12A#64 { side 1#4 with family := 3#2 } = some 4#8 ∧
    submitError 0x2B#64 { side 1#4 with logdiv := 0#64 } = some 5#8 := by decide

theorem witness_PassedChecksAccept :
    submitError 0x01FF0022#64 (submitting 0x01FF0022#64 State.reset) = none ∧
    submitError 0x12A#64 { side 1#4 with cutoff := 1#64 } = none ∧
    submitError 0x2B#64 { side 9#4 with logdiv := 0x7FEFFFFFFFFFFFFF#64 } = none ∧
    submitError 0x00600010#64 (side 2#4) = none := by decide

theorem witness_CompletionSetsDone :
    busy { inFlight .nop with events := [.core] } = true ∧
    busy { State.reset with events := [.core] } = false := by decide

theorem witness_InFlightUntilCompletion : (inFlight (.trans 0#1)).pending = some (.trans 0#1) := by
  decide

theorem witness_CommandsKeepConfigurationAndFlags :
    exec .nop State.reset = .next (inFlight .nop) ∧ commandError .nop State.reset = none := by
  exact ⟨rfl, rfl⟩

theorem witness_ErrorIsSticky :
    (after (.cscln 0#3 0#3) (side 10#4)).err = true ∧
    clearsErr (.access (.write 0x030#32 .b8 0x4#64)) = true ∧ clearsErr .reset = true ∧
    clearsErr (.access (.write 0x030#32 .b4 0x4#64)) = false := by decide

theorem witness_AccessesAnswerByTheMap :
    AnswersOkay false false 0x4FFFFF 1 ∧ AnswersOkay false true 0x17FFFF8 8 ∧
    AnswersOkay true true 0x038 8 ∧ ¬ AnswersOkay false false 0x500000 1 ∧
    ¬ AnswersOkay false true 0x1FF8 8 ∧ ¬ AnswersOkay true false 0x008 8 ∧
    ¬ AnswersOkay false false 0x50 8 := by
  simp [AnswersOkay]

theorem witness_BusErrorChangesNothing :
    (afterEvent (.access (.read 0x004#32 .b8)) State.reset).resp = some .error := by decide

theorem witness_BusyShutsOutTheHost :
    busy (inFlight .nop) = true ∧
    (afterEvent (.access (.write 0x038#32 .b8 1#64)) (inFlight .nop)).resp
      = some (.okay 0#64) ∧
    ({ inFlight .nop with events := [.access (.read 0x038#32 .b8)] } : State).events
      = .access (.read 0x038#32 .b8) :: [] := by decide

theorem witness_ReadsHaveNoSideEffect :
    (submitting 0#64 State.reset).events ≠ [] ∧
    ({ State.reset with events := [.access (.read 0x100#32 .b8)] } : State).events
      = .access (.read 0x100#32 .b8) :: [] := by decide

theorem witness_BankWriteThenRead :
    (0x400000 ≤ (0x4FFFFF#32).toNat ∧ (0x4FFFFF#32).toNat < 0x500000) ∧
    (0x4FFFFF#32).toNat % AccessSize.b1.bytes = 0 ∧
    (0x1000000 ≤ (0x17FFFF8#32).toNat ∧ (0x17FFFF8#32).toNat < 0x1800000) ∧
    (0x17FFFF8#32).toNat % AccessSize.b8.bytes = 0 := by decide

theorem witness_ControlRegisterAccess :
    (fun s : State => s.pending = none ∧
      s.events = .access (.write 0x008#32 .b8 3#64) :: .access (.read 0x008#32 .b8) :: [])
      { State.reset with
        events := [.access (.write 0x008#32 .b8 3#64), .access (.read 0x008#32 .b8)] } := by decide

theorem witness_StatusRegister :
    ({ inFlight .nop with events := [.access (.read 0x030#32 .b8)] } : State).events
      = .access (.read 0x030#32 .b8) :: [] := by decide

theorem witness_ResetStep :
    ({ inFlight .nop with events := [.reset, .core] } : State).events = .reset :: [.core] := by
  decide

theorem witness_StepKeepsInv : Inv (rowsZ 1#1 [[⟨d1, d1⟩]] (inFlight (.trans 0#1))) := by
  refine ⟨by decide, by decide, by decide, by decide, ?_⟩
  intro i _ _
  decide

theorem witness_CommandsWriteOnlyTheirBanks :
    exec (.cst 0#3 1#1 511#9 511#9) State.reset
      = .next (accept (.cst 0#3 1#1 511#9 511#9)
          (storeZ 1#1 (fun _ _ => czero) [(511, 511)] State.reset)) := by rfl

theorem witness_SampleBanksDoNotFeedBack :
    readsSamples (.logmag 0#2 0#1) = false ∧
    AgreeOffSamples State.reset
      { State.reset with mem := [((0x400000, 7#8) : Host.Cell)] } := by
  refine ⟨rfl, rfl, fun x hx => ?_⟩
  have : ¬(0x400000 = x) := fun h => hx ⟨Nat.le_of_eq h, h ▸ by decide⟩
  simp [memFind, State.reset, this]

theorem witness_side_hypotheses :
    State.reset.log2n.toNat ≤ 9 ∧ (511#9).toNat < activeN State.reset ∧
    (side 0#4).log2n.toNat ≤ 9 ∧ activeN (side 0#4) = 1 ∧ 1 < activeN (side 1#4) ∧
    (0#9).toNat < activeN (side 0#4) := by decide

theorem witness_ArithmeticCommands : State.reset.log2n.toNat ≤ 9 := by decide
theorem witness_ElementMoves :
    State.reset.log2n.toNat ≤ 9 ∧ (511#9).toNat < activeN State.reset := by decide
theorem witness_LiftCommand : (side 0#4).log2n.toNat ≤ 9 := by decide
theorem witness_RowTransformCommands :
    (side 1#4).log2n.toNat ≤ 9 ∧ (1#9).toNat < activeN (side 1#4) ∧ 1 < activeN (side 1#4) ∧
    (0#9).toNat < activeN (side 0#4) ∧ activeN (side 0#4) = 1 := by decide
theorem witness_AllRowsTransformCommands :
    (side 1#4).log2n.toNat ≤ 9 ∧ 1 < activeN (side 1#4) ∧ activeN (side 0#4) = 1 := by decide
theorem witness_TransposeCommand : (side 9#4).log2n.toNat ≤ 9 := by decide
theorem witness_CopyRegionCommand : (side 9#4).log2n.toNat ≤ 9 ∧ (0#1) ≠ (1#1) := by decide
theorem witness_RealClampCommand : (side 9#4).log2n.toNat ≤ 9 := by decide
theorem witness_ForwardTransformCommand : (side 9#4).log2n.toNat ≤ 9 := by decide
theorem witness_InverseTransformCommand : (side 9#4).log2n.toNat ≤ 9 := by decide
theorem witness_FilterCommand :
    [0#2, 1#2, 2#2].all (fun f => decide (f ≠ 3#2)) = true ∧ State.reset.log2n.toNat ≤ 9 ∧
    PositiveFinite State.reset.cutoff ∧ PositiveFinite 1#64 ∧
    PositiveFinite 0x7FEFFFFFFFFFFFFF#64 := by decide
theorem witness_LogMagnitudeCommand :
    (side 9#4).log2n.toNat ≤ 9 ∧ PositiveFinite ({ side 9#4 with logdiv := fone } : State).logdiv := by
  decide
theorem witness_FftRecursion :
    8 + 1 ≤ 9 ∧ (List.replicate (2 ^ (1 + 1)) czero).length = 2 ^ (1 + 1) ∧
    (List.replicate (2 ^ 1) czero).length = 2 ^ 1 := by decide
theorem witness_RowsThenColumns :
    [[czero, czero], [czero, czero]].length = 2 ^ 1 ∧
    ∀ r ∈ [[czero, czero], [czero, czero]], r.length = 2 ^ 1 := by decide
theorem witness_ForwardIsItsSteps : (side 0#4).log2n.toNat ≤ 9 := by decide
theorem witness_InverseIsItsSteps : (side 9#4).log2n.toNat ≤ 9 := by decide
theorem witness_DcIsTheSampleSum : (side 9#4).log2n.toNat ≤ 9 := by decide
theorem witness_UniformGridSpectrum :
    (side 1#4).log2n.toNat ≤ 9 ∧
    ∀ i < activeN (side 1#4), ∀ j < activeN (side 1#4),
      getS (rowsS 0#2 [[128#8, 128#8], [128#8, 128#8]] (side 1#4)) 0#2 i j = 128#8 := by decide
theorem witness_SingleSampleRoundTrip : (side 0#4).log2n = 0#4 := by decide
theorem witness_ShiftMap : shiftIndex 1 0 = 0 ∧ shiftIndex 2 0 = 1 ∧ shiftIndex 2 1 = 0 := by decide
theorem witness_CenteredDistance :
    distSq 512 256 256 = 131072 ∧ distSq 512 511 0 = 1 ∧ distSq 1 0 0 = 0 := by decide
theorem witness_DcFactors : PositiveFinite 1#64 ∧ isNaN fninf = false := by decide
theorem witness_FactorsLieBetweenZeroAndOne :
    PositiveFinite 0x7FEFFFFFFFFFFFFF#64 ∧ PositiveFinite 1#64 ∧ 131072 ≤ 131072 := by decide
theorem witness_IdealFilterIsIdempotent :
    State.reset.log2n.toNat ≤ 9 ∧ State.reset.family = 0#2 ∧
    PositiveFinite State.reset.cutoff := by decide
theorem witness_OperationsRoundOnce :
    isFinite 0x7FEFFFFFFFFFFFFF#64 = true ∧ isFinite 1#64 = true ∧ isZero 1#64 = false := by decide
theorem witness_SquareRootIsNearest :
    [1#64, 0x7FEFFFFFFFFFFFFF#64].all (fun a => isFinite a && !isZero a && !fsign a) = true := by
  decide
theorem witness_NansAreCanonical : isNaN 0xFFF0000000000001#64 = true := by decide
theorem witness_SpecialCases :
    isInf fninf = true ∧ isZero m0 = true ∧ isFinite d1 = true ∧ isZero d1 = false ∧
    fsign m1 = true := by decide
theorem witness_SpecialCases_elementary :
    isZero m0 = true ∧ fle fninf m1 = true ∧ fle m1 m0 = true ∧ fle d1 d1 = true ∧
    fle d1 finf = true ∧ isNaN (cfgLn d1) = false ∧ isNaN (cfgLn finf) = false := by decide
theorem witness_ConversionsAndComparisons :
    2 ^ 53 - 1 < 2 ^ 53 ∧ isNaN qnan = true ∧ isFinite m0 = true ∧
    isFinite 0x7FEFFFFFFFFFFFFF#64 = true ∧ isNaN finf = false ∧ isNaN fninf = false := by decide
theorem witness_SaturationToByte :
    isNaN qnan = true ∧ isFinite 0x3FE0000000000000#64 = true := by decide

end Sys2Proof.Tests
end

/-! SUPPORT. The reset event (R450): what each part of the state is right after it, and the proof
of `Obligations.ResetStep`. -/

namespace Sys2Proof.Machine

open Sys2Proof.Claims

/-- Whatever seed the platform picks, the pattern lies between those of `+0` and `+∞` (R9, R38). -/
theorem logdivReset_positiveFinite : PositiveFinite Config.logdivReset := by
  have hseed : Config.logdivSeed % 0x7FEFFFFFFFFFFFFF < 0x7FEFFFFFFFFFFFFF :=
    Nat.mod_lt _ (by decide)
  have hnat : Config.logdivReset.toNat = 1 + Config.logdivSeed % 0x7FEFFFFFFFFFFFFF :=
    (BitVec.toNat_ofNat _ _).trans (Nat.mod_eq_of_lt (by omega))
  rw [PositiveFinite, hnat]
  omega

@[simp] theorem getC_resetBlock (s : State) (r : BitVec 3) : getC (resetBlock s) r = czero :=
  Vector.getElem_replicate _

@[simp] theorem irq_resetBlock (s : State) : irq (resetBlock s) = false := rfl

/-- A reset event is taken whatever is in flight (R450). -/
theorem step_of_reset {s : State} {rest : List Event} (h : s.events = .reset :: rest) :
    step s = .next (resetBlock { s with events := rest }) := by
  rw [step, nextActivity, h]

/-- Settles O23: the reset event steps to `resetBlock`, whose fields are those of R56; the open
LOGDIV_RESET is positive and finite for every seed. -/
theorem resetStep : Obligations.ResetStep := by
  unfold Obligations.ResetStep
  intro s rest h
  refine ⟨resetBlock { s with events := rest }, step_of_reset h, rfl, ?registers, ?logdiv, ?line⟩
  case registers => exact getC_resetBlock _
  case logdiv => exact logdivReset_positiveFinite
  case line => exact irq_resetBlock _

end Sys2Proof.Machine

/-! SUPPORT. What a command can do, said once: refused with its code, or accepted after an effect
that stays within the bytes it names (R50, R400, R401, R404). Proofs of
`Obligations.CommandsWriteOnlyTheirBanks` and `Obligations.CommandsKeepConfigurationAndFlags`. -/

namespace Sys2Proof.Machine

open Sys2Proof.Claims

/-- `x` is the offset of a byte that command `i` may store to in state `s` (R50). -/
def MayStore (i : Instr) (s : State) (x : Nat) : Prop :=
  (∃ z, destZ i = some z ∧ RegionZ s z x) ∨ (∃ b, destS i = some b ∧ RegionS s b x)

/-- What the effect of command `i` on `s` may change: C registers, IMAGMAX, the numbering of draws,
and the bytes it may store to; and it keeps the memory canonical. -/
structure StaysWithin (i : Instr) (s u : State) : Prop where
  rest : u = { s with creg := u.creg, mem := u.mem, imagmax := u.imagmax, draws := u.draws }
  mem : KeepsMemory s u (MayStore i s)
  wf : Memory.wf s.mem = true → Memory.wf u.mem = true

namespace StaysWithin

variable {i : Instr} {s u : State}

protected theorem refl (i : Instr) (s : State) : StaysWithin i s s := ⟨rfl, fun _ _ => rfl, id⟩

protected theorem setC (h : StaysWithin i s u) (d : BitVec 3) (v : Cplx) :
    StaysWithin i s (setC d v u) where
  rest := by rw [h.rest]; rfl
  mem := h.mem
  wf := h.wf

protected theorem endReading (h : StaysWithin i s u) : StaysWithin i s (endReading u) where
  rest := by rw [h.rest]; rfl
  mem := h.mem
  wf := h.wf

protected theorem imagmax (h : StaysWithin i s u) (m : F64) :
    StaysWithin i s { u with imagmax := m } where
  rest := by rw [h.rest]
  mem := h.mem
  wf := h.wf

/-- Storing elements of the N x N region of the complex bank the command names. -/
protected theorem storeZ (h : StaysWithin i s u) {z : BitVec 1} (hz : destZ i = some z)
    (val : Nat → Nat → Cplx) {cs : List (Nat × Nat)}
    (hcs : ∀ c ∈ cs, c.1 < activeN s ∧ c.2 < activeN s) : StaysWithin i s (storeZ z val cs u) where
  rest := by rw [h.rest]; rfl
  mem x hx := by
    refine (memFind_storeZ_of_outside z val cs u x fun c hc => ?_).trans (h.mem x hx)
    by_contra hin
    exact hx (.inl ⟨z, hz, c.1, c.2, (hcs c hc).1, (hcs c hc).2, by simp only [ByteOfZ]; omega⟩)
  wf hw := storeZ_wf z val cs u (h.wf hw)

/-- Storing samples to the N x N region of the sample bank the command names. -/
protected theorem storeS (h : StaysWithin i s u) {b : BitVec 2} (hb : destS i = some b)
    {place : Nat → Nat} (val : Nat → Nat → Byte) {cs : List (Nat × Nat)}
    (hcs : ∀ c ∈ cs, place c.1 < activeN s ∧ place c.2 < activeN s) :
    StaysWithin i s (storeS b place val cs u) where
  rest := by rw [h.rest]; rfl
  mem x hx := by
    refine (memFind_storeS_of_outside b place val cs u x fun c hc hin => ?_).trans (h.mem x hx)
    exact hx (.inr ⟨b, hb, place c.1, place c.2, (hcs c hc).1, (hcs c hc).2, hin⟩)
  wf hw := storeS_wf b place val cs u (h.wf hw)

protected theorem activeN_eq (h : StaysWithin i s u) : activeN u = activeN s := by rw [h.rest]; rfl

/-- Storing a matrix as the N x N region of the complex bank the command names. -/
protected theorem storeRegion (h : StaysWithin i s u) {z : BitVec 1} (hz : destZ i = some z)
    (m : List (List Cplx)) : StaysWithin i s (storeRegion z m u) :=
  h.storeZ hz _ fun _ hc => h.activeN_eq ▸ (mem_coords _ _ _).1 hc

/-- Replacing one row of the N x N region of the complex bank the command names. -/
protected theorem transformRow (h : StaysWithin i s u) {z : BitVec 1} (hz : destZ i = some z)
    (f : List Cplx → List Cplx) {row : Nat} (hrow : row < activeN s) :
    StaysWithin i s (transformRow f z row u) := by
  refine (h.storeZ hz _ fun c hc => ?_).endReading
  obtain ⟨j, hj, rfl⟩ := List.mem_map.1 hc
  exact ⟨hrow, h.activeN_eq ▸ List.mem_range.1 hj⟩

/-- The samples and IMAGMAX of REALCLAMP. -/
protected theorem clampRegion (h : StaysWithin i s u) {b : BitVec 2} (hb : destS i = some b)
    (m : List (List Cplx)) : StaysWithin i s (clampRegion b m u) :=
  (h.storeS hb _ fun _ hc => h.activeN_eq ▸ (mem_coords _ _ _).1 hc).imagmax _

end StaysWithin

/-! ### The checks of the meanings are those of R400 -/

/-- SHAPE first, then a command's own check: `own` as its meaning writes it, `rule` as R400 does. -/
theorem checkN_eq_commandError {i : Instr} {s : State} {own rule : Option (BitVec 8)}
    (hN : readsN i = true) (hown : own = rule)
    (hrule : commandError i s = if readsN i = true ∧ 9 < s.log2n.toNat then some 2#8 else rule) :
    checkN own s = commandError i s := by
  rw [hrule, hown]
  simp [checkN, hN, codeShape]

theorem checkIndex_row (row : BitVec 9) (s : State) :
    checkIndex (decide (row.toNat < activeN s))
      = if row.toNat < 2 ^ s.log2n.toNat then none else some 3#8 := by
  simp only [checkIndex, decide_eq_true_eq]
  rfl

theorem checkIndex_element (row col : BitVec 9) (s : State) :
    checkIndex (decide (row.toNat < activeN s) && decide (col.toNat < activeN s))
      = if row.toNat < 2 ^ s.log2n.toNat ∧ col.toNat < 2 ^ s.log2n.toNat then none
        else some 3#8 := by
  simp only [checkIndex, Bool.and_eq_true, decide_eq_true_eq]
  rfl

theorem filtCheck_eq (s : State) :
    (if filtValid s.family s.cutoff then none else some codeFiltParam)
      = if s.family ≠ 3#2 ∧ PositiveFinite s.cutoff then none else some 4#8 := by
  simp only [filtValid_iff, codeFiltParam]

theorem logCheck_eq (s : State) :
    (if logValid s.logdiv then none else some codeLogParam)
      = if PositiveFinite s.logdiv then none else some 5#8 := by
  simp only [logValid_iff, codeLogParam]

/-- The codes of R405 that a decoded command can be refused with. -/
theorem commandError_range {i : Instr} {s : State} {code : BitVec 8}
    (h : commandError i s = some code) : 1 ≤ code.toNat ∧ code.toNat ≤ 5 := by
  have hcode : code = 2#8 ∨ code = 3#8 ∨ code = 4#8 ∨ code = 5#8 := by
    unfold commandError at h
    split at h
    · exact .inl (Option.some.inj h).symm
    · split at h <;> simp_all
  rcases hcode with rfl | rfl | rfl | rfl <;> decide

/-- A command that reads N passes its checks only at a legal side (R406). -/
theorem log2n_le_of_commandError_none {i : Instr} {s : State} (h : commandError i s = none)
    (hN : readsN i = true) : s.log2n.toNat ≤ 9 := by
  by_contra hlt
  unfold commandError at h
  rw [if_pos ⟨hN, by omega⟩] at h
  cases h

/-! ### Every command, case by case -/

/-- Everything submitting command `i` can do: refused with the code of R400, or accepted after an
effect that stays within what the command names (R400, R401, R404). -/
def SubmitsWithin (i : Instr) (s : State) : Prop :=
  ∃ f : State → State, exec i s = .next (submit i (commandError i s) f s) ∧
    (commandError i s = none → StaysWithin i s (f s))

theorem SubmitsWithin.intro {i : Instr} {s : State} {check : Option (BitVec 8)}
    {f : State → State} (hexec : exec i s = .next (submit i check f s))
    (hcheck : check = commandError i s) (hf : check = none → StaysWithin i s (f s)) :
    SubmitsWithin i s :=
  ⟨f, hcheck ▸ hexec, hcheck ▸ hf⟩

theorem of_checkN_checkIndex {inRange : Bool} {s : State}
    (h : checkN (checkIndex inRange) s = none) : inRange = true := by
  by_contra hout
  simp only [checkN, checkIndex, hout, if_false] at h
  split at h <;> cases h

/-- Each command's own check is that of R400, and its effect is a chain of the writes above: to C
registers, or to coordinates of the region that `coords` or the RANGE check bounds. -/
theorem exec_submitsWithin (i : Instr) (s : State) : SubmitsWithin i s := by
  have h := StaysWithin.refl i s
  cases i with
  | nop => exact .intro rfl rfl fun _ => h
  | cmov | cadd | csub | cmul | cdiv | cconj | cmag | twld =>
    exact .intro rfl rfl fun _ => h.setC _ _
  | cscln => exact .intro rfl (checkN_eq_commandError rfl rfl rfl) fun _ => h.setC _ _
  | bfly | bflyw => exact .intro rfl rfl fun _ => (h.setC _ _).setC _ _
  | cld r z row col =>
    exact .intro rfl (checkN_eq_commandError rfl (checkIndex_element row col s) rfl)
      fun _ => (h.setC _ _).endReading
  | cst r z row col =>
    refine .intro rfl (checkN_eq_commandError rfl (checkIndex_element row col s) rfl)
      fun hc => h.storeZ rfl _ fun c hmem => ?_
    obtain rfl := List.mem_singleton.1 hmem
    simpa using of_checkN_checkIndex hc
  | fftrow zd row =>
    refine .intro rfl (checkN_eq_commandError rfl (checkIndex_row row s) rfl) fun hc => ?_
    split
    · exact h
    · exact h.transformRow rfl _ (of_decide_eq_true (of_checkN_checkIndex hc))
  | ifftrow zd row =>
    exact .intro rfl (checkN_eq_commandError rfl (checkIndex_row row s) rfl)
      fun hc => h.transformRow rfl _ (of_decide_eq_true (of_checkN_checkIndex hc))
  | lift | fft2d | ifftrows =>
    exact .intro rfl (checkN_eq_commandError rfl rfl rfl)
      fun _ => (h.storeRegion rfl _).endReading
  | trans =>
    refine .intro rfl (checkN_eq_commandError rfl rfl rfl)
      fun _ => (h.storeZ rfl _ fun c hc => ?_).endReading
    exact (mem_coords _ _ _).1 (List.mem_filter.1 hc).1
  | fftrows | zcopy =>
    refine .intro rfl (checkN_eq_commandError rfl rfl rfl) fun _ => ?_
    split
    · exact h
    · exact (h.storeRegion rfl _).endReading
  | realclamp =>
    exact .intro rfl (checkN_eq_commandError rfl rfl rfl)
      fun _ => (h.clampRegion rfl _).endReading
  | ifft2d =>
    exact .intro rfl (checkN_eq_commandError rfl rfl rfl)
      fun _ => ((h.storeRegion rfl _).clampRegion rfl _).endReading
  | filter =>
    exact .intro rfl (checkN_eq_commandError rfl (filtCheck_eq s) rfl)
      fun _ => (h.storeZ rfl _ fun c hc => (mem_coords _ _ _).1 hc).endReading
  | logmag =>
    refine .intro rfl (checkN_eq_commandError rfl (logCheck_eq s) rfl)
      fun _ => (h.storeS rfl _ fun c hc => ?_).endReading
    have hpos : 0 < activeN s := Nat.two_pow_pos _
    exact ⟨Nat.mod_lt _ hpos, Nat.mod_lt _ hpos⟩

/-- The two outcomes of a command: refused, with the state else as it was, or in flight. -/
theorem exec_cases {i : Instr} {s t : State} (h : exec i s = .next t) :
    (∃ code, commandError i s = some code ∧ t = refuse (cmdValue i) code s) ∨
      (commandError i s = none ∧ ∃ u, StaysWithin i s u ∧ t = accept i u) := by
  obtain ⟨f, hexec, hf⟩ := exec_submitsWithin i s
  obtain rfl := Host.Outcome.next.inj (h.symm.trans hexec)
  rcases submit_cases i (commandError i s) f s with ⟨code, hc, hs⟩ | ⟨hc, hs⟩
  · exact .inl ⟨code, hc, hs⟩
  · exact .inr ⟨hc, f s, hf hc, hs⟩

@[simp] theorem refuse_mem (v : BitVec 64) (code : BitVec 8) (s : State) :
    (refuse v code s).mem = s.mem := by
  rcases refuse_cases v code s with ⟨_, h⟩ | ⟨_, h⟩ <;> rw [h]

/-- Settles O26: a refusal stores nothing, and an accepted command's effect stays within the bytes
it may store to. -/
theorem commandsWriteOnlyTheirBanks : Obligations.CommandsWriteOnlyTheirBanks := by
  unfold Obligations.CommandsWriteOnlyTheirBanks
  intro i s t h
  rcases exec_cases h with ⟨code, -, rfl⟩ | ⟨-, u, hu, rfl⟩
  · intro x _
    rw [refuse_mem]
  · exact hu.mem

/-- Settles O11: a refusal touches the error record alone, and an accepted command's effect touches
none of the fields in question. -/
theorem commandsKeepConfigurationAndFlags : Obligations.CommandsKeepConfigurationAndFlags := by
  unfold Obligations.CommandsKeepConfigurationAndFlags
  intro i s t h
  rcases exec_cases h with ⟨code, hc, rfl⟩ | ⟨-, u, hu, rfl⟩
  · refine ⟨?_, fun hnone => absurd (hc.symm.trans hnone) (Option.some_ne_none code)⟩
    rcases refuse_cases (cmdValue i) code s with ⟨_, he⟩ | ⟨_, he⟩ <;> rw [he]
  · rw [hu.rest]
    exact ⟨rfl, fun _ => ⟨rfl, rfl, rfl, rfl, rfl⟩⟩

end Sys2Proof.Machine

/-! SUPPORT. What a step can do, said once, case by case, and what holds a command in flight. Proof
of `Obligations.InFlightUntilCompletion`. -/

namespace Sys2Proof.Machine

open Sys2Proof.Claims

/-- The state past its next event. -/
def pastEvent (s : State) : State := { s with events := s.events.tail }

section NextActivity

variable {s : State} {rest : List Event}

theorem nextActivity_of_nil (h : s.events = []) :
    nextActivity s = .settled (coreTurn (pastEvent s)) := by
  have hpast : pastEvent s = s := by rw [pastEvent, h, List.tail_nil, ← h]
  rw [nextActivity, h, hpast]

theorem nextActivity_of_core (h : s.events = .core :: rest) :
    nextActivity s = .settled (coreTurn (pastEvent s)) := by rw [nextActivity, pastEvent, h]; rfl

theorem nextActivity_of_reset (h : s.events = .reset :: rest) :
    nextActivity s = .settled (resetBlock (pastEvent s)) := by rw [nextActivity, pastEvent, h]; rfl

theorem nextActivity_of_read {offset : BitVec 32} {size : AccessSize}
    (h : s.events = .access (.read offset size) :: rest) :
    nextActivity s = .settled (busRead offset.toNat size.bytes (pastEvent s)) := by
  rw [nextActivity, pastEvent, h]; rfl

theorem nextActivity_of_write {offset : BitVec 32} {size : AccessSize} {v : BitVec 64}
    (h : s.events = .access (.write offset size v) :: rest) :
    nextActivity s = busWrite offset.toNat size.bytes v (pastEvent s) := by
  rw [nextActivity, pastEvent, h]; rfl

theorem step_of_settled {t : State} (h : nextActivity s = .settled t) : step s = .next t := by
  rw [step, h]

end NextActivity

/-- Everything a step from `s` can come to (R120), each case with what it tells of `s`. -/
inductive StepTo (s : State) : State → Prop where
  | core (h : s.events = [] ∨ ∃ rest, s.events = .core :: rest) : StepTo s (coreTurn (pastEvent s))
  | reset {rest : List Event} (h : s.events = .reset :: rest) : StepTo s (resetBlock (pastEvent s))
  | read (a n : Nat) : StepTo s (busRead a n (pastEvent s))
  | denied : StepTo s (answer .error (pastEvent s))
  | write (a : Nat) (size : AccessSize) (v : BitVec 64)
      (hacc : accessible (pastEvent s) a size.bytes = true) (hro : readOnly a = false) :
      StepTo s (answer (.okay 0#64) (writeValue a size.bytes v (pastEvent s)))
  | illegal (v : BitVec 64) (idle : s.pending = none) :
      StepTo s (refuse v codeIllegal (answer (.okay 0#64) (pastEvent s)))
  | command {i : Instr} {t : State} (idle : s.pending = none)
      (hexec : exec i (answer (.okay 0#64) (pastEvent s)) = .next t) : StepTo s t

theorem accessible_iff (s : State) (a n : Nat) :
    accessible s a n = true ↔
      sizeAllowed (regionOf a) n = true ∧ a % n = 0 ∧
        (s.pending = none ∨ answersWhileBusy a = true) := by
  simp [accessible, busy, and_assoc]

/-- What a host write comes to, as a step. -/
theorem stepTo_of_write {s t : State} (a : Nat) (size : AccessSize) (v : BitVec 64)
    (hnext : nextActivity s = busWrite a size.bytes v (pastEvent s)) (h : step s = .next t) :
    StepTo s t := by
  have settles {u : State} (hu : busWrite a size.bytes v (pastEvent s) = .settled u) : u = t :=
    Host.Outcome.next.inj ((step_of_settled (hnext.trans hu)).symm.trans h)
  rcases busWrite_cases a size.bytes v (pastEvent s) with he | ⟨⟨hacc, hro⟩, ⟨rfl, he⟩ | ⟨_, he⟩⟩
  · exact settles he ▸ .denied
  · obtain ⟨-, -, hidle⟩ := (accessible_iff _ _ _).1 hacc
    have idle : s.pending = none := hidle.resolve_right (by decide)
    rcases submitValue_cases v (answer (.okay 0#64) (pastEvent s)) with ⟨i, _, hs⟩ | ⟨_, _, hs⟩
    · rw [step, hnext, he, hs] at h
      exact .command idle h
    · exact settles (he.trans hs) ▸ .illegal v idle
  · exact settles he ▸ .write a size v hacc hro

/-- Everything a step can do, by the event it takes. -/
theorem stepTo_of_step {s t : State} (h : step s = .next t) : StepTo s t := by
  have settles {u : State} (hu : nextActivity s = .settled u) : u = t :=
    Host.Outcome.next.inj ((step_of_settled hu).symm.trans h)
  cases hev : s.events with
  | nil => exact settles (nextActivity_of_nil hev) ▸ .core (.inl hev)
  | cons e rest =>
    cases e with
    | access a =>
      cases a with
      | read offset size => exact settles (nextActivity_of_read hev) ▸ .read _ _
      | write offset size v => exact stepTo_of_write _ size v (nextActivity_of_write hev) h
    | core => exact settles (nextActivity_of_core hev) ▸ .core (.inr ⟨rest, hev⟩)
    | reset => exact settles (nextActivity_of_reset hev) ▸ .reset hev

/-- The block never stops (R460, R462). -/
theorem step_next (s : State) : ∃ t, step s = .next t := by
  rcases step_cases s with ⟨t, _, h⟩ | ⟨i, u, _, h⟩
  · exact ⟨t, h⟩
  · rw [h]
    exact exec_next i u

/-! ### A command in flight -/

/-- A read changes neither the banks nor a register (R109). -/
theorem busRead_eq (a n : Nat) (s : State) :
    busRead a n s = { s with resp := (busRead a n s).resp, draws := (busRead a n s).draws } := by
  rcases busRead_cases a n s with ⟨_, h⟩ | ⟨_, h⟩ <;> rw [h]
  · split <;> rfl
  · rfl

/-- While a command is in flight the only locations a write reaches are STATUS and IRQEN (R108). -/
theorem writeValue_in_flight {s : State} {a n : Nat} (v : BitVec 64) (hbusy : s.pending ≠ none)
    (hacc : accessible s a n = true) (hro : readOnly a = false) :
    writeValue a n v s = writeOneToClear v s ∨
      writeValue a n v s = { s with doneie := v.getLsbD 0, errie := v.getLsbD 1 } := by
  obtain ⟨-, -, ha⟩ := (accessible_iff s a n).1 hacc
  replace ha := ha.resolve_left hbusy
  simp only [answersWhileBusy, Bool.or_eq_true, beq_iff_eq] at ha
  rcases ha with (rfl | rfl) | rfl
  · cases hro
  · exact .inl rfl
  · exact .inr rfl

/-- Settles O10: of the cases of a step only those of CORE and reset end the command; a host access
in flight is a read, is denied, or writes STATUS or IRQEN. -/
theorem inFlightUntilCompletion : Obligations.InFlightUntilCompletion := by
  unfold Obligations.InFlightUntilCompletion
  intro s i hi
  obtain ⟨t, h⟩ := step_next s
  have hbusy : s.pending ≠ none := by simp [hi]
  refine ⟨t, h, ?_⟩
  cases stepTo_of_step h with
  | core hev =>
    refine .inr ⟨?_, hev.imp_right fun ⟨rest, hr⟩ => ⟨rest, .inl hr⟩⟩
    simp [coreTurn, busy, pastEvent, hi]
  | reset hev => exact .inr ⟨rfl, .inr ⟨_, .inr hev⟩⟩
  | read a n =>
    rw [busRead_eq]
    exact .inl ⟨hi, rfl, rfl, rfl, rfl, rfl, rfl, rfl, rfl⟩
  | denied => exact .inl ⟨hi, rfl, rfl, rfl, rfl, rfl, rfl, rfl, rfl⟩
  | write a size v hacc hro =>
    left
    rcases writeValue_in_flight (s := pastEvent s) v hbusy hacc hro with he | he <;> rw [he] <;>
      exact ⟨hi, rfl, rfl, rfl, rfl, rfl, rfl, rfl, rfl⟩
  | illegal v idle => exact absurd idle hbusy
  | command idle => exact absurd idle hbusy

end Sys2Proof.Machine

/-! SUPPORT. The invariant of memory, error record and command in flight: what keeps each part.
Proofs of `Obligations.ResetHasInv` and `Obligations.StepKeepsInv`. -/

namespace Sys2Proof.Machine

open Sys2Proof.Claims

/-! ### Listed addresses -/

/-- `x` is the offset of a byte of a sample or complex bank (R102). -/
def BankOffset (x : Nat) : Prop :=
  (0x400000 ≤ x ∧ x < 0x500000) ∨ (0x1000000 ≤ x ∧ x < 0x1800000)

theorem memFind_ne_none_iff (m : Memory) (x : Nat) : memFind m x ≠ none ↔ ∃ c ∈ m, c.1 = x := by
  induction m with
  | nil => simp [memFind]
  | cons c rest ih =>
    by_cases hc : c.1 = x
    · simp [memFind, hc]
    · simp [memFind, hc, ih]

/-- A memory that differs from another in the banks alone lists bank offsets alone if that one
does. -/
theorem lists_bankOffsets {m m' : Memory} (hm : ∀ c ∈ m, BankOffset c.1)
    (hkeep : ∀ x, ¬ BankOffset x → memFind m' x = memFind m x) : ∀ c ∈ m', BankOffset c.1 := by
  intro c hc
  by_contra hout
  have hfound := (memFind_ne_none_iff m' c.1).2 ⟨c, hc, rfl⟩
  rw [hkeep _ hout] at hfound
  obtain ⟨d, hd, he⟩ := (memFind_ne_none_iff m c.1).1 hfound
  exact hout (he ▸ hm d hd)

/-! ### What keeps the invariant -/

section Inv

variable {s : State}

theorem inv_withMem (h : Inv s) {m : Memory} (hwf : Memory.wf m = true)
    (hkeep : ∀ x, ¬ BankOffset x → memFind m x = memFind s.mem x) : Inv { s with mem := m } := by
  obtain ⟨_, hlist, hclear, hcode, hflight⟩ := h
  exact ⟨hwf, lists_bankOffsets hlist hkeep, hclear, hcode, hflight⟩

theorem inv_coreTurn (h : Inv s) : Inv (coreTurn s) := by
  obtain ⟨hwf, hlist, hclear, hcode, hflight⟩ := h
  rw [coreTurn]
  split
  · exact ⟨hwf, hlist, hclear, hcode, nofun⟩
  · exact ⟨hwf, hlist, hclear, hcode, hflight⟩

theorem inv_busRead (h : Inv s) (a n : Nat) : Inv (busRead a n s) := by
  rw [busRead_eq]
  exact h

theorem inv_refuse (h : Inv s) (v : BitVec 64) {code : BitVec 8} (hlo : 1 ≤ code.toNat)
    (hhi : code.toNat ≤ 5) : Inv (refuse v code s) := by
  obtain ⟨hwf, hlist, hclear, hcode, hflight⟩ := h
  rcases refuse_cases v code s with ⟨_, he⟩ | ⟨_, he⟩ <;> rw [he]
  · exact ⟨hwf, hlist, hclear, hcode, hflight⟩
  · exact ⟨hwf, hlist, nofun, fun _ => ⟨hlo, hhi⟩, hflight⟩

/-- Clearing ERR clears ERRCODE and ERRCMD with it (R40). -/
theorem inv_writeOneToClear (h : Inv s) (v : BitVec 64) : Inv (writeOneToClear v s) := by
  obtain ⟨hwf, hlist, hclear, hcode, hflight⟩ := h
  refine ⟨hwf, hlist, ?_, ?_, hflight⟩ <;>
    simp only [writeOneToClear_err, writeOneToClear_errcode, writeOneToClear_errcmd] <;>
    cases v.getLsbD 2
  · simpa using hclear
  · simp [codeNone]
  · simpa using hcode
  · simp

/-- NCFG is written with no command in flight alone (R108); the other registers are no part of the
invariant but STATUS. -/
theorem inv_writeControl (h : Inv s) (v : BitVec 64) {a : Nat}
    (hidle : a = 0x008 → s.pending = none) : Inv (writeControl a v s) := by
  unfold writeControl
  split_ifs with hncfg hfilt hcutoff hlogdiv hstatus hirqen
  · obtain ⟨hwf, hlist, hclear, hcode, _⟩ := h
    refine ⟨hwf, hlist, hclear, hcode, fun i hi => ?_⟩
    exact absurd ((hidle hncfg).symm.trans hi) (Option.some_ne_none i).symm
  · exact h
  · exact h
  · exact h
  · exact inv_writeOneToClear h v
  · exact h
  · exact h

theorem regionOf_eq_samples_iff (a : Nat) :
    regionOf a = .samples ↔ 0x400000 ≤ a ∧ a < 0x500000 := by
  unfold regionOf
  split_ifs <;> simp only [false_iff, true_iff] <;> omega

theorem regionOf_eq_complex_iff (a : Nat) :
    regionOf a = .complex ↔ 0x1000000 ≤ a ∧ a < 0x1800000 := by
  unfold regionOf
  split_ifs <;> simp only [false_iff, true_iff] <;> omega

/-- An aligned access that starts in a bank stays in the banks: every size divides their ends. -/
theorem bankOffset_of_accessible {a : Nat} {size : AccessSize}
    (hacc : accessible s a size.bytes = true)
    (hbank : regionOf a = .samples ∨ regionOf a = .complex) {x : Nat} (hlo : a ≤ x)
    (hhi : x < a + size.bytes) : BankOffset x := by
  rw [regionOf_eq_samples_iff, regionOf_eq_complex_iff] at hbank
  obtain ⟨-, halign, -⟩ := (accessible_iff _ _ _).1 hacc
  unfold BankOffset
  cases size <;> simp only [AccessSize.bytes] at hhi halign <;> omega

theorem inv_storeRun (h : Inv s) {a : Nat} {size : AccessSize} (v : BitVec 64)
    (hacc : accessible s a size.bytes = true)
    (hbank : regionOf a = .samples ∨ regionOf a = .complex) :
    Inv { s with mem := writeRun a (toBytes size.bytes v) s.mem } := by
  refine inv_withMem h (writeRun_wf _ _ _ h.1) fun x hx => ?_
  refine memFind_writeRun_of_outside _ _ _ _ ?_
  rw [toBytes_length]
  by_contra hin
  exact hx (bankOffset_of_accessible hacc hbank (by omega) (by omega))

theorem inv_writeValue (h : Inv s) {a : Nat} {size : AccessSize} (v : BitVec 64)
    (hacc : accessible s a size.bytes = true) : Inv (writeValue a size.bytes v s) := by
  rw [writeValue]
  cases hr : regionOf a with
  | control =>
    obtain ⟨-, -, hidle⟩ := (accessible_iff _ _ _).1 hacc
    exact inv_writeControl h v fun ha => hidle.resolve_right (by rw [ha]; decide)
  | samples => exact inv_storeRun h v hacc (.inl hr)
  | complex => exact inv_storeRun h v hacc (.inr hr)
  | cregs | rom | reserved | undecoded => exact h

/-! ### Commands -/

theorem readsN_of_dest {i : Instr} (h : destZ i ≠ none ∨ destS i ≠ none) : readsN i = true := by
  cases i <;> simp_all [destZ, destS, readsN]

/-- The N x N region of a bank lies in the bank at a legal side (R47). -/
theorem bankOffset_of_mayStore {i : Instr} (hc : commandError i s = none) {x : Nat}
    (hx : MayStore i s x) : BankOffset x := by
  have hN (hdest : destZ i ≠ none ∨ destS i ≠ none) : activeN s ≤ 512 :=
    activeN_le s (log2n_le_of_commandError_none hc (readsN_of_dest hdest))
  rcases hx with ⟨z, hz, p, q, hp, hq, hin⟩ | ⟨b, hb, p, q, hp, hq, rfl⟩
  · have hside := hN (.inl (by simp [hz]))
    simp only [ByteOfZ, cplxAddr] at hin
    exact .inr (by omega)
  · have hside := hN (.inr (by simp [hb]))
    simp only [sampleAddr]
    exact .inl (by omega)

theorem inv_exec (h : Inv s) {i : Instr} {t : State} (hexec : exec i s = .next t) : Inv t := by
  rcases exec_cases hexec with ⟨code, hc, rfl⟩ | ⟨hc, u, hu, rfl⟩
  · obtain ⟨hlo, hhi⟩ := commandError_range hc
    exact inv_refuse h _ hlo hhi
  · have hmem : Inv { s with mem := u.mem } :=
      inv_withMem h (hu.wf h.1) fun x hx => hu.mem x fun hst => hx (bankOffset_of_mayStore hc hst)
    obtain ⟨hwf, hlist, hclear, hcode, _⟩ := hmem
    rw [hu.rest]
    refine ⟨hwf, hlist, hclear, hcode, fun j hj hN => ?_⟩
    obtain rfl := Option.some.inj hj
    exact log2n_le_of_commandError_none hc hN

end Inv

/-- Settles O25. -/
theorem resetHasInv : Obligations.ResetHasInv :=
  ⟨rfl, nofun, fun _ => ⟨rfl, rfl⟩, nofun, nofun⟩

/-- Settles O24: each case of a step is one of the operations that keep the invariant, or a reset,
which establishes it. -/
theorem stepKeepsInv : Obligations.StepKeepsInv := by
  unfold Obligations.StepKeepsInv
  intro s t h hstep
  have hpast : Inv (pastEvent s) := h
  cases stepTo_of_step hstep with
  | core => exact inv_coreTurn hpast
  | reset => exact resetHasInv
  | read a n => exact inv_busRead hpast a n
  | denied => exact hpast
  | write a size v hacc => exact inv_writeValue hpast v hacc
  | illegal v =>
    exact inv_refuse (s := answer (.okay 0#64) (pastEvent s)) hpast v (by decide) (by decide)
  | command _ hexec => exact inv_exec (s := answer (.okay 0#64) (pastEvent s)) hpast hexec

end Sys2Proof.Machine

/-! SUPPORT. Host accesses that answer OKAY, said once for reads and once for writes, and the reads
and writes of the registers (R33 to R46). Proofs of `Obligations.ControlRegisterAccess`,
`Obligations.StatusRegister` and `Obligations.RegisterFileAccess`. -/

namespace Sys2Proof.Machine

open Sys2Proof.Claims

section Okay

variable {s : State} {rest : List Event} {offset : BitVec 32} {size : AccessSize}

theorem pastEvent_of_cons {e : Event} (h : s.events = e :: rest) :
    pastEvent s = { s with events := rest } := by rw [pastEvent, h]; rfl

theorem step_of_read_okay (h : s.events = .access (.read offset size) :: rest)
    (hacc : accessible { s with events := rest } offset.toNat size.bytes = true) :
    step s = .next (answer (.okay (readValue { s with events := rest } offset.toNat size.bytes))
      (if inBank offset.toNat then endReading { s with events := rest }
        else { s with events := rest })) := by
  rw [step_of_settled (nextActivity_of_read h), pastEvent_of_cons h, busRead, if_pos hacc]

theorem step_of_write_okay {v : BitVec 64} (h : s.events = .access (.write offset size v) :: rest)
    (hacc : accessible { s with events := rest } offset.toNat size.bytes = true)
    (hro : readOnly offset.toNat = false) (hcmd : offset.toNat ≠ 0x028) :
    step s = .next (answer (.okay 0#64)
      (writeValue offset.toNat size.bytes v { s with events := rest })) := by
  refine step_of_settled ((nextActivity_of_write h).trans ?_)
  rw [pastEvent_of_cons h, busWrite, hacc, hro, if_neg hcmd]
  rfl

end Okay

/-! ### Registers -/

/-- An 8-byte location outside the banks (R102, R104, R105). -/
structure IsRegister (a : Nat) : Prop where
  size : sizeAllowed (regionOf a) 8 = true
  aligned : a % 8 = 0
  noBank : inBank a = false

theorem IsRegister.accessible {a : Nat} (h : IsRegister a) {s : State}
    (ha : s.pending = none ∨ answersWhileBusy a = true) :
    accessible s a AccessSize.b8.bytes = true :=
  (accessible_iff s a 8).2 ⟨h.size, h.aligned, ha⟩

theorem step_of_register_read {s : State} {rest : List Event} {offset : BitVec 32}
    (hreg : IsRegister offset.toNat) (h : s.events = .access (.read offset .b8) :: rest)
    (ha : s.pending = none ∨ answersWhileBusy offset.toNat = true) :
    step s = .next (answer (.okay (readValue { s with events := rest } offset.toNat 8))
      { s with events := rest }) := by
  rw [step_of_read_okay h (hreg.accessible ha), hreg.noBank]
  rfl

theorem readsAs_of_readValue {offset : BitVec 32} {val : State → BitVec 64}
    (hreg : IsRegister offset.toNat)
    (hval : ∀ s rest, readValue { s with events := rest } offset.toNat 8 = val s) :
    ReadsAs offset val := by
  intro s rest hidle hev
  rw [step_of_register_read hreg hev (.inl hidle), hval]
  rfl

/-- The state with other events to come and another last answer: neither is the block's own. -/
def withBus (es : List Event) (r : Option Response) (s : State) : State :=
  { s with events := es, resp := r }

/-- A register whose write is `upd`, a change that starts no command and does not look at the bus,
and which reads as `back` after it. -/
theorem writeThenRead_of_writeValue {offset : BitVec 32} {v back : BitVec 64} {upd : State → State}
    (hreg : IsRegister offset.toNat) (hread : ∀ s, readValue (upd s) offset.toNat 8 = back)
    (hwrite : ∀ s, writeValue offset.toNat 8 v s = upd s := by intro; rfl)
    (hbus : ∀ s es r, upd (withBus es r s) = withBus es r (upd s) := by intros; rfl)
    (hpend : ∀ s, (upd s).pending = s.pending := by intro; rfl)
    (hro : readOnly offset.toNat = false := by rfl)
    (hcmd : offset.toNat ≠ 0x028 := by decide) : WriteThenRead offset v upd back := by
  intro s rest hidle hev
  refine ⟨_, ?_, rfl, ?_⟩
  · rw [step_of_write_okay hev (hreg.accessible (.inl hidle)) hro hcmd]
    exact congrArg (fun t => Host.Outcome.next (answer (.okay 0#64) t))
      ((hwrite _).trans (hbus s _ s.resp))
  · have hback : readValue (withBus rest (some (.okay 0#64)) (upd s)) offset.toNat 8 = back := by
      rw [← hbus, hread]
    have hidle' : (upd s).pending = none := (hpend s).trans hidle
    exact (step_of_register_read (s := withBus _ _ (upd s)) hreg rfl (.inl hidle')).trans
      (congrArg (fun d => Host.Outcome.next (withBus rest (some (.okay d)) (upd s))) hback)

/-! ### What the registers with reserved bits read as -/

theorem getLsbD_and_mask (v : BitVec 64) (n i : Nat) :
    (v &&& BitVec.ofNat 64 (2 ^ n - 1)).getLsbD i = (v.getLsbD i && decide (i < n)) := by
  rw [BitVec.getLsbD_and, BitVec.getLsbD_ofNat, Nat.testBit_two_pow_sub_one]
  rcases Nat.lt_or_ge i 64 with h | h
  · rw [decide_eq_true h, Bool.true_and]
  · rw [BitVec.getLsbD_of_ge _ _ h, Bool.false_and, Bool.false_and]

theorem getLsbD_flagBit (b : Bool) {k : Nat} (hk : k < 64) (i : Nat) :
    (flagBit b k).getLsbD i = (b && decide (i = k)) := by
  cases b
  · rw [flagBit, if_neg Bool.false_ne_true, BitVec.getLsbD_zero, Bool.false_and]
  · rw [flagBit, if_pos rfl, BitVec.getLsbD_shiftLeft, BitVec.getLsbD_one, Bool.true_and]
    by_cases h : i = k
    · simp [h, hk]
    · simp [h]
      omega

theorem ncfg_readback (v : BitVec 64) : (v.extractLsb' 0 4).setWidth 64 = v &&& 0xF#64 := by
  apply BitVec.eq_of_getLsbD_eq
  intro i hi
  rw [show 0xF#64 = BitVec.ofNat 64 (2 ^ 4 - 1) from rfl, getLsbD_and_mask]
  simp [hi, Bool.and_comm]

theorem filt_readback (v : BitVec 64) :
    (v.extractLsb' 0 2).setWidth 64 ||| (v.extractLsb' 2 1).setWidth 64 <<< 2 = v &&& 0x7#64 := by
  apply BitVec.eq_of_getLsbD_eq
  intro i hi
  rw [show 0x7#64 = BitVec.ofNat 64 (2 ^ 3 - 1) from rfl, getLsbD_and_mask]
  simp only [BitVec.getLsbD_or, BitVec.getLsbD_shiftLeft, BitVec.getLsbD_setWidth,
    BitVec.getLsbD_extractLsb']
  rcases (by omega : i < 2 ∨ i = 2 ∨ 2 < i) with h | rfl | h
  · simp [hi, h, show i < 3 by omega]
  · simp
  · simp [show ¬ i < 2 by omega, show ¬ i < 3 by omega, show ¬ i - 2 < 1 by omega]

theorem irqen_readback (v : BitVec 64) :
    flagBit (v.getLsbD 0) 0 ||| flagBit (v.getLsbD 1) 1 = v &&& 0x3#64 := by
  apply BitVec.eq_of_getLsbD_eq
  intro i hi
  rw [show 0x3#64 = BitVec.ofNat 64 (2 ^ 2 - 1) from rfl, getLsbD_and_mask, BitVec.getLsbD_or,
    getLsbD_flagBit _ (by decide), getLsbD_flagBit _ (by decide)]
  rcases (by omega : i = 0 ∨ i = 1 ∨ 1 < i) with rfl | rfl | h
  · simp
  · simp
  · simp [show i ≠ 0 by omega, show i ≠ 1 by omega, show ¬ i ≤ 1 by omega]

/-- The 8-byte locations outside the banks, decided. -/
theorem isRegister_of_decide (a : Nat)
    (h : (sizeAllowed (regionOf a) 8 && a % 8 == 0 && !inBank a) = true) : IsRegister a := by
  simp only [Bool.and_eq_true, beq_iff_eq, Bool.not_eq_true'] at h
  exact ⟨h.1.1, h.1.2, h.2⟩

/-- Settles O18. -/
theorem controlRegisterAccess : Obligations.ControlRegisterAccess := by
  unfold Obligations.ControlRegisterAccess
  refine ⟨fun v => ⟨?ncfg, ?filt, ?cutoff, ?logdiv, ?irqen⟩, ?id, ?cmd, ?imagmax, ?errcmd⟩
  case ncfg =>
    exact writeThenRead_of_writeValue (isRegister_of_decide _ rfl) fun _ => ncfg_readback v
  case filt =>
    exact writeThenRead_of_writeValue (isRegister_of_decide _ rfl) fun _ => filt_readback v
  case irqen =>
    exact writeThenRead_of_writeValue (isRegister_of_decide _ rfl) fun _ => irqen_readback v
  case cutoff | logdiv =>
    exact writeThenRead_of_writeValue (isRegister_of_decide _ rfl) fun _ => rfl
  case id | cmd | imagmax | errcmd =>
    exact readsAs_of_readValue (isRegister_of_decide _ rfl) fun _ _ => rfl

/-! ### STATUS -/

theorem getLsbD_statusWord (s : State) (i : Nat) :
    (statusWord s).getLsbD i
      = (busy s && decide (i = 0) || s.done && decide (i = 1) || s.err && decide (i = 2)
        || s.eovf && decide (i = 3) || !decide (i < 8) && s.errcode.getLsbD (i - 8)) := by
  simp only [statusWord, BitVec.getLsbD_or, BitVec.getLsbD_shiftLeft, BitVec.getLsbD_setWidth,
    getLsbD_flagBit _ (show 0 < 64 by decide), getLsbD_flagBit _ (show 1 < 64 by decide),
    getLsbD_flagBit _ (show 2 < 64 by decide), getLsbD_flagBit _ (show 3 < 64 by decide)]
  rcases Nat.lt_or_ge i 16 with h | h
  · simp [show i < 64 by omega, show i - 8 < 64 by omega]
  · simp [BitVec.getLsbD_of_ge s.errcode (i - 8) (by omega)]

/-- Settles O19: STATUS answers in flight too, its read is `statusWord` and its write is
`writeOneToClear`. -/
theorem statusRegister : Obligations.StatusRegister := by
  unfold Obligations.StatusRegister
  intro s v rest
  have hreg : IsRegister (0x030#32).toNat := isRegister_of_decide _ rfl
  have hanswers : answersWhileBusy (0x030#32).toNat = true := rfl
  refine ⟨fun hev => ⟨statusWord s, ?read, ?busy, ?done, ?err, ?eovf, ?low, ?code, ?high⟩,
    fun hev => ?write⟩
  case read => rw [step_of_register_read hreg hev (.inr hanswers)]; rfl
  case write => rw [step_of_write_okay hev (hreg.accessible (.inr hanswers)) rfl (by decide)]; rfl
  case busy | done | err | eovf =>
    rw [getLsbD_statusWord]
    simp
  all_goals
    apply BitVec.eq_of_getLsbD_eq
    intro i hi
    rw [BitVec.getLsbD_extractLsb', getLsbD_statusWord, decide_eq_true hi]
  case low => simp; omega
  case code => simp; omega
  case high =>
    rw [BitVec.getLsbD_of_ge s.errcode _ (by omega)]
    simp
    omega

/-! ### C registers -/

/-- The offset of a half of a C register: the imaginary one is 8 bytes higher (R46). -/
def cregOffset (r : BitVec 3) (h : Bool) : Nat := 0x100 + 16 * r.toNat + if h then 8 else 0

theorem toNat_cregOffset (r : BitVec 3) (h : Bool) :
    (BitVec.ofNat 32 (cregOffset r h)).toNat = cregOffset r h := by
  rw [BitVec.toNat_ofNat, Nat.mod_eq_of_lt]
  unfold cregOffset
  split <;> omega

theorem regionOf_cregOffset (r : BitVec 3) (h : Bool) : regionOf (cregOffset r h) = .cregs := by
  revert r h
  decide

theorem cregAt_cregOffset (r : BitVec 3) (h : Bool) : cregAt (cregOffset r h) = r := by
  revert r h
  decide

theorem cregOffset_mod (r : BitVec 3) (h : Bool) : cregOffset r h % 16 = if h then 8 else 0 := by
  unfold cregOffset
  split <;> omega

theorem isRegister_cregOffset (r : BitVec 3) (h : Bool) : IsRegister (cregOffset r h) where
  size := by rw [regionOf_cregOffset]; rfl
  aligned := by
    have := cregOffset_mod r h
    split at this <;> omega
  noBank := by rw [inBank, regionOf_cregOffset]; rfl

theorem storeHalf_cregOffset (r : BitVec 3) (h : Bool) (v : F64) (c : Cplx) :
    storeHalf (cregOffset r h) v c = if h then ⟨c.re, v⟩ else ⟨v, c.im⟩ := by
  rw [storeHalf, cregOffset_mod]
  cases h <;> rfl

theorem halfAt_cregOffset (r : BitVec 3) (h : Bool) (c : Cplx) :
    halfAt (cregOffset r h) c = if h then c.im else c.re := by
  rw [halfAt, cregOffset_mod]
  cases h <;> rfl

theorem readValue_cregOffset (r : BitVec 3) (h : Bool) (s : State) :
    readValue s (cregOffset r h) 8 = if h then (getC s r).im else (getC s r).re := by
  rw [readValue, regionOf_cregOffset]
  simp only [halfAt_cregOffset, cregAt_cregOffset]

theorem writeValue_cregOffset (r : BitVec 3) (h : Bool) (v : BitVec 64) (s : State) :
    writeValue (cregOffset r h) 8 v s
      = setC r (if h then ⟨(getC s r).re, v⟩ else ⟨v, (getC s r).im⟩) s := by
  rw [writeValue, regionOf_cregOffset]
  simp only [storeHalf_cregOffset, cregAt_cregOffset]

/-- Settles O20: the write stores the half, which `getC_setC` reads back. -/
theorem registerFileAccess : Obligations.RegisterFileAccess := by
  unfold Obligations.RegisterFileAccess
  intro r h v
  have hoff := toNat_cregOffset r h
  refine writeThenRead_of_writeValue (offset := BitVec.ofNat 32 (cregOffset r h)) ?reg
    (hread := fun s => ?read) (hwrite := fun s => ?write) (hro := ?ro) (hcmd := ?cmd) <;> rw [hoff]
  case reg => exact isRegister_cregOffset r h
  case read =>
    rw [readValue_cregOffset, getC_setC, if_pos rfl]
    cases h <;> rfl
  case write => exact writeValue_cregOffset r h v s
  case ro => rw [readOnly, regionOf_cregOffset]; unfold cregOffset; simp; omega
  case cmd => unfold cregOffset; omega

end Sys2Proof.Machine

/-! SUPPORT. Host accesses to the banks. Proof of `Obligations.BankWriteThenRead`. -/

namespace Sys2Proof.Machine

open Sys2Proof.Claims

theorem toBytes_getElem (n : Nat) (v : BitVec 64) (k : Nat) (hk : k < (toBytes n v).length) :
    (toBytes n v)[k] = v.extractLsb' (8 * k) 8 := by simp [toBytes]

/-- Bytes that are all written read as written, whatever the draws. -/
theorem readBytes_of_written {s : State} {a n : Nat} {v : BitVec 64}
    (h : ∀ k, k < n → memFind s.mem (a + k) = some (v.extractLsb' (8 * k) 8)) :
    readBytes s a n = toBytes n v := by
  refine List.map_congr_left fun k hk => ?_
  rw [readByte, h k (List.mem_range.1 hk), Option.getD_some]

theorem ofBytes_toBytes_size (n : Nat) (v : BitVec 64) :
    ofBytes (toBytes n v) = BitVec.ofNat 64 (v.toNat % 2 ^ (8 * n)) := by
  rw [ofBytes, natOfBytes_toBytes, show 256 = 2 ^ 8 from rfl, ← pow_mul]

/-- The bank a byte offset is in, of those that the size may access (R102, R104). -/
theorem region_of_bank_access {a : Nat} {size : AccessSize}
    (h : (0x400000 ≤ a ∧ a < 0x500000) ∨ (0x1000000 ≤ a ∧ a < 0x1800000 ∧ size = .b8)) :
    (regionOf a = .samples ∨ regionOf a = .complex) ∧
      sizeAllowed (regionOf a) size.bytes = true := by
  rcases h with hs | ⟨hlo, hhi, rfl⟩
  · have hr := (regionOf_eq_samples_iff a).2 hs
    exact ⟨.inl hr, by rw [hr]; rfl⟩
  · have hr := (regionOf_eq_complex_iff a).2 ⟨hlo, hhi⟩
    exact ⟨.inr hr, by rw [hr]; rfl⟩

section Bank

variable {a : Nat} (hbank : regionOf a = .samples ∨ regionOf a = .complex)
include hbank

theorem readValue_bank (n : Nat) (s : State) : readValue s a n = ofBytes (readBytes s a n) := by
  rcases hbank with h | h <;> rw [readValue, h]

theorem writeValue_bank (n : Nat) (v : BitVec 64) (s : State) :
    writeValue a n v s = { s with mem := writeRun a (toBytes n v) s.mem } := by
  rcases hbank with h | h <;> rw [writeValue, h]

theorem readOnly_bank : readOnly a = false := by
  have : 0x48 < a := by
    rw [regionOf_eq_samples_iff, regionOf_eq_complex_iff] at hbank
    omega
  rcases hbank with h | h <;> simp [readOnly, h] <;> omega

end Bank

/-- Settles O17: the stored run of bytes is what `readBytes_of_written` reads back. -/
theorem bankWriteThenRead : Obligations.BankWriteThenRead := by
  unfold Obligations.BankWriteThenRead
  intro s a size v rest hidle haccess halign hev
  obtain ⟨hbank, hsize⟩ := region_of_bank_access haccess
  have hacc (u : State) (hu : u.pending = none) : accessible u a.toNat size.bytes = true :=
    (accessible_iff _ _ _).2 ⟨hsize, halign, .inl hu⟩
  have hcmd : a.toNat ≠ 0x028 := by omega
  have hstored (k : Nat) (hk : k < size.bytes) :
      memFind (writeRun a.toNat (toBytes size.bytes v) s.mem) (a.toNat + k)
        = some (v.extractLsb' (8 * k) 8) := by
    rw [memFind_writeRun_of_inside _ _ _ _ (by simpa using hk), toBytes_getElem]
  have hwrite := step_of_write_okay hev (hacc _ hidle) (readOnly_bank hbank) hcmd
  rw [writeValue_bank hbank] at hwrite
  refine ⟨_, _, hwrite, step_of_read_okay rfl (hacc _ hidle), rfl, hstored, ?others, rfl, ?back⟩
  case others =>
    intro x hx
    refine memFind_writeRun_of_outside _ _ _ _ ?_
    rw [toBytes_length]
    omega
  case back =>
    rw [answer_resp, readValue_bank hbank, readBytes_of_written hstored, ofBytes_toBytes_size]

end Sys2Proof.Machine

/-! SUPPORT. The twiddle ROM: where the host reads it, and its 256 entries against the turns through
`π/256` of `Laws/Rom.lean`. Proof of `Obligations.TwiddleRom`. -/

namespace Sys2Proof.Machine

open Sys2Proof.Claims

/-! ### Where the host reads it -/

theorem regionOf_rom {a : Nat} (hlo : 0x1000 ≤ a) (hhi : a < 0x2000) : regionOf a = .rom := by
  simp [regionOf, hhi, show ¬ a < 0x50 by omega, show ¬ a < 0x100 by omega,
    show ¬ a < 0x180 by omega, show ¬ a < 0x1000 by omega]

theorem isRegister_rom {a : Nat} (hlo : 0x1000 ≤ a) (hhi : a < 0x2000) (halign : a % 8 = 0) :
    IsRegister a where
  size := by rw [regionOf_rom hlo hhi]; rfl
  aligned := halign
  noBank := by rw [inBank, regionOf_rom hlo hhi]; rfl

theorem readValue_rom {a : Nat} (hlo : 0x1000 ≤ a) (hhi : a < 0x2000) (s : State) :
    readValue s a 8 = halfAt a (tw ((a - 0x1000) / 16)) := by
  rw [readValue, regionOf_rom hlo hhi]

/-- A half of a ROM entry as the host reads it; `half` is 0 for the real and 8 for the imaginary
one (R51). -/
theorem readsAs_rom {k : Nat} (hk : k < 256) {half : Nat} (hhalf : half = 0 ∨ half = 8) :
    ReadsAs (BitVec.ofNat 32 (0x1000 + half + 16 * k)) fun _ => halfAt half (tw k) := by
  have hoff : (BitVec.ofNat 32 (0x1000 + half + 16 * k)).toNat = 0x1000 + half + 16 * k := by
    rw [BitVec.toNat_ofNat]
    omega
  apply readsAs_of_readValue <;> rw [hoff]
  · exact isRegister_rom (by omega) (by omega) (by omega)
  · intro s rest
    rw [readValue_rom (by omega) (by omega), halfAt, halfAt,
      show (0x1000 + half + 16 * k - 0x1000) / 16 = k by omega,
      show (0x1000 + half + 16 * k) % 16 = half % 16 by omega]

/-! ### What it holds -/

/-- The kernel's evaluation of the 256 real halves against the turns; `TW[128]` is exact. -/
theorem roundsScaled_re : ∀ k < 256, k ≠ 128 → roundsScaled (tw k).re (turn k).1 = true := by
  decide +kernel

/-- The kernel's evaluation of the 256 imaginary halves against the turns; `TW[0]` is exact. -/
theorem roundsScaled_im : ∀ k < 256, k ≠ 0 → roundsScaled (tw k).im (-(turn k).2) = true := by
  decide +kernel

theorem tw_angle (k : Nat) : 2 * Real.pi * k / 512 = k * (Real.pi / 256) := by ring

theorem isNearest_tw_re {k : Nat} (hk : k < 256) :
    IsNearest (Real.cos (2 * Real.pi * k / 512)) (tw k).re := by
  rw [tw_angle]
  by_cases h : k = 128
  · subst h
    rw [show ((128 : Nat) : ℝ) * (Real.pi / 256) = Real.pi / 2 by push_cast; ring,
      Real.cos_pi_div_two]
    exact isNearest_zero (by decide)
  · exact isNearest_of_roundsScaled (roundsScaled_re k hk h) (turn_error_lt hk).1

theorem isNearest_tw_im {k : Nat} (hk : k < 256) :
    IsNearest (-Real.sin (2 * Real.pi * k / 512)) (tw k).im := by
  rw [tw_angle]
  by_cases h : k = 0
  · subst h
    simpa using isNearest_zero (v := (tw 0).im) (by decide)
  · refine isNearest_of_roundsScaled (roundsScaled_im k hk h) ?_
    have herr := (turn_error_lt hk).2
    rw [abs_sub_comm] at herr
    push_cast
    rwa [neg_mul, sub_neg_eq_add, neg_add_eq_sub]

/-- The mirror of R53, entry by entry. -/
theorem tw_mirror : ∀ k < 128, 1 ≤ k → tw (256 - k) = ⟨fneg (tw k).re, (tw k).im⟩ := by
  decide +kernel

/-- The exchange of cosine and sine of R53, entry by entry. -/
theorem tw_exchange : ∀ k < 129, feq (tw (128 - k)).re (fneg (tw k).im) = true := by
  decide +kernel

/-- Settles O21: every entry's rounding is an integer comparison with its turn, but for the two
exact zeros. -/
theorem twiddleRom : Obligations.TwiddleRom := by
  unfold Obligations.TwiddleRom
  refine ⟨fun k hk => ⟨?_, ?_⟩, fun k hk => ⟨isNearest_tw_re hk, isNearest_tw_im hk⟩,
    by decide, by decide, by decide, fun k h1 h127 => tw_mirror k (by omega) h1,
    fun k h => tw_exchange k (by omega)⟩
  · exact readsAs_rom hk (.inl rfl)
  · exact readsAs_rom hk (.inr rfl)

end Sys2Proof.Machine

/-! SUPPORT. Which host accesses answer OKAY, by the map of R102, and the outcomes of a read, of a
write and of a CMD write, said once each (R111). Proofs of `Obligations.StepRunsDecodedCommand`,
`Obligations.AccessesAnswerByTheMap`, `Obligations.BusErrorChangesNothing`,
`Obligations.BusyShutsOutTheHost` and `Obligations.ReadsHaveNoSideEffect`. -/

namespace Sys2Proof.Machine

open Sys2Proof.Claims

/-! ### The checks of R111 as ranges of offsets -/

theorem regionOf_eq_rom_iff (a : Nat) : regionOf a = .rom ↔ 0x1000 ≤ a ∧ a < 0x2000 := by
  unfold regionOf
  split_ifs <;> simp only [false_iff, true_iff] <;> omega

theorem sizeAllowed_regionOf_iff (a n : Nat) :
    sizeAllowed (regionOf a) n = true ↔
      ((a < 0x50 ∨ (0x100 ≤ a ∧ a < 0x180) ∨ (0x1000 ≤ a ∧ a < 0x2000) ∨
          (0x1000000 ≤ a ∧ a < 0x1800000)) ∧ n = 8) ∨ (0x400000 ≤ a ∧ a < 0x500000) := by
  unfold regionOf
  split_ifs <;> simp only [sizeAllowed, beq_iff_eq, Bool.false_eq_true, false_iff, true_iff] <;>
    omega

theorem answersWhileBusy_iff (a : Nat) :
    answersWhileBusy a = true ↔ a = 0x000 ∨ a = 0x030 ∨ a = 0x038 := by
  simp [answersWhileBusy, or_assoc]

theorem readOnly_eq_false_iff (a : Nat) :
    readOnly a = false ↔
      a ≠ 0x000 ∧ a ≠ 0x040 ∧ a ≠ 0x048 ∧ ¬(0x1000 ≤ a ∧ a < 0x2000) := by
  rw [← regionOf_eq_rom_iff]
  simp [readOnly, and_assoc]

theorem pending_eq_none_iff (s : State) : s.pending = none ↔ busy s = false := by simp [busy]

theorem accessible_iff_answersOkay (s : State) (a n : Nat) :
    accessible s a n = true ↔ AnswersOkay (busy s) false a n := by
  rw [accessible_iff, sizeAllowed_regionOf_iff, answersWhileBusy_iff, pending_eq_none_iff,
    AnswersOkay]
  cases busy s <;> simp

theorem answersOkay_write_iff (inFlight : Bool) (a n : Nat) :
    AnswersOkay inFlight true a n ↔ AnswersOkay inFlight false a n ∧ readOnly a = false := by
  rw [readOnly_eq_false_iff]
  simp [AnswersOkay, and_assoc]

theorem not_answersOkay_in_flight {s : State} {write : Bool} {offset : BitVec 32} {n : Nat}
    (hbusy : busy s = true) (hid : offset ≠ 0x000#32) (hstatus : offset ≠ 0x030#32)
    (hirqen : offset ≠ 0x038#32) : ¬ AnswersOkay (busy s) write offset.toNat n := by
  rintro ⟨-, -, hanswers, -⟩
  rcases hanswers hbusy with h | h | h
  · exact hid (BitVec.eq_of_toNat_eq h)
  · exact hstatus (BitVec.eq_of_toNat_eq h)
  · exact hirqen (BitVec.eq_of_toNat_eq h)

theorem inBank_of_lt {a : Nat} (h : a < 0x400000) : inBank a = false := by
  have hsamples : regionOf a ≠ .samples := by
    rw [Ne, regionOf_eq_samples_iff]
    omega
  have hcomplex : regionOf a ≠ .complex := by
    rw [Ne, regionOf_eq_complex_iff]
    omega
  simp [inBank, hsamples, hcomplex]

/-! ### What a step at an access comes to -/

@[simp] theorem refuse_resp (v : BitVec 64) (code : BitVec 8) (s : State) :
    (refuse v code s).resp = s.resp := by
  rcases refuse_cases v code s with ⟨_, h⟩ | ⟨_, h⟩ <;> rw [h]

theorem exec_resp {i : Instr} {s t : State} (h : exec i s = .next t) : t.resp = s.resp := by
  rw [(commandsKeepConfigurationAndFlags i s t h).1]

section Access

variable {s : State} {rest : List Event} {offset : BitVec 32} {size : AccessSize}

theorem step_of_read_denied (h : s.events = .access (.read offset size) :: rest)
    (hno : ¬ AnswersOkay (busy s) false offset.toNat size.bytes) :
    step s = .next { s with events := rest, resp := some .error } := by
  have hcheck : ¬ accessible { s with events := rest } offset.toNat size.bytes = true := by
    rwa [accessible_iff_answersOkay]
  rw [step_of_settled (nextActivity_of_read h), pastEvent_of_cons h, busRead, if_neg hcheck]
  rfl

/-- Everything a step at a read can do (R109, R111). -/
theorem step_read_cases (h : s.events = .access (.read offset size) :: rest) :
    (AnswersOkay (busy s) false offset.toNat size.bytes ∧ ∃ d, step s = .next { s with
        events := rest, resp := some (.okay d)
        draws := if inBank offset.toNat then s.draws + 1 else s.draws }) ∨
      (¬ AnswersOkay (busy s) false offset.toNat size.bytes ∧
        step s = .next { s with events := rest, resp := some .error }) := by
  by_cases hokay : AnswersOkay (busy s) false offset.toNat size.bytes
  · have hacc := (accessible_iff_answersOkay { s with events := rest } _ _).2 hokay
    refine .inl ⟨hokay, readValue { s with events := rest } offset.toNat size.bytes, ?_⟩
    rw [step_of_read_okay h hacc]
    cases inBank offset.toNat <;> rfl
  · exact .inr ⟨hokay, step_of_read_denied h hokay⟩

variable {v : BitVec 64}

theorem step_of_write_denied (h : s.events = .access (.write offset size v) :: rest)
    (hno : ¬ AnswersOkay (busy s) true offset.toNat size.bytes) :
    step s = .next { s with events := rest, resp := some .error } := by
  have hchecks : ¬(accessible { s with events := rest } offset.toNat size.bytes
      && !readOnly offset.toNat) = true := by
    rwa [Bool.and_eq_true, Bool.not_eq_true', accessible_iff_answersOkay, ← answersOkay_write_iff]
  refine step_of_settled ((nextActivity_of_write h).trans ?_)
  rw [pastEvent_of_cons h, busWrite, if_neg hchecks]
  rfl

/-- A CMD write that passes the checks of R111 reaches `Submit` (R400). -/
theorem nextActivity_of_cmd_write (h : s.events = .access (.write offset size v) :: rest)
    (hacc : accessible { s with events := rest } offset.toNat size.bytes = true)
    (hcmd : offset.toNat = 0x028) :
    nextActivity s = submitValue v { s with events := rest, resp := some (.okay 0#64) } := by
  have hro : readOnly offset.toNat = false := by rw [hcmd]; rfl
  rw [nextActivity_of_write h, pastEvent_of_cons h, busWrite, hacc, hro, if_pos hcmd]
  rfl

/-- Whatever a submission comes to, the answer to the CMD write stands (R400). -/
theorem step_resp_of_submitValue {u : State} (h : nextActivity s = submitValue v u) :
    ∃ t, step s = .next t ∧ t.resp = u.resp := by
  rcases submitValue_cases v u with ⟨i, -, he⟩ | ⟨_, -, he⟩ <;> rw [he] at h
  · obtain ⟨t, ht⟩ := exec_next i u
    exact ⟨t, (by rw [step, h]; exact ht), exec_resp ht⟩
  · exact ⟨_, step_of_settled h, refuse_resp ..⟩

/-- Everything a step at a write can answer; what an OKAY one stores or runs is left open. -/
theorem step_write_cases (h : s.events = .access (.write offset size v) :: rest) :
    (AnswersOkay (busy s) true offset.toNat size.bytes ∧
        ∃ t, step s = .next t ∧ t.resp = some (.okay 0#64)) ∨
      (¬ AnswersOkay (busy s) true offset.toNat size.bytes ∧
        step s = .next { s with events := rest, resp := some .error }) := by
  by_cases hokay : AnswersOkay (busy s) true offset.toNat size.bytes
  · obtain ⟨haccess, hro⟩ := (answersOkay_write_iff _ _ _).1 hokay
    have hacc := (accessible_iff_answersOkay { s with events := rest } _ _).2 haccess
    refine .inl ⟨hokay, ?_⟩
    by_cases hcmd : offset.toNat = 0x028
    · exact step_resp_of_submitValue (nextActivity_of_cmd_write h hacc hcmd)
    · exact ⟨_, step_of_write_okay h hacc hro hcmd, rfl⟩
  · exact .inr ⟨hokay, step_of_write_denied h hokay⟩

end Access

/-- Settles O1. -/
theorem stepRunsDecodedCommand : Obligations.StepRunsDecodedCommand := by
  unfold Obligations.StepRunsDecodedCommand
  intro s v i rest hev hidle hdecode
  have hreg : IsRegister (0x028#32).toNat := isRegister_of_decide _ rfl
  have hnext := nextActivity_of_cmd_write hev (hreg.accessible (.inl hidle)) rfl
  rw [step, hnext, submitValue, hdecode]

/-- Settles O13: `AnswersOkay` tells the two outcomes of a read apart, and those of a write. -/
theorem accessesAnswerByTheMap : Obligations.AccessesAnswerByTheMap := by
  unfold Obligations.AccessesAnswerByTheMap
  intro s offset size data rest
  refine ⟨fun hev => ?read, fun hev => ?write⟩
  case read =>
    rcases step_read_cases hev with ⟨hokay, d, hstep⟩ | ⟨hno, hstep⟩
    · exact ⟨_, hstep, ⟨fun _ => hokay, fun _ => ⟨d, rfl⟩⟩, absurd hokay⟩
    · exact ⟨_, hstep, ⟨nofun, fun hokay => absurd hokay hno⟩, fun _ => rfl⟩
  case write =>
    rcases step_write_cases hev with ⟨hokay, t, hstep, hresp⟩ | ⟨hno, hstep⟩
    · exact ⟨t, hstep, ⟨fun _ => hokay, fun _ => hresp⟩, absurd hokay⟩
    · exact ⟨_, hstep, ⟨nofun, fun hokay => absurd hokay hno⟩, fun _ => rfl⟩

/-- Settles O14: of the two outcomes of an access, the one that answers ERROR changes nothing. -/
theorem busErrorChangesNothing : Obligations.BusErrorChangesNothing := by
  unfold Obligations.BusErrorChangesNothing
  intro s a rest hev
  cases a with
  | read offset size =>
    rcases step_read_cases hev with ⟨-, d, hstep⟩ | ⟨-, hstep⟩
    · exact ⟨_, hstep, nofun⟩
    · exact ⟨_, hstep, fun _ => ⟨rfl, rfl⟩⟩
  | write offset size v =>
    rcases step_write_cases hev with ⟨-, t, hstep, hresp⟩ | ⟨-, hstep⟩
    · refine ⟨t, hstep, fun herror => ?_⟩
      rw [hresp] at herror
      cases herror
    · exact ⟨_, hstep, fun _ => ⟨rfl, rfl⟩⟩

/-- Settles O16: an OKAY read moves the draws on in a bank alone, and a denied one changes
nothing. -/
theorem readsHaveNoSideEffect : Obligations.ReadsHaveNoSideEffect := by
  unfold Obligations.ReadsHaveNoSideEffect
  intro s offset size rest hev
  rcases step_read_cases hev with ⟨-, d, hstep⟩ | ⟨-, hstep⟩
  · refine ⟨_, hstep, rfl, fun hlow => ?_⟩
    simp [inBank_of_lt hlow]
  · exact ⟨_, hstep, rfl, fun _ => rfl⟩

/-! ### The three offsets that answer in flight -/

theorem isRegister_of_answersWhileBusy {a : Nat} (h : answersWhileBusy a = true) :
    IsRegister a := by
  rcases (answersWhileBusy_iff a).1 h with rfl | rfl | rfl <;> exact isRegister_of_decide _ rfl

/-- In flight or not: ID, STATUS and IRQEN answer (R108). -/
theorem step_of_open_read {s : State} {rest : List Event} {offset : BitVec 32}
    (hopen : answersWhileBusy offset.toNat = true)
    (h : s.events = .access (.read offset .b8) :: rest) :
    step s = .next { s with
      events := rest
      resp := some (.okay (readValue { s with events := rest } offset.toNat 8)) } :=
  step_of_register_read (isRegister_of_answersWhileBusy hopen) h (.inr hopen)

theorem step_of_irqen_write {s : State} {rest : List Event} {v : BitVec 64}
    (h : s.events = .access (.write 0x038#32 .b8 v) :: rest) :
    step s = .next { s with
      events := rest, resp := some (.okay 0#64)
      doneie := v.getLsbD 0, errie := v.getLsbD 1 } :=
  step_of_write_okay h ((isRegister_of_answersWhileBusy rfl).accessible (.inr rfl)) rfl (by decide)

theorem getLsbD_irqenWord (s : State) (i : Nat) :
    (irqenWord s).getLsbD i = (s.doneie && decide (i = 0) || s.errie && decide (i = 1)) := by
  rw [irqenWord, BitVec.getLsbD_or, getLsbD_flagBit _ (by decide), getLsbD_flagBit _ (by decide)]

theorem irqenWord_reserved (s : State) : (irqenWord s).extractLsb' 2 62 = 0#62 := by
  apply BitVec.eq_of_getLsbD_eq
  intro i hi
  rw [BitVec.getLsbD_extractLsb', getLsbD_irqenWord]
  simp
  omega

/-- Settles O15: the other offsets are those `AnswersOkay` shuts out, and a write of STATUS is as
O19 has it. -/
theorem busyShutsOutTheHost : Obligations.BusyShutsOutTheHost := by
  unfold Obligations.BusyShutsOutTheHost
  intro s offset size data rest hbusy
  refine ⟨fun hid hstatus hirqen hev => ?shut, fun hoff hev => ?reads, fun hoff hev => ?writes,
    step_of_open_read rfl,
    fun hev => ⟨irqenWord s, step_of_open_read rfl hev, ?doneie, ?errie, ?reserved⟩,
    step_of_irqen_write⟩
  case shut =>
    have hno (write : Bool) : ¬ AnswersOkay (busy s) write offset.toNat size.bytes :=
      not_answersOkay_in_flight hbusy hid hstatus hirqen
    rcases hev with hev | hev
    · exact step_of_read_denied hev (hno _)
    · exact step_of_write_denied hev (hno _)
  case reads =>
    have hopen : answersWhileBusy offset.toNat = true := by
      rcases hoff with rfl | rfl | rfl <;> rfl
    exact ⟨_, step_of_open_read hopen hev⟩
  case writes =>
    rcases hoff with rfl | rfl
    · exact ⟨_, (statusRegister s data rest).2 hev, rfl, rfl⟩
    · exact ⟨_, step_of_irqen_write hev, rfl, rfl⟩
  case doneie | errie =>
    rw [getLsbD_irqenWord]
    simp
  case reserved => exact irqenWord_reserved s

end Sys2Proof.Machine

/-! SUPPORT. The decoder as one `↔` on the two halves of a CMD value, and the bits a command's
operands stand in (R150 to R161). Proofs of the obligations on the encoding. -/

namespace Sys2Proof

/-- A word decodes to a command exactly when the command's row accepts it and makes that command of
it (R157, R161). -/
theorem decodeWord_eq_some_iff {w : BitVec 32} {i : Instr} :
    decodeWord w = some i ↔ (rowOf i).accepts w = true ∧ (rowOf i).build w = i := by
  refine ⟨decodeWord_cases, fun ⟨haccepts, hbuild⟩ => ?_⟩
  rw [decodeWord_of_accepts (rowOf_mem i) w haccepts, hbuild]

theorem decode_eq_command_iff {v : BitVec 64} {i : Instr} :
    decode v = .command i ↔
      v.extractLsb' 32 32 = 0#32 ∧ decodeWord (v.extractLsb' 0 32) = some i := by
  rw [decode]
  by_cases hupper : v.extractLsb' 32 32 = 0#32
  · rw [if_neg (not_not.2 hupper)]
    cases decodeWord (v.extractLsb' 0 32) with
    | some j => simp [hupper]
    | none => split_ifs <;> simp
  · simp [hupper]

/-! ### Every command's word decodes to it -/

theorem decodeWord_encode (i : Instr) : decodeWord (encode i) = some i :=
  decodeWord_eq_some_iff.2 (rowOf_statement i)

theorem decode_cmdValue (i : Instr) : decode (cmdValue i) = .command i := by
  rw [decode_eq_command_iff, cmdValue, BitVec.extractLsb'_append_eq_left,
    BitVec.extractLsb'_append_eq_right]
  exact ⟨rfl, decodeWord_encode i⟩

/-- Settles O3: a command's word meets the command's own row, which reads every field back. -/
theorem decodeOfEncode : Obligations.DecodeOfEncode := decode_cmdValue

/-- Settles O2: each word is the CMD value of its command. -/
theorem exampleWordsDecode : Obligations.ExampleWordsDecode :=
  ⟨decode_cmdValue .nop, decode_cmdValue (.cadd 2#3 0#3 1#3), decode_cmdValue (.twld 0#3 64#8),
    decode_cmdValue (.bflyw 0#3 1#3 2#3), decode_cmdValue (.cld 4#3 1#1 3#9 5#9),
    decode_cmdValue (.ifftrow 0#1 1#9), decode_cmdValue (.ifft2d 2#2 0#1 1#1),
    decode_cmdValue (.filter 0#1 1#1), decode_cmdValue (.logmag 3#2 0#1)⟩

/-! ### No bit of a command's word is ignored -/

/-- The bits of the field of `len` bits from bit `start` up. -/
def fieldBits (start len : Nat) : BitVec 32 := (BitVec.allOnes len).setWidth 32 <<< start

/-- The bits of the fields a command's operands stand in, in the order of the operands (R153 to
R156, R158). -/
def operandBits : Instr → BitVec 32
  | .nop => 0#32
  | .cmov _ _ | .cconj _ _ | .cmag _ _ | .cscln _ _ => fieldBits 8 3 ||| fieldBits 11 3
  | .cadd _ _ _ | .csub _ _ _ | .cmul _ _ _ | .cdiv _ _ _ =>
    fieldBits 8 3 ||| fieldBits 11 3 ||| fieldBits 14 3
  | .twld _ _ => fieldBits 8 3 ||| fieldBits 17 8
  | .bfly _ _ _ => fieldBits 11 3 ||| fieldBits 14 3 ||| fieldBits 17 8
  | .bflyw _ _ _ => fieldBits 11 3 ||| fieldBits 14 3 ||| fieldBits 8 3
  | .cld _ _ _ _ | .cst _ _ _ _ =>
    fieldBits 8 3 ||| fieldBits 11 1 ||| fieldBits 12 9 ||| fieldBits 21 9
  | .lift _ _ | .fft2d _ _ => fieldBits 8 1 ||| fieldBits 12 2
  | .fftrow _ _ | .ifftrow _ _ => fieldBits 8 1 ||| fieldBits 16 9
  | .fftrows _ | .ifftrows _ | .trans _ => fieldBits 8 1
  | .zcopy _ _ | .filter _ _ => fieldBits 8 1 ||| fieldBits 9 1
  | .realclamp _ _ | .logmag _ _ => fieldBits 10 2 ||| fieldBits 9 1
  | .ifft2d _ _ _ => fieldBits 10 2 ||| fieldBits 8 1 ||| fieldBits 9 1

/-- A row's mask covers exactly the bits that belong to no operand (R157). -/
theorem not_mask_rowOf (i : Instr) : ~~~(rowOf i).mask = operandBits i := by
  cases i <;> simp only [rowOf, operandBits] <;> decide

theorem getLsbD_fieldBits (start len j : Nat) :
    (fieldBits start len).getLsbD j =
      (decide (j < 32) && decide (start ≤ j ∧ j < start + len)) := by
  rw [fieldBits, BitVec.getLsbD_shiftLeft, BitVec.getLsbD_setWidth, BitVec.getLsbD_allOnes,
    Bool.eq_iff_iff]
  simp only [Bool.and_eq_true, Bool.not_eq_true', decide_eq_true_eq, decide_eq_false_iff_not]
  omega

/-- Two words have the same field exactly when they agree on its bits. -/
theorem extractLsb'_eq_extractLsb'_iff {start len : Nat} {w w' : BitVec 32} :
    w.extractLsb' start len = w'.extractLsb' start len ↔
      w &&& fieldBits start len = w' &&& fieldBits start len := by
  constructor
  · intro h
    apply BitVec.eq_of_getLsbD_eq
    intro j _
    rw [BitVec.getLsbD_and, BitVec.getLsbD_and, getLsbD_fieldBits]
    by_cases hj : start ≤ j ∧ j < start + len
    · have hbit := congrArg (·.getLsbD (j - start)) h
      have hlt : j - start < len := by omega
      rw [BitVec.getLsbD_extractLsb', BitVec.getLsbD_extractLsb', Nat.add_sub_cancel' hj.1,
        decide_eq_true hlt, Bool.true_and, Bool.true_and] at hbit
      rw [hbit]
    · simp [hj]
  · intro h
    apply BitVec.eq_of_getLsbD_eq
    intro j hj
    have hbit := congrArg (·.getLsbD (start + j)) h
    simp only [BitVec.getLsbD_and, getLsbD_fieldBits] at hbit
    rw [BitVec.getLsbD_extractLsb', BitVec.getLsbD_extractLsb']
    by_cases hlt : start + j < 32
    · simpa [hj, hlt] using hbit
    · rw [BitVec.getLsbD_of_ge w _ (by omega), BitVec.getLsbD_of_ge w' _ (by omega)]

/-- Two words agree on two sets of bits exactly when they agree on their union. -/
theorem and_or_eq_iff {n : Nat} {w w' a b : BitVec n} :
    w &&& (a ||| b) = w' &&& (a ||| b) ↔ w &&& a = w' &&& a ∧ w &&& b = w' &&& b := by
  constructor
  · intro h
    have hsub (c : BitVec n) (hc : (a ||| b) &&& c = c) : w &&& c = w' &&& c := by
      rw [← hc, ← BitVec.and_assoc, h, BitVec.and_assoc]
    exact ⟨hsub a (by ext; simp +contextual), hsub b (by ext; simp +contextual)⟩
  · rintro ⟨ha, hb⟩
    rw [BitVec.and_or_distrib_left, BitVec.and_or_distrib_left, ha, hb]

/-- A row makes the same command of two words exactly when they agree on its operands' bits. -/
theorem build_rowOf_eq_iff (i : Instr) (w w' : BitVec 32) :
    (rowOf i).build w = (rowOf i).build w' ↔ w &&& operandBits i = w' &&& operandBits i := by
  cases i <;>
    simp [operandBits, and_or_eq_iff, ← extractLsb'_eq_extractLsb'_iff, and_assoc, rowOf, rowNop,
      rowCmov, rowCadd, rowCsub, rowCmul, rowCdiv, rowCconj, rowCmag, rowCscln, rowTwld, rowBfly,
      rowBflyw, rowCld, rowCst, rowLift, rowFftrow, rowIfftrow, rowFftrows, rowIfftrows, rowTrans,
      rowZcopy, rowRealclamp, rowFft2d, rowIfft2d, rowFilter, rowLogmag, fieldD, fieldA, fieldB,
      fieldK, fieldZ, fieldRowX, fieldCol, fieldZD, fieldZS, fieldSD, fieldSS, fieldRowM]

/-- A word that decodes has its row's pattern under the mask and the operands' bits elsewhere, so
two words that decode to one command are equal (R157). -/
theorem decodeWord_injective {w w' : BitVec 32} {i : Instr} (h : decodeWord w = some i)
    (h' : decodeWord w' = some i) : w = w' := by
  obtain ⟨haccepts, hbuild⟩ := decodeWord_cases h
  obtain ⟨haccepts', hbuild'⟩ := decodeWord_cases h'
  rw [OpcodeRow.accepts, beq_iff_eq] at haccepts haccepts'
  have hmask : w &&& (rowOf i).mask = w' &&& (rowOf i).mask := haccepts.trans haccepts'.symm
  have hoperands : w &&& ~~~(rowOf i).mask = w' &&& ~~~(rowOf i).mask := by
    rw [not_mask_rowOf, ← build_rowOf_eq_iff, hbuild, hbuild']
  have hall := and_or_eq_iff.2 ⟨hmask, hoperands⟩
  rwa [BitVec.or_not_self, BitVec.and_allOnes, BitVec.and_allOnes] at hall

/-- Settles O4: the word that `v` carries and `encode i` decode to the same command. -/
theorem encodeOfDecode : Obligations.EncodeOfDecode := by
  intro v i h
  obtain ⟨hupper, hword⟩ := decode_eq_command_iff.1 h
  calc
    v = v.extractLsb' 32 32 ++ v.extractLsb' 0 32 :=
      (BitVec.extractLsb'_append_extractLsb' (w := 32) (len := 32)).symm
    _ = cmdValue i := by
      rw [hupper, decodeWord_injective hword (decodeWord_encode i), cmdValue]

/-! ### The opcode map -/

/-- Settles O5: the rows exclude each other by their opcodes, which every mask covers. -/
theorem decodeFollowsTheOpcodeMap : Obligations.DecodeFollowsTheOpcodeMap := by
  refine ⟨fun v i => ?map, fun v hnone => ?total, ?disjoint⟩
  case map => rw [decode_eq_command_iff, decodeWord_eq_some_iff, OpcodeRow.accepts, beq_iff_eq]
  case total =>
    cases hv : decode v with
    | command i => exact absurd hv (hnone i)
    | illegal c => exact ⟨c, rfl⟩
  case disjoint =>
    refine opcodes_differ.imp_of_mem fun {r r'} hr hr' hne w ⟨hw, hw'⟩ => hne ?_
    rw [← fieldOpc_of_accepts r hr w (beq_iff_eq.2 hw),
      fieldOpc_of_accepts r' hr' w (beq_iff_eq.2 hw')]

/-- A word with an opcode that no row has meets no row (R159). -/
theorem decodeWord_of_not_opcodeListed {w : BitVec 32} (h : opcodeListed w = false) :
    decodeWord w = none := by
  rw [opcodeListed, List.any_eq_false] at h
  rw [decodeWord, Option.map_eq_none_iff, List.find?_eq_none]
  intro r hr haccepts
  exact h r hr (beq_iff_eq.2 (fieldOpc_of_accepts r hr w haccepts))

theorem decode_of_not_opcodeListed {v : BitVec 64} (hupper : v.extractLsb' 32 32 = 0#32)
    (h : opcodeListed (v.extractLsb' 0 32) = false) : decode v = .illegal .reservedOpcode := by
  simp [decode, hupper, decodeWord_of_not_opcodeListed h, h]

/-- The ranges the opcodes of the map lie in (R158, R159). -/
theorem opcode_ranges : ∀ r ∈ opcodeTable,
    (fieldOpc r.pattern).toNat ≤ 0x0B ∨
      (0x10 ≤ (fieldOpc r.pattern).toNat ∧ (fieldOpc r.pattern).toNat ≤ 0x11) ∨
      (0x20 ≤ (fieldOpc r.pattern).toNat ∧ (fieldOpc r.pattern).toNat ≤ 0x2B) := by
  unfold opcodeTable
  decide

/-- Settles O6: a listed opcode lies outside the reserved ranges. -/
theorem reservedEncodingsAreIllegal : Obligations.ReservedEncodingsAreIllegal := by
  intro v
  refine ⟨fun hupper => by rw [decode, if_pos hupper], fun hupper hreserved => ?_⟩
  have hopc : fieldOpc (v.extractLsb' 0 32) = v.extractLsb' 0 8 :=
    BitVec.extractLsb'_extractLsb'_of_le (by decide)
  refine decode_of_not_opcodeListed hupper (Bool.eq_false_iff.2 fun hlisted => ?_)
  obtain ⟨r, hr, hrow⟩ := List.any_eq_true.1 hlisted
  have hranges := opcode_ranges r hr
  rw [← beq_iff_eq.1 hrow, hopc] at hranges
  omega

end Sys2Proof

/-! SUPPORT. The sign operations, and a value as its sign and magnitude pattern: NaN, infinity, zero
and finiteness of what an operation packs (R13, R200, R204). -/

namespace Sys2Proof.Machine

/-! ### Flipping and clearing the sign bit -/

theorem getLsbD_fneg (x : F64) (k : Nat) :
    (fneg x).getLsbD k = if k = 63 then !x.getLsbD k else x.getLsbD k := by
  have hmask : (0x8000000000000000#64).getLsbD k = decide (k = 63) := by
    rw [show 0x8000000000000000#64 = BitVec.twoPow 64 63 from rfl, BitVec.getLsbD_twoPow]
    simp [eq_comm]
  rw [fneg, BitVec.getLsbD_xor, hmask]
  split_ifs with h <;> simp [h]

theorem getLsbD_fabs (x : F64) (k : Nat) :
    (fabs x).getLsbD k = (x.getLsbD k && decide (k < 63)) := by
  rw [fabs, BitVec.getLsbD_and]
  by_cases hk : k < 64
  · have hmask : ∀ k < 64, (0x7FFFFFFFFFFFFFFF#64).getLsbD k = decide (k < 63) := by decide
    rw [hmask k hk]
  · simp [BitVec.getLsbD_of_ge x k (by omega)]

@[simp] theorem fsign_fneg (x : F64) : fsign (fneg x) = !fsign x := getLsbD_fneg x 63

@[simp] theorem fmag_fneg (x : F64) : fmag (fneg x) = fmag x := by
  rw [fmag, fneg, BitVec.toNat_xor, Nat.xor_mod_two_pow]
  simp [fmag]

@[simp] theorem fsign_fabs (x : F64) : fsign (fabs x) = false :=
  (getLsbD_fabs x 63).trans (Bool.and_false _)

@[simp] theorem fmag_fabs (x : F64) : fmag (fabs x) = fmag x := by
  rw [fmag, fabs, BitVec.toNat_and,
    show (0x7FFFFFFFFFFFFFFF#64).toNat = 2 ^ 63 - 1 from rfl, Nat.and_two_pow_sub_one_eq_mod,
    Nat.mod_mod]
  rfl

theorem eq_packSign_iff {x : F64} {s : Bool} {p : Nat} (hp : p < 2 ^ 63) :
    x = packSign s p ↔ fsign x = s ∧ fmag x = p := by
  constructor
  · rintro rfl
    exact ⟨fsign_packSign s p hp, fmag_packSign s p hp⟩
  · rintro ⟨rfl, rfl⟩
    exact (packSign_fmag x).symm

theorem fabs_eq (x : F64) : fabs x = packSign false (fmag x) :=
  (eq_packSign_iff (fmag_lt x)).2 ⟨fsign_fabs x, fmag_fabs x⟩

/-! ### The kinds of values, by the magnitude pattern -/

theorem isNaN_eq_false_iff (x : F64) : isNaN x = false ↔ fmag x ≤ infPattern := by
  rw [isNaN, decide_eq_false_iff_not, not_lt]

theorem isInf_iff (x : F64) : isInf x = true ↔ fmag x = infPattern := decide_eq_true_iff

theorem isZero_iff (x : F64) : isZero x = true ↔ fmag x = 0 := decide_eq_true_iff

theorem isFinite_iff (x : F64) : isFinite x = true ↔ fmag x < infPattern := decide_eq_true_iff

theorem isNaN_packSign (s : Bool) {p : Nat} (hp : p ≤ infPattern) : isNaN (packSign s p) = false := by
  rw [isNaN_eq_false_iff, fmag_packSign s p (hp.trans_lt (by decide))]
  exact hp

end Sys2Proof.Machine

/-! SUPPORT. The register commands (R220 to R229): one value to one C register. Proofs of
`Obligations.CopyCommands` and `Obligations.ArithmeticCommands`. -/

namespace Sys2Proof.Machine

open Sys2Proof.Claims

@[simp] theorem getC_accept (i : Instr) (s : State) (e : BitVec 3) :
    getC (accept i s) e = getC s e := rfl

/-- A command accepted after one write to a C register leaves that value there and changes nothing
else of the state. -/
theorem register_command {i : Instr} {d : BitVec 3} {v : Cplx} {s : State}
    (h : exec i s = .next (accept i (setC d v s))) :
    ∃ t, exec i s = .next t ∧ getC t d = v ∧ OnlyRegister i d s t := by
  refine ⟨_, h, ?value, ?others, rfl⟩
  case value => rw [getC_accept, getC_setC, if_pos rfl]
  case others =>
    intro e he
    rw [getC_accept, getC_setC, if_neg he]

theorem exec_cconj (d a : BitVec 3) (s : State) :
    exec (.cconj d a) s = .next (accept (.cconj d a) (setC d (cconj (getC s a)) s)) := rfl

theorem exec_cdiv (d a b : BitVec 3) (s : State) :
    exec (.cdiv d a b) s
      = .next (accept (.cdiv d a b) (setC d (cdiv (getC s a) (getC s b)) s)) := rfl

theorem exec_cscln {s : State} (h : s.log2n.toNat ≤ 9) (d a : BitVec 3) :
    exec (.cscln d a) s
      = .next (accept (.cscln d a) (setC d (divn (getC s a) (activeN s)) s)) := by
  simp only [exec, execCscln, checkN_of_legal _ _ h, submit_none]

theorem exec_twld (d : BitVec 3) (k : BitVec 8) (s : State) :
    exec (.twld d k) s
      = .next (accept (.twld d k) (setC d (romEntries[k.toNat]?.getD czero) s)) := by
  rw [show romEntries[k.toNat]?.getD czero = tw k.toNat from List.getD_eq_getElem?_getD.symm]
  rfl

/-- Settles O28: each command writes one C register; CCONJ's value differs from the operand in the
sign bit that `fneg` flips. -/
theorem copyCommands : Obligations.CopyCommands := by
  unfold Obligations.CopyCommands
  refine ⟨fun _ => rfl, fun _ _ _ => register_command rfl, fun d a s => ?cconj,
    fun d k s => register_command (exec_twld d k s)⟩
  case cconj =>
    obtain ⟨t, hexec, hval, hframe⟩ := register_command (exec_cconj d a s)
    have him : (getC t d).im = fneg (getC s a).im := by rw [hval]; rfl
    refine ⟨t, hexec, by rw [hval]; rfl, ?_, fun k hk => ?_, hframe⟩
    · rw [him, getLsbD_fneg, if_pos rfl]
    · rw [him, getLsbD_fneg, if_neg hk.ne]

/-- Settles O29: each command writes one C register, with the complex operation of its rule. -/
theorem arithmeticCommands : Obligations.ArithmeticCommands := by
  unfold Obligations.ArithmeticCommands
  refine ⟨fun _ _ _ _ => register_command rfl, fun _ _ _ _ => register_command rfl,
    fun _ _ _ _ => register_command rfl, fun d a b s => ?cdiv,
    fun _ _ _ => register_command rfl, fun d a _ h => register_command (exec_cscln h d a)⟩
  case cdiv =>
    obtain ⟨t, hexec, hval, hframe⟩ := register_command (exec_cdiv d a b s)
    exact ⟨t, hexec, ⟨_, rfl, hval⟩, hframe⟩

end Sys2Proof.Machine

/-! SUPPORT. The reference transforms index by index (R250, R251). Proof of
`Obligations.FftRecursion`. -/

namespace Sys2Proof.Machine

/-- The even-indexed elements of a list of even length, as R250 lists them. -/
theorem evens_eq_map_range {x : List Cplx} {n : Nat} (h : x.length = 2 * n) :
    evens x = (List.range n).map fun k => x.getD (2 * k) czero := by
  refine List.ext_getElem? fun k => ?_
  rw [evens_getElem?, List.getElem?_map]
  rcases Nat.lt_or_ge k n with hk | hk
  · simp [hk, show 2 * k < x.length by omega]
  · simp [hk, show x.length ≤ 2 * k by omega]

/-- The odd-indexed elements of a list of even length, as R250 lists them. -/
theorem odds_eq_map_range {x : List Cplx} {n : Nat} (h : x.length = 2 * n) :
    odds x = (List.range n).map fun k => x.getD (2 * k + 1) czero := by
  refine List.ext_getElem? fun k => ?_
  rw [odds_getElem?, List.getElem?_map]
  rcases Nat.lt_or_ge k n with hk | hk
  · simp [hk, show 2 * k + 1 < x.length by omega]
  · simp [hk, show x.length ≤ 2 * k + 1 by omega]

section Combine

variable {stride n k : Nat} {e o : List Cplx} (he : e.length = n) (ho : o.length = n) (hk : k < n)

include ho hk in
theorem twiddled_getD :
    (twiddled stride 0 o).getD k czero = cmul (tw (k * stride)) (o.getD k czero) := by
  subst ho
  simp [hk, twiddled_getElem stride 0 o k hk]

include he ho hk

/-- The sums of R250. -/
theorem combine_getD_low :
    (combine stride e o).getD k czero
      = cadd (e.getD k czero) (cmul (tw (k * stride)) (o.getD k czero)) := by
  rw [← twiddled_getD ho hk]
  simp [combine, List.getElem?_append, he, ho, hk]

/-- The differences of R250. -/
theorem combine_getD_high :
    (combine stride e o).getD (k + n) czero
      = csub (e.getD k czero) (cmul (tw (k * stride)) (o.getD k czero)) := by
  rw [← twiddled_getD ho hk]
  simp [combine, he, ho, hk]

end Combine

theorem map_cconj_eq_map_range {x : List Cplx} {n : Nat} (h : x.length = n) :
    x.map cconj
      = (List.range n).map fun k => ⟨(x.getD k czero).re, fneg (x.getD k czero).im⟩ := by
  subst h
  refine List.ext_getElem (by simp) fun k h1 h2 => ?_
  have hk : k < x.length := by simpa using h1
  simp [hk, cconj]

/-- Settles O42: one unfolding of `fft1d` combines the transforms of the even- and odd-indexed
elements, and `ifft1d` maps over the transform of the conjugates. -/
theorem fftRecursion : Obligations.FftRecursion := by
  unfold Obligations.FftRecursion
  refine ⟨fun _ => rfl, ?fft, ?ifft⟩
  case fft =>
    intro l x e o _ hx he ho
    have hx2 : x.length = 2 * 2 ^ l := by rw [hx, pow_succ, mul_comm]
    have hfft : fft1d (l + 1) x = combine (512 / 2 ^ (l + 1)) e o := by
      rw [he, ho, ← evens_eq_map_range hx2, ← odds_eq_map_range hx2]
      rfl
    have hel : e.length = 2 ^ l := by rw [he, fft1d_length l _ (by simp)]
    have hol : o.length = 2 ^ l := by rw [ho, fft1d_length l _ (by simp)]
    refine ⟨fft1d_length _ _ hx, fun k hk t ht => ?_⟩
    rw [hfft, ht]
    exact ⟨combine_getD_low hel hol hk, combine_getD_high hel hol hk⟩
  case ifft =>
    intro l x y _ hx hy
    rw [← map_cconj_eq_map_range hx] at hy
    have hyl : y.length = 2 ^ l := by rw [hy, fft1d_length l _ (by simpa using hx)]
    refine ⟨ifft1d_length l x hx, fun k hk => ?_⟩
    simp [ifft1d, ← hy, hyl, hk, divn, cconj]

end Sys2Proof.Machine

/-! SUPPORT. Rounding to nearest, told by mid-points between magnitude patterns: what `roundUnits`
answers is nearest with ties to even, monotone, and exact on the values of binary64 (R201 to
R203). -/

namespace Sys2Proof.Machine

open Sys2Proof.Claims

/-! ### Magnitudes of patterns -/

@[simp] theorem magUnits_zero : magUnits 0 = 0 := rfl

theorem magUnits_le_iff {m n : Nat} : magUnits m ≤ magUnits n ↔ m ≤ n :=
  magUnits_strictMono.le_iff_le

theorem magUnits_lt_iff {m n : Nat} : magUnits m < magUnits n ↔ m < n :=
  magUnits_strictMono.lt_iff_lt

theorem magUnits_inj {m n : Nat} : magUnits m = magUnits n ↔ m = n :=
  magUnits_strictMono.injective.eq_iff

theorem units_pack {s : Bool} {p : Nat} (hp : p < 2 ^ 63) : units (packSign s p) = magUnits p := by
  rw [units_eq_magUnits, fmag_packSign s p hp]

/-- A significand `r` that has lost `sh` low bits, the carry into the next exponent included. It
holds past the largest finite value too, as the half-way point of R203 needs. -/
theorem magUnits_scaled {sh r : Nat} (hr : r ≤ 2 ^ 53) (hsh : sh = 0 ∨ 2 ^ 52 ≤ r) :
    magUnits (sh * 2 ^ 52 + r) = r * 2 ^ sh := by
  unfold magUnits
  rcases Nat.lt_or_ge r (2 ^ 52) with hlow | hlow
  · obtain rfl : sh = 0 := by omega
    rw [if_pos (by omega), pow_zero]
    omega
  rcases Nat.lt_or_eq_of_le hr with hlt | rfl
  · rw [if_neg (by omega), show (sh * 2 ^ 52 + r) / 2 ^ 52 - 1 = sh by omega,
      show 2 ^ 52 + (sh * 2 ^ 52 + r) % 2 ^ 52 = r by omega]
  · rw [if_neg (by omega), show (sh * 2 ^ 52 + 2 ^ 53) / 2 ^ 52 - 1 = sh + 1 by omega,
      show 2 ^ 52 + (sh * 2 ^ 52 + 2 ^ 53) % 2 ^ 52 = 2 ^ 52 by omega]
    ring

/-- Twice the half-way point above the largest finite value (R203). -/
theorem magUnits_overflow :
    magUnits (infPattern - 1) + magUnits infPattern = 2 * ((2 ^ 54 - 1) * 2 ^ 2044) := by
  rw [show infPattern - 1 = 2045 * 2 ^ 52 + (2 ^ 53 - 1) from rfl,
    show infPattern = 2046 * 2 ^ 52 + 2 ^ 52 from rfl, magUnits_scaled (by norm_num) (by norm_num),
    magUnits_scaled (by norm_num) (by norm_num), show 2046 = 2044 + 2 from rfl,
    show 2045 = 2044 + 1 from rfl, pow_succ 2 (2044 + 1), pow_succ 2 2044]
  generalize 2 ^ 2044 = h
  omega

/-! ### Nearest by mid-points -/

/-- Pattern `p` is what `num / den` units round to, were there no largest finite value: on `p`'s
side of the mid-point with every other pattern, at a mid-point only if `p` is even (R201). -/
structure RoundsAt (num den p : Nat) : Prop where
  below : ∀ m < p, (magUnits m + magUnits p) * den ≤ 2 * num ∧
    ((magUnits m + magUnits p) * den = 2 * num → p % 2 = 0)
  above : ∀ m > p, 2 * num ≤ (magUnits p + magUnits m) * den ∧
    (2 * num = (magUnits p + magUnits m) * den → p % 2 = 0)

section Between

variable {num den m x y : Nat} (hden : 0 < den) (hx : magUnits m * den + x = num)
  (hy : num + y = magUnits (m + 1) * den)
include hden hx hy

/-- A value nearer to the pattern below it, or half-way with that pattern even. -/
theorem roundsAt_floor (hxy : x ≤ y) (htie : x = y → m % 2 = 0) : RoundsAt num den m where
  below k hk := by
    have h : magUnits k * den < magUnits m * den :=
      Nat.mul_lt_mul_of_pos_right (magUnits_lt_iff.2 hk) hden
    rw [add_mul]
    omega
  above k hk := by
    have h : magUnits (m + 1) * den ≤ magUnits k * den :=
      Nat.mul_le_mul_right _ (magUnits_le_iff.2 hk)
    rw [add_mul]
    exact ⟨by omega, fun _ => htie (by omega)⟩

/-- A value nearer to the pattern above it, or half-way with that pattern even. -/
theorem roundsAt_ceil {p : Nat} (hp : p = m + 1) (hyx : y ≤ x) (htie : x = y → p % 2 = 0) :
    RoundsAt num den p where
  below k hk := by
    have h : magUnits k * den ≤ magUnits m * den :=
      Nat.mul_le_mul_right _ (magUnits_le_iff.2 (by omega))
    rw [add_mul, hp]
    exact ⟨by omega, fun _ => hp ▸ htie (by omega)⟩
  above k hk := by
    have h : magUnits p * den < magUnits k * den :=
      Nat.mul_lt_mul_of_pos_right (magUnits_lt_iff.2 hk) hden
    rw [hp] at h
    rw [add_mul, hp]
    omega

end Between

/-- A value of binary64 rounds to itself. -/
theorem roundsAt_exact {den : Nat} (hden : 0 < den) (p : Nat) : RoundsAt (magUnits p * den) den p := by
  have hlt : magUnits p * den < magUnits (p + 1) * den :=
    Nat.mul_lt_mul_of_pos_right (magUnits_lt_iff.2 p.lt_succ_self) hden
  exact roundsAt_floor hden (add_zero _) (Nat.add_sub_of_le hlt.le) (Nat.zero_le _)
    fun h => by omega

/-- Rounding is monotone in the exact value: were the pattern of the smaller value the larger one,
both values would be the mid-point of two neighbours, and both neighbours even. -/
theorem RoundsAt.le_of_le {num den p num' den' p' : Nat} (h : RoundsAt num den p)
    (h' : RoundsAt num' den' p') (hden : 0 < den) (hden' : 0 < den')
    (hle : num * den' ≤ num' * den) : p ≤ p' := by
  by_contra! hlt
  obtain ⟨hb, hbtie⟩ := h.below p' hlt
  obtain ⟨ha, hatie⟩ := h'.above (p' + 1) p'.lt_succ_self
  have hsum : magUnits p' + magUnits (p' + 1) ≤ magUnits p' + magUnits p :=
    Nat.add_le_add_left (magUnits_le_iff.2 hlt) _
  have hsum_den := Nat.mul_le_mul_right den hsum
  have hnum : 2 * num ≤ (magUnits p' + magUnits (p' + 1)) * den := by
    refine Nat.le_of_mul_le_mul_right ?_ hden'
    calc 2 * num * den' = 2 * (num * den') := mul_assoc _ _ _
      _ ≤ 2 * (num' * den) := Nat.mul_le_mul_left 2 hle
      _ = 2 * num' * den := (mul_assoc _ _ _).symm
      _ ≤ (magUnits p' + magUnits (p' + 1)) * den' * den := Nat.mul_le_mul_right _ ha
      _ = (magUnits p' + magUnits (p' + 1)) * den * den' := mul_right_comm _ _ _
  have hnum' : (magUnits p' + magUnits (p' + 1)) * den' ≤ 2 * num' := by
    refine Nat.le_of_mul_le_mul_right ?_ hden
    calc (magUnits p' + magUnits (p' + 1)) * den' * den
        = (magUnits p' + magUnits (p' + 1)) * den * den' := mul_right_comm _ _ _
      _ ≤ 2 * num * den' := Nat.mul_le_mul_right _ (hsum_den.trans hb)
      _ = 2 * (num * den') := mul_assoc _ _ _
      _ ≤ 2 * (num' * den) := Nat.mul_le_mul_left 2 hle
      _ = 2 * num' * den := (mul_assoc _ _ _).symm
  have hp : p ≤ p' + 1 := magUnits_le_iff.1
    (Nat.le_of_add_le_add_left (Nat.le_of_mul_le_mul_right (hb.trans hnum) hden))
  have heven : p % 2 = 0 := hbtie (by omega)
  have heven' : p' % 2 = 0 := hatie (by omega)
  omega

theorem RoundsAt.unique {num den p q : Nat} (hp : RoundsAt num den p) (hq : RoundsAt num den q)
    (hden : 0 < den) : p = q :=
  le_antisymm (hp.le_of_le hq hden hden le_rfl) (hq.le_of_le hp hden hden le_rfl)

/-- No pattern is nearer, and at equal distance the rounded one is even. -/
theorem RoundsAt.nearest {num den p : Nat} (h : RoundsAt num den p) (hden : 0 < den) (m : Nat) :
    ((magUnits p * den : Nat) - (num : Int)).natAbs
        ≤ ((magUnits m * den : Nat) - (num : Int)).natAbs ∧
      (((magUnits p * den : Nat) - (num : Int)).natAbs
          = ((magUnits m * den : Nat) - (num : Int)).natAbs →
        magUnits m = magUnits p ∨ p % 2 = 0) := by
  rcases lt_trichotomy m p with hlt | rfl | hgt
  · obtain ⟨hmid, htie⟩ := h.below m hlt
    have hmono := Nat.mul_lt_mul_of_pos_right (magUnits_lt_iff.2 hlt) hden
    rw [add_mul] at hmid htie
    exact ⟨by omega, fun _ => .inr (htie (by omega))⟩
  · exact ⟨le_rfl, fun _ => .inl rfl⟩
  · obtain ⟨hmid, htie⟩ := h.above m hgt
    have hmono := Nat.mul_lt_mul_of_pos_right (magUnits_lt_iff.2 hgt) hden
    rw [add_mul] at hmid htie
    exact ⟨by omega, fun _ => .inr (htie (by omega))⟩

/-- Below the half-way point above the largest finite value, and only there, the pattern is
finite (R203). -/
theorem RoundsAt.lt_infPattern_iff {num den p : Nat} (h : RoundsAt num den p) (hden : 0 < den) :
    p < infPattern ↔ num < den * ((2 ^ 54 - 1) * 2 ^ 2044) := by
  have hhalf : (magUnits (infPattern - 1) + magUnits infPattern) * den
      = 2 * (den * ((2 ^ 54 - 1) * 2 ^ 2044)) := by
    rw [magUnits_overflow, mul_assoc, mul_comm den]
  generalize den * ((2 ^ 54 - 1) * 2 ^ 2044) = bound at hhalf
  constructor
  · intro hlt
    obtain ⟨hmid, htie⟩ := h.above infPattern hlt
    rcases Nat.lt_or_eq_of_le (Nat.le_sub_one_of_lt hlt) with hlt' | rfl
    · have hmono := Nat.mul_lt_mul_of_pos_right (Nat.add_lt_add_right
        (magUnits_lt_iff.2 hlt') (magUnits infPattern)) hden
      omega
    · have hodd : (infPattern - 1) % 2 ≠ 0 := by decide
      have hne := mt htie hodd
      omega
  · intro hlt
    by_contra! hge
    obtain ⟨hmid, -⟩ := h.below (infPattern - 1) (lt_of_lt_of_le (by decide) hge)
    have hmono := Nat.mul_le_mul_right den (Nat.add_le_add_left
      (magUnits_le_iff.2 hge) (magUnits (infPattern - 1)))
    omega

theorem getLsbD_zero_packSign (s : Bool) (p : Nat) :
    (packSign s p).getLsbD 0 = decide (p % 2 = 1) := by
  have hmod : (if s then 2 ^ 63 + p else p) % 2 = p % 2 := by split_ifs <;> omega
  rw [packSign, BitVec.getLsbD_ofNat, Nat.testBit_zero, hmod]
  exact Bool.true_and _

/-- A pattern that the mid-points single out, cut off at `+∞`, is rounded as R201 to R203 ask. -/
theorem RoundsAt.roundsTo {num den p : Nat} (h : RoundsAt num den p) (hden : 0 < den) {s : Bool}
    {r : F64} (hr : r = packSign s (min p infPattern)) :
    RoundsTo num den (fabs r) ∧ fsign r = s := by
  have hfinite := h.lt_infPattern_iff hden
  have hlt : min p infPattern < 2 ^ 63 := (min_le_right _ _).trans_lt (by decide)
  unfold RoundsTo
  generalize den * ((2 ^ 54 - 1) * 2 ^ 2044) = bound at hfinite ⊢
  subst hr
  rw [fabs_eq, fmag_packSign _ _ hlt, fsign_packSign _ _ hlt]
  refine ⟨?_, rfl⟩
  split_ifs with hnum
  · have hfin := hfinite.2 hnum
    rw [min_eq_left hfin.le] at hlt ⊢
    rw [isFinite_iff, fmag_packSign _ _ hlt, units_pack hlt]
    refine ⟨hfin, fun z _ => ?_⟩
    obtain ⟨hnear, htie⟩ := h.nearest hden (fmag z)
    rw [units_eq_magUnits]
    refine ⟨hnear, fun he => (htie he).imp_right fun heven => ?_⟩
    rw [getLsbD_zero_packSign, heven]
    rfl
  · rw [min_eq_right (not_lt.1 (mt hfinite.1 hnum))]
    rfl

/-! ### What `roundUnits` answers -/

/-- The quotient that `roundUnits` rounds to an integer has at most 53 bits. -/
theorem significand_lt (num den : Nat) : num / (den * 2 ^ dropBits (num / den)) < 2 ^ 53 := by
  rw [← Nat.div_div_eq_div_mul, Nat.div_lt_iff_lt_mul (by positivity), ← pow_add, dropBits,
    ilog2_eq, Nat.log2_eq_log_two]
  exact (Nat.lt_pow_succ_log_self one_lt_two _).trans_le (Nat.pow_le_pow_right two_pos (by omega))

/-- The quotient that `roundUnits` rounds has exactly 53 bits, unless no bit was dropped. -/
theorem le_significand (num den : Nat) :
    dropBits (num / den) = 0 ∨ 2 ^ 52 ≤ num / (den * 2 ^ dropBits (num / den)) := by
  rw [← Nat.div_div_eq_div_mul, Nat.le_div_iff_mul_le (by positivity), ← pow_add, dropBits,
    ilog2_eq, Nat.log2_eq_log_two]
  rcases Nat.lt_or_ge (Nat.log 2 (num / den)) 53 with hlog | hlog
  · exact .inl (by omega)
  · refine .inr ((Nat.pow_le_pow_right two_pos (by omega)).trans (Nat.pow_log_le_self 2 fun h0 => ?_))
    simp [h0] at hlog

/-- The pattern that `roundUnits` makes before it cuts off at `+∞` (R203). -/
def roundPattern (num den : Nat) : Nat :=
  dropBits (num / den) * 2 ^ 52 + roundHalfEven num (den * 2 ^ dropBits (num / den))

theorem roundUnits_eq (num den : Nat) :
    roundUnits num den = min (roundPattern num den) infPattern := rfl

section RoundUnits

variable (num : Nat) {den : Nat} (hden : 0 < den)
include hden

/-- `roundUnits` keeps 53 bits of the exact value, which lies between the patterns of the kept
significand and of the next one, and rounds to the nearer. -/
theorem roundsAt_roundPattern : RoundsAt num den (roundPattern num den) := by
  unfold roundPattern
  have hq53 := significand_lt num den
  have hq52 := le_significand num den
  generalize dropBits (num / den) = sh at hq53 hq52 ⊢
  have hD : 0 < den * 2 ^ sh := by positivity
  have hx : magUnits (sh * 2 ^ 52 + num / (den * 2 ^ sh)) * den + num % (den * 2 ^ sh) = num := by
    rw [magUnits_scaled hq53.le hq52, mul_assoc, mul_comm (2 ^ sh), mul_comm (num / _)]
    exact Nat.div_add_mod _ _
  have hy : num + (den * 2 ^ sh - num % (den * 2 ^ sh))
      = magUnits (sh * 2 ^ 52 + num / (den * 2 ^ sh) + 1) * den := by
    rw [add_assoc, magUnits_scaled hq53 (by omega), mul_assoc, mul_comm (2 ^ sh), Nat.succ_mul,
      mul_comm (num / _)]
    have := Nat.div_add_mod num (den * 2 ^ sh)
    have := Nat.mod_lt num hD
    omega
  have hlt := Nat.mod_lt num hD
  simp only [roundHalfEven]
  split_ifs with hlow hhigh heven
  · exact roundsAt_floor hden hx hy (by omega) (by omega)
  · exact roundsAt_ceil hden hx hy (add_assoc _ _ _).symm (by omega) (by omega)
  · exact roundsAt_floor hden hx hy (by omega) (by omega)
  · exact roundsAt_ceil hden hx hy (add_assoc _ _ _).symm (by omega) (by omega)

/-- A value of binary64, or the first beyond them, is rounded to its own pattern. -/
theorem roundUnits_exact {p : Nat} (hp : p ≤ infPattern) (hnum : num = magUnits p * den) :
    roundUnits num den = p := by
  have hround := roundsAt_roundPattern num hden
  rw [roundUnits_eq, hround.unique (hnum ▸ roundsAt_exact hden p) hden, min_eq_left hp]

/-- `roundUnits` is monotone in the exact value. -/
theorem roundUnits_mono {num' den' : Nat} (hden' : 0 < den') (h : num * den' ≤ num' * den) :
    roundUnits num den ≤ roundUnits num' den' :=
  min_le_min_right _ ((roundsAt_roundPattern num hden).le_of_le (roundsAt_roundPattern num' hden')
    hden hden' h)

/-- What is packed from a sign and `roundUnits` is rounded as R201 to R203 ask. -/
theorem roundsTo_of_eq_packSign {s : Bool} {r : F64} (hr : r = packSign s (roundUnits num den)) :
    RoundsTo num den (fabs r) ∧ fsign r = s :=
  (roundsAt_roundPattern num hden).roundsTo hden (roundUnits_eq num den ▸ hr)

end RoundUnits

end Sys2Proof.Machine

/-! SUPPORT. What each operation answers on NaNs and on finite operands, and its exact value rounded
once (R201 to R204, R208, R209). Proofs of `Obligations.OperationsRoundOnce` and
`Obligations.NansAreCanonical`. -/

namespace Sys2Proof.Machine

open Sys2Proof.Claims

/-! ### The kinds of values exclude each other -/

section Kinds

variable {x : F64}

theorem isNaN_of_isFinite (h : isFinite x = true) : isNaN x = false :=
  (isNaN_eq_false_iff x).2 ((isFinite_iff x).1 h).le

theorem isInf_of_isFinite (h : isFinite x = true) : isInf x = false :=
  decide_eq_false ((isFinite_iff x).1 h).ne

theorem isNaN_of_isInf (h : isInf x = true) : isNaN x = false :=
  (isNaN_eq_false_iff x).2 ((isInf_iff x).1 h).le

theorem isZero_of_isInf (h : isInf x = true) : isZero x = false :=
  decide_eq_false ((isInf_iff x).1 h ▸ by decide)

theorem isFinite_of_isZero (h : isZero x = true) : isFinite x = true :=
  (isFinite_iff x).2 ((isZero_iff x).1 h ▸ by decide)

end Kinds

@[simp] theorem isNaN_fneg (x : F64) : isNaN (fneg x) = isNaN x := by simp [isNaN]

@[simp] theorem isInf_fneg (x : F64) : isInf (fneg x) = isInf x := by simp [isInf]

@[simp] theorem isFinite_fneg (x : F64) : isFinite (fneg x) = isFinite x := by simp [isFinite]

@[simp] theorem signedUnits_fneg (x : F64) : signedUnits (fneg x) = -signedUnits x := by
  rw [signedUnits, signedUnits, fsign_fneg, units_eq_magUnits, units_eq_magUnits, fmag_fneg]
  cases fsign x <;> simp

/-! ### Finite operands -/

theorem roundUnits_zero {den : Nat} (hden : 0 < den) : roundUnits 0 den = 0 :=
  roundUnits_exact 0 hden (Nat.zero_le _) (Nat.zero_mul den).symm

theorem roundUnits_lt (num den : Nat) : roundUnits num den < 2 ^ 63 :=
  (roundUnits_le num den).trans_lt (by decide)

/-- A zero sum is rounded as every other one; only its sign is fixed apart (R203). -/
theorem addFinite_eq (a b : F64) :
    addFinite a b = packSign
      (if signedUnits a + signedUnits b = 0 then fsign a && fsign b
        else decide (signedUnits a + signedUnits b < 0))
      (roundUnits (signedUnits a + signedUnits b).natAbs 1) := by
  unfold addFinite
  split_ifs with hzero
  · simp [hzero, roundUnits_zero]
  · simp [hzero]

section Finite

variable {a b : F64} (ha : isFinite a = true) (hb : isFinite b = true)
include ha hb

theorem fadd_of_finite : fadd a b = addFinite a b := by
  simp [fadd, isNaN_of_isFinite, isInf_of_isFinite, ha, hb]

theorem fsub_of_finite : fsub a b = addFinite a (fneg b) :=
  fadd_of_finite ha (by rwa [isFinite_fneg])

theorem fmul_of_finite : fmul a b
    = packSign (fsign a != fsign b) (roundUnits (units a * units b) (2 ^ 1074)) := by
  simp only [fmul, isNaN_of_isFinite, isInf_of_isFinite, ha, hb, Bool.or_self, Bool.false_eq_true,
    if_false]

theorem fdiv_of_finite (hzero : isZero b = false) : fdiv a b
    = packSign (fsign a != fsign b) (roundUnits (units a * 2 ^ 1074) (units b)) := by
  simp only [fdiv, isNaN_of_isFinite, isInf_of_isFinite, ha, hb, hzero, Bool.or_self,
    Bool.false_eq_true, if_false]

end Finite

theorem units_pos {x : F64} (h : isZero x = false) : 0 < units x := by
  rw [units_eq_magUnits]
  exact magUnits_lt_iff.2 (Nat.pos_of_ne_zero (of_decide_eq_false h))

/-- A sum of finite values, and through `fneg` a difference. -/
theorem roundsTo_addFinite (a b : F64) :
    RoundsTo (signedUnits a + signedUnits b).natAbs 1 (fabs (addFinite a b)) ∧
      (signedUnits a + signedUnits b ≠ 0 →
        fsign (addFinite a b) = decide (signedUnits a + signedUnits b < 0)) ∧
      (signedUnits a + signedUnits b = 0 → fsign (addFinite a b) = (fsign a && fsign b)) := by
  refine (roundsTo_of_eq_packSign _ one_pos (addFinite_eq a b)).imp_right fun hsign => ?_
  rw [hsign]
  exact ⟨fun hne => if_neg hne, fun heq => if_pos heq⟩

/-- Settles O55: each operation packs a sign and one `roundUnits` of the exact value. -/
theorem operationsRoundOnce : Obligations.OperationsRoundOnce := by
  unfold Obligations.OperationsRoundOnce
  intro a b ha hb
  refine ⟨?mul, fun hzero => ?div, ?add, ?sub⟩
  case mul => exact roundsTo_of_eq_packSign _ (by positivity) (fmul_of_finite ha hb)
  case div => exact roundsTo_of_eq_packSign _ (units_pos hzero) (fdiv_of_finite ha hb hzero)
  case add =>
    rw [fadd_of_finite ha hb]
    exact roundsTo_addFinite a b
  case sub =>
    have h := roundsTo_addFinite a (fneg b)
    rw [signedUnits_fneg, fsign_fneg, ← sub_eq_add_neg] at h
    rw [fsub_of_finite ha hb]
    exact h

/-! ### NaNs -/

section Nan

variable {a b : F64} (h : isNaN a = true ∨ isNaN b = true)
include h

theorem fadd_of_nan : fadd a b = qnan := by simp [fadd, h]

theorem fsub_of_nan : fsub a b = qnan := by rw [fsub, fadd_of_nan (by rwa [isNaN_fneg])]

theorem fmul_of_nan : fmul a b = qnan := by simp [fmul, h]

theorem fdiv_of_nan : fdiv a b = qnan := by simp [fdiv, h]

end Nan

/-- A result that is canonical when it is a NaN (R204). -/
def CanonicalNaN (r : F64) : Prop := isNaN r = true → r = qnan

theorem canonicalNaN_qnan : CanonicalNaN qnan := fun _ => rfl

theorem canonicalNaN_of_number {r : F64} (h : isNaN r = false) : CanonicalNaN r :=
  fun h' => absurd h' (by simp [h])

theorem canonicalNaN_packSign (s : Bool) {p : Nat} (hp : p ≤ infPattern) :
    CanonicalNaN (packSign s p) := canonicalNaN_of_number (isNaN_packSign s hp)

theorem canonicalNaN_fadd (a b : F64) : CanonicalNaN (fadd a b) := by
  unfold fadd
  split_ifs with hnan hinf hopposite hinf'
  · exact canonicalNaN_qnan
  · exact canonicalNaN_qnan
  · exact canonicalNaN_of_number (isNaN_of_isInf hinf)
  · exact canonicalNaN_of_number (isNaN_of_isInf hinf')
  · rw [addFinite_eq]
    exact canonicalNaN_packSign _ (roundUnits_le _ _)

theorem canonicalNaN_fmul (a b : F64) : CanonicalNaN (fmul a b) := by
  simp only [fmul]
  split_ifs
  · exact canonicalNaN_qnan
  · exact canonicalNaN_qnan
  · exact canonicalNaN_packSign _ le_rfl
  · exact canonicalNaN_packSign _ (roundUnits_le _ _)

theorem canonicalNaN_fdiv (a b : F64) : CanonicalNaN (fdiv a b) := by
  simp only [fdiv]
  split_ifs
  · exact canonicalNaN_qnan
  · exact canonicalNaN_qnan
  · exact canonicalNaN_packSign _ le_rfl
  · exact canonicalNaN_packSign _ (Nat.zero_le _)
  · exact canonicalNaN_qnan
  · exact canonicalNaN_packSign _ le_rfl
  · exact canonicalNaN_packSign _ (roundUnits_le _ _)

theorem canonicalNaN_fsqrt (a : F64) : CanonicalNaN (fsqrt a) := by
  unfold fsqrt
  split_ifs with hnan hzero hneg hinf
  · exact canonicalNaN_qnan
  · exact canonicalNaN_of_number (isNaN_of_isFinite (isFinite_of_isZero hzero))
  · exact canonicalNaN_qnan
  · exact canonicalNaN_of_number (isNaN_of_isInf hinf)
  · exact canonicalNaN_packSign _ (packUnits_le _ _)

/-- Settles O57: every branch of an operation is the canonical NaN or a number, and EXP and LN are
NaN-canonical by what R208 and R209 allow. -/
theorem nansAreCanonical : Obligations.NansAreCanonical := by
  unfold Obligations.NansAreCanonical
  obtain ⟨hexp, hexp'⟩ := cfgExp_allowed.nan
  obtain ⟨hln, hln'⟩ := cfgLn_allowed.nan
  refine ⟨fun a b h => ⟨fadd_of_nan h, fsub_of_nan h, fmul_of_nan h, fdiv_of_nan h⟩,
    fun a b => ⟨canonicalNaN_fadd a b, canonicalNaN_fadd a (fneg b), canonicalNaN_fmul a b,
      canonicalNaN_fdiv a b⟩,
    fun a => ⟨fun h => ⟨by rw [fsqrt, if_pos h], hexp a h, hln a h⟩, canonicalNaN_fsqrt a, hexp' a,
      hln' a⟩, fun a k hk => ⟨?_, ?_⟩, fun a => ⟨getLsbD_fneg a 63, fsign_fabs a⟩⟩
  · rw [getLsbD_fneg, if_neg hk.ne]
  · rw [getLsbD_fabs, decide_eq_true hk, Bool.and_true]

end Sys2Proof.Machine

/-! SUPPORT. Comparisons read off magnitude patterns, the exactness of `dbl`, and the special cases
of the operations (R203, R206 to R209). Proofs of `Obligations.ConversionsAndComparisons` and
`Obligations.SpecialCases`. -/

namespace Sys2Proof.Machine

open Sys2Proof.Claims

/-! ### Conversion -/

/-- `n < 2^53` units of `2^1074` shifted so that the significand has 53 bits. -/
theorem exists_magUnits_eq {n : Nat} (hn : n < 2 ^ 53) :
    ∃ p < infPattern, magUnits p = n * 2 ^ 1074 := by
  rcases Nat.eq_zero_or_pos n with rfl | hpos
  · exact ⟨0, by decide, (Nat.zero_mul _).symm⟩
  have hlog : Nat.log 2 n < 53 := Nat.log_lt_of_lt_pow hpos.ne' hn
  set k := 52 - Nat.log 2 n with hk
  have hlow : 2 ^ 52 ≤ n * 2 ^ k := by
    calc 2 ^ 52 = 2 ^ Nat.log 2 n * 2 ^ k := by rw [← pow_add]; congr 1; omega
      _ ≤ n * 2 ^ k := Nat.mul_le_mul_right _ (Nat.pow_log_le_self 2 hpos.ne')
  have hhigh : n * 2 ^ k < 2 ^ 53 := by
    calc n * 2 ^ k < 2 ^ (Nat.log 2 n + 1) * 2 ^ k :=
          Nat.mul_lt_mul_of_pos_right (Nat.lt_pow_succ_log_self one_lt_two n) (Nat.two_pow_pos k)
      _ = 2 ^ 53 := by rw [← pow_add]; congr 1; omega
  refine ⟨(1074 - k) * 2 ^ 52 + n * 2 ^ k, ?_, ?_⟩
  · have hsh : (1074 - k) * 2 ^ 52 ≤ 1074 * 2 ^ 52 := Nat.mul_le_mul_right _ (Nat.sub_le _ _)
    exact (Nat.add_lt_add_of_le_of_lt hsh hhigh).trans (by decide)
  · rw [magUnits_scaled hhigh.le (.inr hlow), mul_assoc, ← pow_add]
    congr 2
    omega

theorem dbl_eq_packSign {n : Nat} (hn : n < 2 ^ 53) :
    ∃ p < infPattern, dbl n = packSign false p ∧ magUnits p = n * 2 ^ 1074 := by
  obtain ⟨p, hp, hmag⟩ := exists_magUnits_eq hn
  refine ⟨p, hp, ?_, hmag⟩
  rw [dbl, roundUnits_exact _ one_pos hp.le (by rw [hmag, mul_one])]

/-! ### Comparisons -/

theorem fgt_iff (a b : F64) :
    fgt a b = true ↔ isNaN a = false ∧ isNaN b = false ∧ orderKey b < orderKey a := by
  simp [fgt, and_assoc]

theorem feq_iff (a b : F64) :
    feq a b = true ↔ isNaN a = false ∧ isNaN b = false ∧ orderKey a = orderKey b := by
  simp [feq, and_assoc]

/-- The order of the patterns is the order of the values. -/
theorem orderKey_le_iff (a b : F64) : orderKey a ≤ orderKey b ↔ signedUnits a ≤ signedUnits b := by
  have hab := @magUnits_le_iff (fmag a) (fmag b)
  have hba := @magUnits_le_iff (fmag b) (fmag a)
  have ha := @magUnits_le_iff (fmag a) 0
  have hb := @magUnits_le_iff (fmag b) 0
  rw [magUnits_zero] at ha hb
  simp only [orderKey, signedUnits, units_eq_magUnits]
  split_ifs <;> omega

theorem orderKey_lt_iff (a b : F64) : orderKey a < orderKey b ↔ signedUnits a < signedUnits b := by
  rw [← not_le, ← not_le, orderKey_le_iff]

theorem orderKey_eq_iff (a b : F64) : orderKey a = orderKey b ↔ signedUnits a = signedUnits b := by
  rw [le_antisymm_iff, le_antisymm_iff, orderKey_le_iff, orderKey_le_iff]

theorem natAbs_orderKey (a : F64) : (orderKey a).natAbs = fmag a := by
  unfold orderKey
  split_ifs <;> simp

/-- Every number's place in the order lies between those of the infinities. -/
theorem abs_orderKey_le {a : F64} (h : isNaN a = false) :
    -(infPattern : Int) ≤ orderKey a ∧ orderKey a ≤ infPattern := by
  rw [isNaN_eq_false_iff, ← natAbs_orderKey] at h
  omega

theorem infPattern_le_orderKey_iff {a : F64} (h : isNaN a = false) :
    (infPattern : Int) ≤ orderKey a ↔ a = finf := by
  have hle := (isNaN_eq_false_iff a).1 h
  have hpos : 0 < infPattern := by decide
  rw [show finf = packSign false infPattern from rfl, eq_packSign_iff (by decide), orderKey]
  cases fsign a with
  | false => simp only [Bool.false_eq_true, if_false, true_and]; omega
  | true => simp only [if_true, Bool.true_eq_false, false_and, iff_false]; omega

theorem orderKey_le_neg_infPattern_iff {a : F64} (h : isNaN a = false) :
    orderKey a ≤ -(infPattern : Int) ↔ a = fninf := by
  have hle := (isNaN_eq_false_iff a).1 h
  have hpos : 0 < infPattern := by decide
  rw [show fninf = packSign true infPattern from rfl, eq_packSign_iff (by decide), orderKey]
  cases fsign a with
  | false => simp only [Bool.false_eq_true, if_false, false_and, iff_false]; omega
  | true => simp only [if_true, true_and]; omega

/-- Settles O59: `dbl` packs the pattern of its argument, and the order of the patterns is that of
the values. -/
theorem conversionsAndComparisons : Obligations.ConversionsAndComparisons := by
  unfold Obligations.ConversionsAndComparisons
  refine ⟨?zero, fun n hn => ?exact, fun a b h => ?nan, fun a b ha hb => ?finite,
    fun a b ha hb => ?number, fun a ha => ?infinity⟩
  case zero => rw [dbl, Nat.zero_mul, roundUnits_zero one_pos]; rfl
  case exact =>
    obtain ⟨p, hp, hdbl, hmag⟩ := dbl_eq_packSign hn
    have hlt : p < 2 ^ 63 := hp.trans (by decide)
    rw [hdbl, isFinite_iff, fmag_packSign _ _ hlt, signedUnits, fsign_packSign _ _ hlt,
      units_pack hlt, hmag]
    exact ⟨hp, rfl⟩
  case nan => rcases h with h | h <;> simp [fle, fgt, feq, h]
  case finite =>
    rw [fle_iff, fgt_iff, feq_iff, orderKey_le_iff, orderKey_lt_iff, orderKey_eq_iff]
    simp [isNaN_of_isFinite, ha, hb]
  case number =>
    refine ⟨?_, ?_⟩
    · simp [fgt, fle, ha, hb, ← decide_not]
    · simp [feq, fle, ha, hb, le_antisymm_iff]
  case infinity =>
    have hinf : isNaN finf = false ∧ orderKey finf = infPattern := by decide
    have hninf : isNaN fninf = false ∧ orderKey fninf = -(infPattern : Int) := by decide
    obtain ⟨hlow, hhigh⟩ := abs_orderKey_le ha
    simp only [fle_iff, ha, hinf, hninf, true_and]
    exact ⟨hhigh, hlow, infPattern_le_orderKey_iff ha, orderKey_le_neg_infPattern_iff ha⟩

/-! ### Special cases -/

/-- An exact zero sum of operands of opposite signs is `+0` (R203). -/
theorem fadd_eq_fzero {x y : F64} (hx : isFinite x = true) (hy : isFinite y = true)
    (hsum : signedUnits x + signedUnits y = 0) (hs : fsign x ≠ fsign y) : fadd x y = fzero := by
  have hsign : (fsign x && fsign y) = false := by
    rw [Bool.and_eq_false_iff]
    revert hs
    cases fsign x <;> simp
  simp only [fadd_of_finite hx hy, addFinite, hsum, hsign, if_true]
  rfl

/-- Settles O58: the operands' kinds pick the branch of each operation; the properties of EXP and LN
are those of `ExpAllowed` and `LnAllowed`. -/
theorem specialCases : Obligations.SpecialCases := by
  unfold Obligations.SpecialCases
  refine ⟨fun x y hx hx0 hy => ?overZero, fun x y hx hy => ?zeroOverZero,
    fun x y hx hy => ?infinities, fun x y hx hy => ?zeroTimesInf, fun x hx hx0 => ?negativeRoot, by decide,
    fun x y hx hy => ?exactZero, by decide, by decide, fun x y hx hy => ?zeroOperand,
    ⟨cfgExp_allowed.atZero, cfgExp_allowed.atNegInf, cfgExp_allowed.bounded,
      cfgExp_allowed.monotone⟩,
    cfgLn_allowed.atOne, cfgLn_allowed.atInf, cfgLn_allowed.bounded, cfgLn_allowed.monotone⟩
  case overZero =>
    have hy' := isFinite_of_isZero hy
    simp [fdiv, isNaN_of_isFinite, isInf_of_isFinite, hx, hy', hx0, hy]
  case zeroOverZero =>
    have hx' := isFinite_of_isZero hx
    have hy' := isFinite_of_isZero hy
    simp [fdiv, isNaN_of_isFinite, isInf_of_isFinite, hx', hy', hx, hy]
  case infinities =>
    refine ⟨?_, fun hs => ?_, fun hs => ?_⟩
    · simp [fdiv, isNaN_of_isInf, hx, hy]
    · simp [fadd, isNaN_of_isInf, hx, hy, hs]
    · simp [fsub, fadd, isNaN_of_isInf, hx, hy, hs]
  case zeroTimesInf =>
    have hx' := isFinite_of_isZero hx
    simp [fmul, isNaN_of_isFinite, isNaN_of_isInf, hx', hx, hy]
  case negativeRoot => simp [fsqrt, hx, hx0]
  case exactZero =>
    refine ⟨fun hsum hs => ?_, fun heq hs => ?_⟩
    · exact fadd_eq_fzero hx hy hsum hs
    · have hy' : isFinite (fneg y) = true := by rwa [isFinite_fneg]
      exact fadd_eq_fzero hx hy' (by rw [signedUnits_fneg, heq]; omega) (by simp [hs])
  case zeroOperand =>
    have hx' := isFinite_of_isZero hx
    have hunits : units x = 0 := by rw [units_eq_magUnits, (isZero_iff x).1 hx, magUnits_zero]
    refine ⟨?_, fun hy0 => ?_⟩
    · rw [fmul_of_finite hx' hy, hunits, Nat.zero_mul, roundUnits_zero (by positivity)]
    · rw [fdiv_of_finite hx' hy hy0, hunits, Nat.zero_mul, roundUnits_zero (units_pos hy0)]

end Sys2Proof.Machine

/-! SUPPORT. The square root (R201): the bit by bit integer root of the scaled radicand, and rounding
told by mid-points. Proof of `Obligations.SquareRootIsNearest`. -/

namespace Sys2Proof.Machine

open Sys2Proof.Claims

/-! ### The integer root -/

/-- `isqrtFrom` keeps `r² ≤ n < (r + 2^bits)²` while `bits` runs down to 0. -/
theorem isqrtFrom_spec (bits r n : Nat) (hlow : r * r ≤ n)
    (hhigh : n < (r + 2 ^ bits) * (r + 2 ^ bits)) :
    isqrtFrom bits r n * isqrtFrom bits r n ≤ n ∧
      n < (isqrtFrom bits r n + 1) * (isqrtFrom bits r n + 1) := by
  induction bits generalizing r with
  | zero => exact ⟨hlow, hhigh⟩
  | succ bits ih =>
    simp only [isqrtFrom]
    split_ifs with hc
    · refine ih _ hc ?_
      rwa [add_assoc, ← two_mul, ← pow_succ']
    · exact ih _ hlow (not_le.1 hc)

/-! ### Nearest by mid-points -/

/-- Pattern `p` is what the root of `n`, counted in units, rounds to: it lies on `p`'s side of the
mid-point with every other pattern (R201). -/
structure RootAt (n p : Nat) : Prop where
  below : ∀ m < p, (magUnits m + magUnits p) ^ 2 ≤ 4 * n
  above : ∀ m > p, 4 * n ≤ (magUnits p + magUnits m) ^ 2

section RootAt

variable {n sh q : Nat} (hq : 2 ^ 52 ≤ q) (hq' : q < 2 ^ 53)
include hq hq'

theorem midpoint_sq : (magUnits (sh * 2 ^ 52 + q) + magUnits (sh * 2 ^ 52 + (q + 1))) ^ 2
    = (2 * q + 1) * (2 * q + 1) * 4 ^ sh := by
  have hcarry : q + 1 ≤ 2 ^ 53 := hq'
  rw [magUnits_scaled hq'.le (.inr hq), magUnits_scaled hcarry (.inr (by omega)),
    show 4 = 2 * 2 from rfl, mul_pow]
  ring

/-- A root nearer to the significand `q` than to `q + 1`. -/
theorem rootAt_floor (hlow : q * q * 4 ^ sh ≤ n)
    (hmid : 4 * n ≤ (2 * q + 1) * (2 * q + 1) * 4 ^ sh) :
    RootAt n (sh * 2 ^ 52 + q) where
  below m hm := by
    calc (magUnits m + magUnits (sh * 2 ^ 52 + q)) ^ 2
        ≤ (magUnits (sh * 2 ^ 52 + q) + magUnits (sh * 2 ^ 52 + q)) ^ 2 :=
          Nat.pow_le_pow_left (Nat.add_le_add_right (magUnits_le_iff.2 hm.le) _) 2
      _ = 4 * (q * q * 4 ^ sh) := by
          rw [magUnits_scaled hq'.le (.inr hq), show 4 = 2 * 2 from rfl, mul_pow]
          ring
      _ ≤ 4 * n := Nat.mul_le_mul_left 4 hlow
  above m hm := by
    calc 4 * n ≤ (2 * q + 1) * (2 * q + 1) * 4 ^ sh := hmid
      _ = (magUnits (sh * 2 ^ 52 + q) + magUnits (sh * 2 ^ 52 + (q + 1))) ^ 2 :=
          (midpoint_sq hq hq').symm
      _ ≤ (magUnits (sh * 2 ^ 52 + q) + magUnits m) ^ 2 :=
          Nat.pow_le_pow_left (Nat.add_le_add_left (magUnits_le_iff.2 hm) _) 2

/-- A root nearer to the significand `q + 1` than to `q`. -/
theorem rootAt_ceil (hmid : (2 * q + 1) * (2 * q + 1) * 4 ^ sh ≤ 4 * n)
    (hhigh : n ≤ (q + 1) * (q + 1) * 4 ^ sh) : RootAt n (sh * 2 ^ 52 + (q + 1)) where
  below m hm := by
    calc (magUnits m + magUnits (sh * 2 ^ 52 + (q + 1))) ^ 2
        ≤ (magUnits (sh * 2 ^ 52 + q) + magUnits (sh * 2 ^ 52 + (q + 1))) ^ 2 :=
          Nat.pow_le_pow_left (Nat.add_le_add_right (magUnits_le_iff.2 (Nat.le_of_lt_succ hm)) _) 2
      _ = (2 * q + 1) * (2 * q + 1) * 4 ^ sh := midpoint_sq hq hq'
      _ ≤ 4 * n := hmid
  above m hm := by
    have hcarry : q + 1 ≤ 2 ^ 53 := hq'
    calc 4 * n ≤ 4 * ((q + 1) * (q + 1) * 4 ^ sh) := Nat.mul_le_mul_left 4 hhigh
      _ = (magUnits (sh * 2 ^ 52 + (q + 1)) + magUnits (sh * 2 ^ 52 + (q + 1))) ^ 2 := by
          rw [magUnits_scaled hcarry (.inr (by omega)), show 4 = 2 * 2 from rfl, mul_pow]
          ring
      _ ≤ (magUnits (sh * 2 ^ 52 + (q + 1)) + magUnits m) ^ 2 :=
          Nat.pow_le_pow_left (Nat.add_le_add_left (magUnits_le_iff.2 hm.le) _) 2

end RootAt

/-! ### What `sqrtUnits` answers -/

/-- How many pairs of low bits of the radicand `n` the root drops. -/
def rootShift (n : Nat) : Nat := ilog2 n / 2 + 1 - 53

/-- The 53-bit significand of the root of `n`, rounded down. -/
def rootFloor (n : Nat) : Nat := isqrtFrom 53 0 (n / 4 ^ rootShift n)

/-- The pattern that `sqrtUnits` makes for the radicand `n`. -/
def rootPattern (n : Nat) : Nat :=
  rootShift n * 2 ^ 52 +
    if (2 * rootFloor n + 1) * (2 * rootFloor n + 1) * 4 ^ rootShift n < 4 * n then rootFloor n + 1
    else rootFloor n

theorem sqrtUnits_eq (u : Nat) :
    sqrtUnits u = min (rootPattern (u * 2 ^ 1074)) infPattern := rfl

section RootPattern

variable {n : Nat} (hn : 2 ^ 104 ≤ n)
include hn

theorem log_eq_of_radicand : Nat.log 2 n / 2 = rootShift n + 52 := by
  have hlog : 104 ≤ Nat.log 2 n := Nat.le_log_of_pow_le one_lt_two hn
  rw [rootShift, ilog2_eq, Nat.log2_eq_log_two]
  omega

theorem four_pow_le_radicand : 4 ^ (rootShift n + 52) ≤ n := by
  have hlog := log_eq_of_radicand hn
  rw [show 4 = 2 ^ 2 from rfl, ← pow_mul]
  exact (Nat.pow_le_pow_right two_pos (by omega)).trans (Nat.pow_log_le_self 2 (by omega))

theorem radicand_lt_four_pow : n < 4 ^ (rootShift n + 53) := by
  have hlog := log_eq_of_radicand hn
  rw [show 4 = 2 ^ 2 from rfl, ← pow_mul]
  exact (Nat.lt_pow_succ_log_self one_lt_two n).trans_le (Nat.pow_le_pow_right two_pos (by omega))

/-- The significand is the integer root of the radicand without its low bits. -/
theorem rootFloor_spec : rootFloor n * rootFloor n ≤ n / 4 ^ rootShift n ∧
    n / 4 ^ rootShift n < (rootFloor n + 1) * (rootFloor n + 1) := by
  refine isqrtFrom_spec 53 0 _ (Nat.zero_le _) ?_
  rw [Nat.div_lt_iff_lt_mul (by positivity)]
  refine (radicand_lt_four_pow hn).trans_eq ?_
  rw [pow_add, mul_comm]
  rfl

theorem le_rootFloor : 2 ^ 52 ≤ rootFloor n := by
  obtain ⟨-, hhigh⟩ := rootFloor_spec hn
  have hdiv : 2 ^ 52 * 2 ^ 52 ≤ n / 4 ^ rootShift n := by
    rw [Nat.le_div_iff_mul_le (by positivity)]
    refine Eq.trans_le ?_ (four_pow_le_radicand hn)
    rw [pow_add, mul_comm (4 ^ rootShift n)]
    rfl
  exact Nat.le_of_lt_succ (Nat.mul_self_lt_mul_self_iff.1 (hdiv.trans_lt hhigh))

theorem rootFloor_lt : rootFloor n < 2 ^ 53 := by
  obtain ⟨hlow, -⟩ := rootFloor_spec hn
  have hdiv : n / 4 ^ rootShift n < 2 ^ 53 * 2 ^ 53 := by
    rw [Nat.div_lt_iff_lt_mul (by positivity)]
    refine (radicand_lt_four_pow hn).trans_eq ?_
    rw [pow_add, mul_comm]
    rfl
  exact Nat.mul_self_lt_mul_self_iff.1 (hlow.trans_lt hdiv)

theorem rootAt_rootPattern : RootAt n (rootPattern n) := by
  obtain ⟨hlow, hhigh⟩ := rootFloor_spec hn
  rw [Nat.le_div_iff_mul_le (by positivity)] at hlow
  rw [Nat.div_lt_iff_lt_mul (by positivity)] at hhigh
  unfold rootPattern
  split_ifs with hmid
  · exact rootAt_ceil (le_rootFloor hn) (rootFloor_lt hn) hmid.le hhigh.le
  · exact rootAt_floor (le_rootFloor hn) (rootFloor_lt hn) hlow (not_lt.1 hmid)

/-- The root of a finite value is finite: its exponent is about half as large. -/
theorem rootPattern_lt (hfin : n < 2 ^ (2098 + 1074)) : rootPattern n < infPattern := by
  have hne : n ≠ 0 := ((Nat.two_pow_pos _).trans_le hn).ne'
  have hlog : ∀ k, n < 2 ^ k → Nat.log 2 n < k := fun _ => Nat.log_lt_of_lt_pow hne
  have hlog' := hlog _ hfin
  have hshift := log_eq_of_radicand hn
  have hfloor := rootFloor_lt hn
  unfold rootPattern infPattern
  split_ifs <;> omega

end RootPattern

theorem units_lt {x : F64} (h : isFinite x = true) : units x < 2 ^ 2098 := by
  rw [units_eq_magUnits]
  refine (magUnits_lt_iff.2 ((isFinite_iff x).1 h)).trans_eq ?_
  rw [show infPattern = 2046 * 2 ^ 52 + 2 ^ 52 from rfl, magUnits_scaled (by norm_num) (by norm_num),
    ← pow_add]

/-- The root of a positive finite value packs the pattern nearest to it. -/
theorem fsqrt_eq_packSign {a : F64} (ha : isFinite a = true) (hzero : isZero a = false)
    (hs : fsign a = false) :
    ∃ p < infPattern, fsqrt a = packSign false p ∧ RootAt (units a * 2 ^ 1074) p := by
  have hlow : 2 ^ 104 ≤ units a * 2 ^ 1074 := by
    calc 2 ^ 104 ≤ 2 ^ 1074 := pow_le_pow_right₀ one_le_two (by norm_num)
      _ ≤ units a * 2 ^ 1074 := Nat.le_mul_of_pos_left _ (units_pos hzero)
  have hhigh : units a * 2 ^ 1074 < 2 ^ (2098 + 1074) := by
    rw [pow_add]
    exact Nat.mul_lt_mul_of_pos_right (units_lt ha) (by positivity)
  have hlt := rootPattern_lt hlow hhigh
  refine ⟨_, hlt, ?_, rootAt_rootPattern hlow⟩
  simp only [fsqrt, isNaN_of_isFinite, isInf_of_isFinite, ha, hzero, hs, Bool.false_eq_true, if_false]
  rw [sqrtUnits_eq, min_eq_left hlt.le]

/-- Settles O56: the pattern of the root lies on the right side of every mid-point. -/
theorem squareRootIsNearest : Obligations.SquareRootIsNearest := by
  unfold Obligations.SquareRootIsNearest
  intro a ha hzero hs
  obtain ⟨p, hp, hroot, hnear⟩ := fsqrt_eq_packSign ha hzero hs
  have hlt : p < 2 ^ 63 := hp.trans (by decide)
  rw [hroot, isFinite_iff, fmag_packSign _ _ hlt, fsign_packSign _ _ hlt, units_pack hlt]
  refine ⟨hp, rfl, fun z _ => ⟨fun h => ?_, fun h => ?_⟩⟩ <;> rw [units_eq_magUnits] at h ⊢
  · exact hnear.below _ (magUnits_lt_iff.1 h)
  · exact hnear.above _ (magUnits_lt_iff.1 h)

end Sys2Proof.Machine

/-! SUPPORT. The factors of the filter bank (R353, R354): no operation in them meets a NaN, and
rounding does not carry a quotient or a difference across 0 or 1 (R359). Proof of
`Obligations.FactorsLieBetweenZeroAndOne`. -/

namespace Sys2Proof.Machine

open Sys2Proof.Claims

/-! ### Numbers with a clear sign bit -/

/-- A number, finite or infinite, whose sign bit is clear. -/
structure NonNeg (x : F64) : Prop where
  sign : fsign x = false
  mag : fmag x ≤ infPattern

theorem nonNeg_packSign {p : Nat} (hp : p ≤ infPattern) : NonNeg (packSign false p) := by
  have hlt : p < 2 ^ 63 := hp.trans_lt (by decide)
  exact ⟨fsign_packSign _ _ hlt, by rwa [fmag_packSign _ _ hlt]⟩

theorem NonNeg.isNaN {x : F64} (h : NonNeg x) : isNaN x = false := (isNaN_eq_false_iff x).2 h.mag

theorem NonNeg.orderKey {x : F64} (h : NonNeg x) : orderKey x = fmag x := by
  simp [Machine.orderKey, h.sign]

theorem NonNeg.signedUnits {x : F64} (h : NonNeg x) : signedUnits x = units x := by
  simp [Machine.signedUnits, h.sign]

theorem NonNeg.isFinite_of_ne {x : F64} (h : NonNeg x) (hne : x ≠ finf) : isFinite x = true := by
  refine (isFinite_iff x).2 (lt_of_le_of_ne h.mag fun hmag => hne ?_)
  exact (eq_packSign_iff (s := false) (by decide)).2 ⟨h.sign, hmag⟩

theorem NonNeg.fle_iff {x y : F64} (hx : NonNeg x) (hy : NonNeg y) :
    fle x y = true ↔ fmag x ≤ fmag y := by
  simp [Machine.fle_iff, hx.isNaN, hy.isNaN, hx.orderKey, hy.orderKey]

section Operations

variable {x y : F64} (hx : NonNeg x) (hy : NonNeg y)
include hx hy

/-- A product, unless it is one of a zero and an infinity. -/
theorem nonNeg_fmul (h : isInf x = true ∨ isInf y = true → isZero x = false ∧ isZero y = false) :
    NonNeg (fmul x y) := by
  simp only [fmul, hx.isNaN, hy.isNaN, hx.sign, hy.sign, bne_self_eq_false, Bool.or_self,
    Bool.false_eq_true, if_false]
  split_ifs with hinf hzero
  · have := h (by simpa using hinf)
    simp [this] at hzero
  · exact nonNeg_packSign le_rfl
  · exact nonNeg_packSign (roundUnits_le _ _)

/-- A quotient of a finite number, unless it is one of two zeros. -/
theorem nonNeg_fdiv (hfin : isFinite x = true) (hzero : isZero x = false ∨ isZero y = false) :
    NonNeg (fdiv x y) := by
  simp only [fdiv, hx.isNaN, hy.isNaN, isInf_of_isFinite hfin, hx.sign, hy.sign, bne_self_eq_false,
    Bool.or_self, Bool.false_eq_true, if_false]
  split_ifs with hinf hy0 hx0
  · exact nonNeg_packSign (Nat.zero_le _)
  · simp [hx0, hy0] at hzero
  · exact nonNeg_packSign le_rfl
  · exact nonNeg_packSign (roundUnits_le _ _)

end Operations

/-- A square is no product of a zero and an infinity. -/
theorem nonNeg_fmul_self {x : F64} (hx : NonNeg x) : NonNeg (fmul x x) :=
  nonNeg_fmul hx hx fun h => ⟨isZero_of_isInf (or_self_iff.1 h), isZero_of_isInf (or_self_iff.1 h)⟩

theorem positiveFinite_kinds {c : F64} (h : PositiveFinite c) :
    NonNeg c ∧ isFinite c = true ∧ isZero c = false := by
  obtain ⟨hlow, hhigh⟩ := h
  have hmag : fmag c = c.toNat := Nat.mod_eq_of_lt (by omega)
  refine ⟨⟨?_, ?_⟩, ?_, ?_⟩
  · rw [fsign_eq, decide_eq_false_iff_not]
    omega
  · rw [hmag]
    exact hhigh.le
  · rw [isFinite_iff, hmag]
    exact hhigh
  · rw [isZero, hmag, decide_eq_false_iff_not]
    omega

/-! ### Rounding across 1 -/

theorem nonNeg_fone : NonNeg fone := ⟨by decide, by decide⟩

theorem units_fone : units fone = 2 ^ 1074 := by
  rw [units_eq_magUnits, show fmag fone = 1022 * 2 ^ 52 + 2 ^ 52 by decide,
    magUnits_scaled (by norm_num) (by norm_num), ← pow_add]

/-- A number is rounded to itself. -/
theorem NonNeg.roundUnits_units {x : F64} (h : NonNeg x) : roundUnits (units x) 1 = fmag x :=
  roundUnits_exact _ one_pos h.mag (by rw [units_eq_magUnits, mul_one])

/-- A value of at most 1 is rounded to one of at most 1. -/
theorem roundUnits_le_fone {num den : Nat} (hden : 0 < den) (h : num ≤ units fone * den) :
    roundUnits num den ≤ fmag fone := by
  rw [← nonNeg_fone.roundUnits_units]
  exact roundUnits_mono num hden one_pos (by rwa [mul_one])

/-- A number from 0 to 1. -/
def InUnit (r : F64) : Prop := fle fzero r = true ∧ fle r fone = true

theorem inUnit_fone : InUnit fone := ⟨by decide, by decide⟩

theorem inUnit_packSign {p : Nat} (hp : p ≤ fmag fone) : InUnit (packSign false p) := by
  have hnonneg := nonNeg_packSign (hp.trans nonNeg_fone.mag)
  refine ⟨(NonNeg.fle_iff ⟨by decide, by decide⟩ hnonneg).2 ?_, (hnonneg.fle_iff nonNeg_fone).2 ?_⟩
  · rw [show fmag fzero = 0 from rfl]
    exact Nat.zero_le _
  · rwa [fmag_packSign _ _ (hp.trans_lt (by decide))]

/-- A quotient by a larger number. -/
theorem inUnit_fdiv {x y : F64} (hx : NonNeg x) (hfin : isFinite x = true) (hy : NonNeg y)
    (hpos : isZero y = false) (hle : fmag x ≤ fmag y) : InUnit (fdiv x y) := by
  by_cases hinf : y = finf
  · have hyinf : isInf y = true := by rw [hinf]; decide
    have hquot : fdiv x y = packSign false 0 := by
      simp [fdiv, isNaN_of_isFinite, isInf_of_isFinite, hfin, hx.sign, hy.sign, hy.isNaN, hyinf]
    rw [hquot]
    exact inUnit_packSign (Nat.zero_le _)
  · rw [fdiv_of_finite hfin (hy.isFinite_of_ne hinf) hpos, hx.sign, hy.sign]
    refine inUnit_packSign (roundUnits_le_fone (units_pos hpos) ?_)
    rw [units_fone, mul_comm]
    exact Nat.mul_le_mul_left _ (magUnits_le_iff.2 hle)

/-- One minus a number from 0 to 1: the exact difference is from 0 to 1 too. -/
theorem inUnit_fsub_fone {g : F64} (hg : InUnit g) : InUnit (fsub fone g) := by
  obtain ⟨hlow, hhigh⟩ := hg
  obtain ⟨-, -, hlow⟩ := (fle_iff _ _).1 hlow
  obtain ⟨-, -, hhigh⟩ := (fle_iff _ _).1 hhigh
  have hfin : isFinite g = true := by
    have hbounds : orderKey fzero = 0 ∧ orderKey fone < infPattern := by decide
    rw [isFinite_iff, ← natAbs_orderKey]
    omega
  rw [orderKey_le_iff] at hlow hhigh
  rw [nonNeg_fone.signedUnits] at hhigh
  rw [show signedUnits fzero = 0 from rfl] at hlow
  have hsign : (if signedUnits fone + signedUnits (fneg g) = 0 then fsign fone && fsign (fneg g)
      else decide (signedUnits fone + signedUnits (fneg g) < 0)) = false := by
    rw [nonNeg_fone.signedUnits, signedUnits_fneg, nonNeg_fone.sign, Bool.false_and]
    split_ifs
    · rfl
    · exact decide_eq_false (by omega)
  rw [fsub_of_finite (by decide) hfin, addFinite_eq, hsign, nonNeg_fone.signedUnits, signedUnits_fneg]
  exact inUnit_packSign (roundUnits_le_fone one_pos (by omega))

/-- A sum of finite numbers, not both zero. -/
theorem fadd_of_nonNeg {x y : F64} (hx : NonNeg x) (hy : NonNeg y) (hx' : isFinite x = true)
    (hy' : isFinite y = true) (hpos : isZero x = false) :
    fadd x y = packSign false (roundUnits (units x + units y) 1) := by
  have hunits := units_pos hpos
  rw [fadd_of_finite hx' hy', addFinite_eq, hx.signedUnits, hy.signedUnits, if_neg (by omega),
    decide_eq_false (by omega), ← Int.natCast_add, Int.natAbs_natCast]

/-- One plus a number is at least 1 and at least the number. -/
theorem fadd_fone_spec {r : F64} (hr : NonNeg r) :
    NonNeg (fadd fone r) ∧ fmag fone ≤ fmag (fadd fone r) ∧ fmag r ≤ fmag (fadd fone r) := by
  by_cases hinf : r = finf
  · subst hinf
    exact ⟨⟨by decide, by decide⟩, by decide, by decide⟩
  · have hmono : ∀ x : F64, NonNeg x → units x ≤ units fone + units r →
        fmag x ≤ roundUnits (units fone + units r) 1 := fun x hx hle =>
      hx.roundUnits_units ▸ roundUnits_mono _ one_pos one_pos (Nat.mul_le_mul_right 1 hle)
    rw [fadd_of_nonNeg nonNeg_fone hr (by decide) (hr.isFinite_of_ne hinf) (by decide),
      fmag_packSign _ _ (roundUnits_lt _ _)]
    exact ⟨nonNeg_packSign (roundUnits_le _ _), hmono fone nonNeg_fone (Nat.le_add_right _ _),
      hmono r hr (Nat.le_add_left _ _)⟩

/-- The argument of EXP (R353). -/
theorem fle_fneg_fzero {q : F64} (hq : NonNeg q) : fle (fneg q) fzero = true := by
  have hzero : isNaN fzero = false ∧ orderKey fzero = 0 := by decide
  rw [fle_iff, isNaN_fneg, hzero.1, hzero.2]
  refine ⟨hq.isNaN, rfl, ?_⟩
  simp [orderKey, hq.sign]

/-! ### The factors -/

section Factors

variable {c : F64} (hc : PositiveFinite c) {d2 : Nat} (hd : d2 ≤ 131072)

include hd in
theorem dbl_kinds :
    NonNeg (dbl d2) ∧ isFinite (dbl d2) = true ∧ (isZero (dbl d2) = true ↔ d2 = 0) := by
  obtain ⟨p, hp, hdbl, hmag⟩ := dbl_eq_packSign (show d2 < 2 ^ 53 by omega)
  have hmag_p : fmag (dbl d2) = p := by rw [hdbl, fmag_packSign _ _ (hp.trans (by decide))]
  refine ⟨hdbl ▸ nonNeg_packSign hp.le, (isFinite_iff _).2 (by rwa [hmag_p]), ?_⟩
  rw [isZero_iff, hmag_p, ← magUnits_inj, hmag, magUnits_zero, Nat.mul_eq_zero]
  exact or_iff_left (by positivity)

include hd in
/-- The distance is finite: the root of an exactly converted sum of squares (R350). -/
theorem centerDist_kinds : NonNeg (centerDist d2) ∧ isFinite (centerDist d2) = true := by
  obtain ⟨hnonneg, hfin, -⟩ := dbl_kinds hd
  unfold centerDist
  cases hzero : isZero (dbl d2) with
  | true =>
    have hroot : fsqrt (dbl d2) = dbl d2 := by simp [fsqrt, hnonneg.isNaN, hzero]
    rw [hroot]
    exact ⟨hnonneg, hfin⟩
  | false =>
    obtain ⟨p, hp, hroot, -⟩ := fsqrt_eq_packSign hfin hzero hnonneg.sign
    rw [hroot, isFinite_iff, fmag_packSign _ _ (hp.trans (by decide))]
    exact ⟨nonNeg_packSign hp.le, hp⟩

include hc hd

/-- The exponent is no NaN, though the cutoff's square may underflow or overflow (R353). -/
theorem nonNeg_gaussianQ : NonNeg (gaussianQ c d2) := by
  obtain ⟨hcut, -, -⟩ := positiveFinite_kinds hc
  obtain ⟨hnonneg, hfin, hzero⟩ := dbl_kinds hd
  have htwo : NonNeg ftwo ∧ isInf ftwo = false ∧ isZero ftwo = false :=
    ⟨⟨by decide, by decide⟩, by decide, by decide⟩
  have hden : NonNeg (fmul ftwo (fmul c c)) := by
    refine nonNeg_fmul htwo.1 (nonNeg_fmul_self hcut) fun hinf => ⟨htwo.2.2, isZero_of_isInf ?_⟩
    simpa [htwo.2.1] using hinf
  unfold gaussianQ
  split_ifs with hd0
  · exact ⟨by decide, by decide⟩
  · exact nonNeg_fdiv hnonneg hden hfin (.inl (Bool.eq_false_iff.2 (mt hzero.1 hd0)))

theorem nonNeg_fourthPower : NonNeg (fourthPower c d2) := by
  obtain ⟨hnonneg, hfin, hzero⟩ := positiveFinite_kinds hc
  obtain ⟨hdist, hdist'⟩ := centerDist_kinds hd
  unfold fourthPower
  exact nonNeg_fmul_self (nonNeg_fmul_self (nonNeg_fdiv hdist hnonneg hdist' (.inr hzero)))

theorem inUnit_gaussianFactor (hp : Bool) : InUnit (gaussianFactor cfgExp hp c d2) := by
  have hexp : InUnit (cfgExp (fneg (gaussianQ c d2))) :=
    cfgExp_allowed.bounded _ (fle_fneg_fzero (nonNeg_gaussianQ hc hd))
  simp only [gaussianFactor]
  split_ifs
  · exact inUnit_fsub_fone hexp
  · exact hexp

theorem inUnit_butterworthFactor (hp : Bool) : InUnit (butterworthFactor hp c d2) := by
  have hr := nonNeg_fourthPower hc hd
  obtain ⟨hden, hone, hle⟩ := fadd_fone_spec hr
  have hpos : isZero (fadd fone (fourthPower c d2)) = false :=
    decide_eq_false ((show 0 < fmag fone by decide).trans_le hone).ne'
  simp only [butterworthFactor]
  split_ifs with hpass hinf
  · exact inUnit_fone
  · exact inUnit_fdiv hr (hr.isFinite_of_ne hinf) hden hpos hle
  · exact inUnit_fdiv nonNeg_fone (by decide) hden hpos hone

end Factors

/-- Settles O53: the Gaussian factor is EXP on `x ≤ 0`, or 1 less that; the Butterworth factors are
quotients by the larger number. -/
theorem factorsLieBetweenZeroAndOne : Obligations.FactorsLieBetweenZeroAndOne := by
  unfold Obligations.FactorsLieBetweenZeroAndOne
  intro hp c d2 hc hd
  obtain ⟨hg0, hg1⟩ := inUnit_gaussianFactor hc hd hp
  obtain ⟨hb0, hb1⟩ := inUnit_butterworthFactor hc hd hp
  exact ⟨hg0, hg1, hb0, hb1⟩

end Sys2Proof.Machine

/-! SUPPORT. The radix-2 butterfly on the C registers (R240, R241). Proof of
`Obligations.ButterflyCommands`. -/

namespace Sys2Proof.Machine

/-- A command accepted after a butterfly leaves the difference in `C[b]`, the sum in a `C[a]` other
than `C[b]`, and changes nothing else of the state; every read is of the old state. -/
theorem butterfly_command {i : Instr} {a b : BitVec 3} {w : Cplx} {s : State}
    (h : exec i s = .next (accept i (butterfly a b w s))) :
    ∃ t, exec i s = .next t ∧
      getC t b = csub (getC s a) (cmul w (getC s b)) ∧
      (a ≠ b → getC t a = cadd (getC s a) (cmul w (getC s b))) ∧
      (∀ e, e ≠ a → e ≠ b → getC t e = getC s e) ∧
      t = { s with creg := t.creg, pending := some i } := by
  have hget (e : BitVec 3) : getC (accept i (butterfly a b w s)) e
      = if e = b then csub (getC s a) (cmul w (getC s b))
        else if e = a then cadd (getC s a) (cmul w (getC s b)) else getC s e := by
    rw [getC_accept, butterfly, getC_setC, getC_setC]
  refine ⟨_, h, ?difference, fun hab => ?sum, fun e ha hb => ?others, rfl⟩
  case difference => rw [hget, if_pos rfl]
  case sum => rw [hget, if_neg hab, if_pos rfl]
  case others => rw [hget, if_neg hb, if_neg ha]

/-- Settles O30: both commands are a butterfly, with a ROM entry or an old C register as twiddle. -/
theorem butterflyCommands : Obligations.ButterflyCommands := by
  unfold Obligations.ButterflyCommands
  exact ⟨fun _ _ _ _ => butterfly_command rfl, fun _ _ _ _ => butterfly_command rfl⟩

end Sys2Proof.Machine

/-! SUPPORT. Commands that store complex elements (R50): what the stored elements hold, and the
frame; and the row transforms among them (R255 to R258). Proofs of
`Obligations.RowTransformCommands` and `Obligations.AllRowsTransformCommands`. -/

namespace Sys2Proof.Machine

open Sys2Proof.Claims

/-- A stored element holds its value, bit for bit. -/
theorem holdsZ_of_storeZ {z : BitVec 1} {val : Nat → Nat → Cplx} {cs : List (Nat × Nat)}
    {s t : State} (ht : t.mem = (storeZ z val cs s).mem) (hcs : ∀ c ∈ cs, c.2 < 512)
    {c : Nat × Nat} (hc : c ∈ cs) : HoldsZ t z c.1 c.2 (val c.1 c.2) := fun k hk => by
  rw [ht, memFind_storeZ z val cs s c.1 c.2 k hcs hc hk, List.getElem?_eq_getElem]

/-- A command accepted after a read of the banks and a store of complex elements: the elements hold
their values, and only the stored bytes change. -/
theorem storeZ_command {i : Instr} {z : BitVec 1} {val : Nat → Nat → Cplx}
    {cs : List (Nat × Nat)} {s : State} {stored : Nat → Prop}
    (h : exec i s = .next (accept i (endReading (storeZ z val cs s))))
    (hcs : ∀ c ∈ cs, c.2 < 512) (hstored : ∀ c ∈ cs, ∀ x, ByteOfZ z c.1 c.2 x → stored x) :
    ∃ t, exec i s = .next t ∧ (∀ c ∈ cs, HoldsZ t z c.1 c.2 (val c.1 c.2)) ∧
      OnlyStores i s t stored := by
  refine ⟨_, h, fun c hc => holdsZ_of_storeZ rfl hcs hc, fun x hx => ?_, rfl⟩
  refine memFind_storeZ_of_outside z val cs s x fun c hc => ?_
  by_contra hin
  exact hx (hstored c hc x ⟨by omega, by omega⟩)

/-- A command accepted after a read of the banks and a store of a matrix as the N x N region. -/
theorem storeRegion_command {i : Instr} {z : BitVec 1} {m : List (List Cplx)} {s : State}
    (hN : s.log2n.toNat ≤ 9)
    (h : exec i s = .next (accept i (endReading (storeRegion z m s)))) :
    ∃ t, exec i s = .next t ∧
      (∀ u v, u < activeN s → v < activeN s → HoldsZ t z u v (entry m u v)) ∧
      OnlyStores i s t (RegionZ s z) := by
  obtain ⟨t, hexec, hholds, hframe⟩ := storeZ_command (stored := RegionZ s z) h
    (fun c hc => (coords_lt s hN hc).2.2.2)
    fun c hc x hx => ⟨c.1, c.2, (coords_lt s hN hc).1, (coords_lt s hN hc).2.1, hx⟩
  exact ⟨t, hexec, fun u v hu hv => hholds (u, v) ((mem_coords _ _ _).2 ⟨hu, hv⟩), hframe⟩

/-! ### Row transforms -/

theorem activeLevel_eq_zero_iff (s : State) : activeLevel s = 0 ↔ activeN s = 1 := by
  simp [activeLevel, activeN]

/-- A command whose effect `u` is skipped at N = 1: `Q` is what it does otherwise (R255, R257). -/
theorem skips_at_one {i : Instr} {s u : State} {Q : Prop}
    (h : exec i s = .next (accept i (if activeN s = 1 then s else u)))
    (hQ : exec i s = .next (accept i u) → Q) :
    (1 < activeN s → Q) ∧ (activeN s = 1 → exec i s = .next { s with pending := some i }) := by
  refine ⟨fun h1 => hQ ?_, fun h1 => ?_⟩
  · rwa [if_neg h1.ne'] at h
  · rwa [if_pos h1] at h

/-- A command accepted after one row is replaced by its transform. -/
theorem transformRow_command {i : Instr} {f : List Cplx → List Cplx} {z : BitVec 1} {row : Nat}
    {s : State} (hN : s.log2n.toNat ≤ 9)
    (h : exec i s = .next (accept i (transformRow f z row s))) :
    ∃ t, exec i s = .next t ∧
      (∀ j, j < activeN s → HoldsZ t z row j ((f (getRow s z row)).getD j czero)) ∧
      OnlyStores i s t (fun x => ∃ j, j < activeN s ∧ ByteOfZ z row j x) := by
  have hcs : ∀ c, c ∈ (List.range (activeN s)).map (fun j => (row, j)) ↔
      c.1 = row ∧ c.2 < activeN s := by
    rintro ⟨u, v⟩
    simp [and_comm, eq_comm]
  have hle := activeN_le s hN
  obtain ⟨t, hexec, hholds, hframe⟩ := storeZ_command
    (stored := fun x => ∃ j, j < activeN s ∧ ByteOfZ z row j x) h
    (fun c hc => ((hcs c).1 hc).2.trans_le hle)
    fun c hc x hx => ⟨c.2, ((hcs c).1 hc).2, ((hcs c).1 hc).1 ▸ hx⟩
  exact ⟨t, hexec, fun j hj => hholds (row, j) ((hcs _).2 ⟨rfl, hj⟩), hframe⟩

/-- A command accepted after every row of the region is replaced by its transform. -/
theorem transformRows_command {i : Instr} {f : List Cplx → List Cplx} {z : BitVec 1} {s : State}
    (hN : s.log2n.toNat ≤ 9) (h : exec i s = .next (accept i (transformRows f z s))) :
    ∃ t, exec i s = .next t ∧
      (∀ u v, u < activeN s → v < activeN s →
        HoldsZ t z u v ((f (getRow s z u)).getD v czero)) ∧
      OnlyStores i s t (RegionZ s z) := by
  obtain ⟨t, hexec, hholds, hframe⟩ := storeRegion_command hN h
  refine ⟨t, hexec, fun u v hu hv => ?_, hframe⟩
  have hentry : entry ((getRegion s z).map f) u v = (f (getRow s z u)).getD v czero := by
    rw [entry_map f _ v (by rwa [getRegion_length])]
    simp [getRegion, hu]
  rw [← hentry]
  exact hholds u v hu hv

section RowCommands

variable {s : State} (hN : s.log2n.toNat ≤ 9) (zd : BitVec 1)
include hN

theorem exec_fftrows :
    exec (.fftrows zd) s = .next (accept (.fftrows zd)
      (if activeN s = 1 then s else transformRows (fft1d (activeLevel s)) zd s)) := by
  simp only [exec, execFftrows, checkN_of_legal _ _ hN, submit_none, activeLevel_eq_zero_iff]

theorem exec_ifftrows :
    exec (.ifftrows zd) s
      = .next (accept (.ifftrows zd) (transformRows (ifft1d (activeLevel s)) zd s)) := by
  simp only [exec, execIfftrows, checkN_of_legal _ _ hN, submit_none]

variable {row : BitVec 9} (hrow : row.toNat < activeN s)
include hrow

theorem exec_fftrow :
    exec (.fftrow zd row) s = .next (accept (.fftrow zd row)
      (if activeN s = 1 then s else transformRow (fft1d (activeLevel s)) zd row.toNat s)) := by
  simp only [exec, execFftrow, checkN_of_legal _ _ hN, checkIndex, hrow, decide_true, if_true,
    submit_none, activeLevel_eq_zero_iff]

theorem exec_ifftrow :
    exec (.ifftrow zd row) s = .next (accept (.ifftrow zd row)
      (transformRow (ifft1d (activeLevel s)) zd row.toNat s)) := by
  simp only [exec, execIfftrow, checkN_of_legal _ _ hN, checkIndex, hrow, decide_true, if_true,
    submit_none]

end RowCommands

/-- Settles O33: one row is replaced, but by FFTROW at N = 1. -/
theorem rowTransformCommands : Obligations.RowTransformCommands := by
  unfold Obligations.RowTransformCommands
  intro zd row s hN hrow
  obtain ⟨htransform, hsingle⟩ :=
    skips_at_one (exec_fftrow hN zd hrow) (transformRow_command hN)
  exact ⟨htransform, hsingle, transformRow_command hN (exec_ifftrow hN zd hrow)⟩

/-- Settles O34: every row of the region is replaced, but by FFTROWS at N = 1. -/
theorem allRowsTransformCommands : Obligations.AllRowsTransformCommands := by
  unfold Obligations.AllRowsTransformCommands
  intro zd s hN
  obtain ⟨htransform, hsingle⟩ := skips_at_one (exec_fftrows hN zd) (transformRows_command hN)
  exact ⟨htransform, hsingle, transformRows_command hN (exec_ifftrows hN zd)⟩

end Sys2Proof.Machine

/-! SUPPORT. Operations with `+0` and 1, exact sums of small natural numbers, and the transforms of
one element and of equal elements (R203, R207, R211, R250, R251). Proofs of
`Obligations.TransformBaseCase` and `Obligations.UniformGridSpectrum`. -/

namespace Sys2Proof.Machine

open Sys2Proof.Claims

/-! ### One as an operand -/

theorem fsign_fone : fsign fone = false := rfl

theorem isFinite_fone : isFinite fone = true := by decide

theorem isFinite_or_isInf {x : F64} (h : isNaN x = false) : isFinite x = true ∨ isInf x = true := by
  rw [isFinite_iff, isInf_iff]
  exact ((isNaN_eq_false_iff x).1 h).lt_or_eq

theorem packSign_of_isInf {x : F64} (h : isInf x = true) : packSign (fsign x) infPattern = x := by
  rw [← (isInf_iff x).1 h, packSign_fmag]

/-- A finite value scaled up and down again by the same factor. -/
theorem roundUnits_scaled {x : F64} (hx : isFinite x = true) {den : Nat} (hden : 0 < den) :
    roundUnits (units x * den) den = fmag x :=
  roundUnits_exact _ hden ((isFinite_iff x).1 hx).le rfl

theorem fmul_fone {x : F64} (h : isNaN x = false) : fmul fone x = x := by
  rcases isFinite_or_isInf h with hx | hx
  · rw [fmul_of_finite isFinite_fone hx, units_fone, mul_comm, roundUnits_scaled hx (by positivity),
      fsign_fone, Bool.false_bne, packSign_fmag]
  · have hzero : isZero fone = false ∧ isNaN fone = false := by decide
    simp [fmul, h, hx, hzero, isZero_of_isInf hx, fsign_fone, packSign_of_isInf hx]

theorem fdiv_fone {x : F64} (h : isNaN x = false) : fdiv x fone = x := by
  rcases isFinite_or_isInf h with hx | hx
  · rw [fdiv_of_finite hx isFinite_fone (by decide), units_fone,
      roundUnits_scaled hx (by positivity), fsign_fone, Bool.bne_false, packSign_fmag]
  · have hone : isInf fone = false ∧ isNaN fone = false := by decide
    simp [fdiv, h, hx, hone, fsign_fone, packSign_of_isInf hx]

/-! ### Zeros as operands -/

@[simp] theorem isZero_fneg (x : F64) : isZero (fneg x) = isZero x := by simp [isZero]

theorem units_of_isZero {x : F64} (h : isZero x = true) : units x = 0 := by
  rw [units_eq_magUnits, (isZero_iff x).1 h, magUnits_zero]

theorem signedUnits_of_isZero {x : F64} (h : isZero x = true) : signedUnits x = 0 := by
  simp [signedUnits, units_of_isZero h]

theorem isZero_packSign_zero (neg : Bool) : isZero (packSign neg 0) = true :=
  (isZero_iff _).2 (fmag_packSign neg 0 (by decide))

theorem isZero_fzero : isZero fzero = true := by decide

/-- A zero of either sign added to a number with a clear sign bit, `+0` among them (R203). -/
theorem NonNeg.fadd_isZero {x z : F64} (hx : NonNeg x) (hfin : isFinite x = true)
    (hz : isZero z = true) : fadd x z = x := by
  have hsign : ¬(units x : Int) < 0 := by omega
  rw [fadd_of_finite hfin (isFinite_of_isZero hz), addFinite_eq, signedUnits_of_isZero hz,
    hx.signedUnits, hx.sign, add_zero, Int.natAbs_natCast, hx.roundUnits_units,
    decide_eq_false hsign, Bool.false_and, ite_self, ← hx.sign, packSign_fmag]

theorem NonNeg.fsub_isZero {x z : F64} (hx : NonNeg x) (hfin : isFinite x = true)
    (hz : isZero z = true) : fsub x z = x :=
  hx.fadd_isZero hfin (by rwa [isZero_fneg])

theorem isZero_fadd {x y : F64} (hx : isZero x = true) (hy : isZero y = true) :
    isZero (fadd x y) = true := by
  rw [fadd_of_finite (isFinite_of_isZero hx) (isFinite_of_isZero hy), addFinite,
    signedUnits_of_isZero hx, signedUnits_of_isZero hy, if_pos (add_zero 0)]
  exact isZero_packSign_zero _

theorem isZero_fsub {x y : F64} (hx : isZero x = true) (hy : isZero y = true) :
    isZero (fsub x y) = true :=
  isZero_fadd hx (by rwa [isZero_fneg])

/-- A product of finite values with a zero among them. -/
theorem isZero_fmul {x y : F64} (hx : isFinite x = true) (hy : isFinite y = true)
    (h : isZero x = true ∨ isZero y = true) : isZero (fmul x y) = true := by
  have hprod : units x * units y = 0 :=
    Nat.mul_eq_zero.2 (h.imp units_of_isZero units_of_isZero)
  rw [fmul_of_finite hx hy, hprod, roundUnits_zero (by positivity)]
  exact isZero_packSign_zero _

theorem nonNeg_fzero : NonNeg fzero := ⟨by decide, by decide⟩

theorem fsub_self {x : F64} (hx : isFinite x = true) : fsub x x = fzero :=
  fadd_eq_fzero hx (by rwa [isFinite_fneg]) (by rw [signedUnits_fneg, add_neg_cancel]) (by simp)

/-! ### Small natural numbers as real halves -/

theorem dbl_spec {n : Nat} (hn : n < 2 ^ 53) :
    NonNeg (dbl n) ∧ isFinite (dbl n) = true ∧ units (dbl n) = n * 2 ^ 1074 := by
  obtain ⟨p, hp, hdbl, hmag⟩ := dbl_eq_packSign hn
  have hlt : p < 2 ^ 63 := hp.trans (by decide)
  rw [hdbl, isFinite_iff, fmag_packSign _ _ hlt, units_pack hlt]
  exact ⟨nonNeg_packSign hp.le, hp, hmag⟩

theorem dbl_zero : dbl 0 = fzero := by
  rw [dbl, Nat.zero_mul, roundUnits_zero one_pos]
  rfl

/-- The sum of two exactly converted numbers is the conversion of their sum. -/
theorem fadd_dbl {m n : Nat} (hm : m < 2 ^ 53) (hn : n < 2 ^ 53) :
    fadd (dbl m) (dbl n) = dbl (m + n) := by
  obtain ⟨hm0, hmfin, hmu⟩ := dbl_spec hm
  obtain ⟨hn0, hnfin, hnu⟩ := dbl_spec hn
  have hsum : signedUnits (dbl m) + signedUnits (dbl n) = ((m + n) * 2 ^ 1074 : Nat) := by
    rw [hm0.signedUnits, hn0.signedUnits, hmu, hnu, add_mul, Nat.cast_add]
  rw [fadd_of_finite hmfin hnfin, addFinite_eq, hsum, hm0.sign, Int.natAbs_natCast,
    decide_eq_false (Int.natCast_nonneg _).not_gt, Bool.false_and, ite_self, dbl]

/-- The complex value of a natural number. -/
def natCplx (n : Nat) : Cplx := ⟨dbl n, fzero⟩

theorem natCplx_zero : natCplx 0 = czero := by rw [natCplx, dbl_zero, czero]

theorem liftSample_eq (b : Byte) : liftSample b = natCplx b.toNat := rfl

section NatCplx

variable {n : Nat} (hn : n < 2 ^ 53)
include hn

theorem cadd_natCplx_self : cadd (natCplx n) (natCplx n) = natCplx (2 * n) := by
  simp only [cadd, natCplx]
  rw [fadd_dbl hn hn, nonNeg_fzero.fadd_isZero (by decide) isZero_fzero, two_mul]

theorem csub_natCplx_self : csub (natCplx n) (natCplx n) = czero := by
  obtain ⟨-, hfin, -⟩ := dbl_spec hn
  simp only [csub, natCplx]
  rw [fsub_self hfin, fsub_self (by decide), czero]

/-- The twiddle 1 keeps a natural number, its imaginary half `+0` included. -/
theorem cmul_tw_zero_natCplx : cmul (tw 0) (natCplx n) = natCplx n := by
  obtain ⟨hnonneg, hfin, -⟩ := dbl_spec hn
  have hzero : isFinite fzero = true := by decide
  have hre : fsub (fmul fone (dbl n)) (fmul fzero fzero) = dbl n := by
    rw [fmul_fone hnonneg.isNaN]
    exact hnonneg.fsub_isZero hfin (isZero_fmul hzero hzero (.inl isZero_fzero))
  have him : fadd (fmul fone fzero) (fmul fzero (dbl n)) = fzero := by
    rw [fmul_fone (by decide)]
    exact nonNeg_fzero.fadd_isZero hzero (isZero_fmul hzero hfin (.inl isZero_fzero))
  rw [show tw 0 = ⟨fone, fzero⟩ by decide]
  simp only [cmul, natCplx, hre, him]

end NatCplx

/-! ### Zero elements under a twiddle -/

/-- The ROM holds finite values, and what is past its end is the default. -/
theorem isFinite_tw (k : Nat) : isFinite (tw k).re = true ∧ isFinite (tw k).im = true := by
  rcases Nat.lt_or_ge k 256 with hk | hk
  · exact ⟨(isNearest_tw_re hk).1, (isNearest_tw_im hk).1⟩
  · have hlen : romEntries.length = 256 := by decide +kernel
    rw [tw, List.getD_eq_default _ _ (by omega)]
    exact ⟨by decide, by decide⟩

/-- Both halves are zeros, of either sign. -/
def IsZeroCplx (c : Cplx) : Prop := isZero c.re = true ∧ isZero c.im = true

/-- A twiddled zero is a zero, though a half may be `-0` (R203, R211). -/
theorem isZeroCplx_cmul_tw (k : Nat) : IsZeroCplx (cmul (tw k) czero) := by
  obtain ⟨hre, him⟩ := isFinite_tw k
  have hprod {x : F64} (hx : isFinite x = true) : isZero (fmul x fzero) = true :=
    isZero_fmul hx (by decide) (.inr isZero_fzero)
  exact ⟨isZero_fsub (hprod hre) (hprod him), isZero_fadd (hprod hre) (hprod him)⟩

section ZeroCplx

variable {t : Cplx} (ht : IsZeroCplx t)
include ht

theorem cadd_czero : cadd czero t = czero := by
  obtain ⟨hre, him⟩ := ht
  simp only [cadd, czero]
  rw [nonNeg_fzero.fadd_isZero (by decide) hre, nonNeg_fzero.fadd_isZero (by decide) him]

theorem csub_czero : csub czero t = czero := by
  obtain ⟨hre, him⟩ := ht
  simp only [csub, czero]
  rw [nonNeg_fzero.fsub_isZero (by decide) hre, nonNeg_fzero.fsub_isZero (by decide) him]

end ZeroCplx

/-! ### One element, and equal elements -/

theorem cconj_cconj (x : Cplx) : cconj (cconj x) = x := by
  simp only [cconj, fneg, BitVec.xor_assoc, BitVec.xor_self, BitVec.xor_zero]

/-- Division by 1 changes a NaN alone, to the canonical one (R204). -/
theorem fdiv_dbl_one (x : F64) : fdiv x (dbl 1) = if isNaN x then qnan else x := by
  rw [show dbl 1 = fone by decide +kernel]
  cases h : isNaN x with
  | true => exact fdiv_of_nan (.inl h)
  | false => exact fdiv_fone h

/-- Settles O43: the conjugations cancel, and each half is divided by 1. -/
theorem transformBaseCase : Obligations.TransformBaseCase := by
  unfold Obligations.TransformBaseCase
  intro x
  have hifft : ifft1d 0 [x] = [divn (cconj (cconj x)) 1] := rfl
  refine ⟨rfl, ?_⟩
  rw [hifft, cconj_cconj, divn, fdiv_dbl_one, fdiv_dbl_one]

theorem evens_replicate {α : Type} (n : Nat) (x : α) :
    evens (List.replicate (2 * n) x) = List.replicate n x := by
  refine List.ext_getElem? fun k => ?_
  simp [evens_getElem?, List.getElem?_replicate]

theorem odds_replicate {α : Type} (n : Nat) (x : α) :
    odds (List.replicate (2 * n) x) = List.replicate n x := by
  refine List.ext_getElem? fun k => ?_
  rw [odds_getElem?, List.getElem?_replicate, List.getElem?_replicate]
  exact if_congr (by omega) rfl rfl

/-- The transform of equal natural numbers is their sum, and `(+0, +0)` from the second output on:
the two half-size transforms are the same, and the twiddle of their only nonzero output is 1. -/
theorem fft1d_replicate_natCplx {l n k : Nat} (hn : n * 2 ^ l < 2 ^ 53) (hk : k < 2 ^ l) :
    (fft1d l (List.replicate (2 ^ l) (natCplx n))).getD k czero
      = natCplx (if k = 0 then n * 2 ^ l else 0) := by
  induction l generalizing k with
  | zero =>
    obtain rfl : k = 0 := by omega
    simp [fft1d]
  | succ l ih =>
    have hsum : n * 2 ^ (l + 1) = 2 * (n * 2 ^ l) := by ring
    have hhalf : n * 2 ^ l < 2 ^ 53 := by omega
    have hlen := fft1d_length l (List.replicate (2 ^ l) (natCplx n)) List.length_replicate
    have ih {j : Nat} (hj : j < 2 ^ l) := ih hhalf hj
    rw [fft1d, pow_succ', evens_replicate, odds_replicate, ← pow_succ', hsum]
    generalize fft1d l (List.replicate (2 ^ l) (natCplx n)) = e at ih hlen
    rcases Nat.lt_or_ge k (2 ^ l) with hlow | hhigh
    · rw [combine_getD_low hlen hlen hlow, ih hlow]
      rcases Nat.eq_zero_or_pos k with rfl | hpos
      · rw [if_pos rfl, if_pos rfl, Nat.zero_mul, cmul_tw_zero_natCplx hhalf,
          cadd_natCplx_self hhalf]
      · rw [if_neg hpos.ne', if_neg hpos.ne', natCplx_zero, cadd_czero (isZeroCplx_cmul_tw _)]
    · obtain ⟨j, rfl⟩ := Nat.exists_eq_add_of_le' hhigh
      have hj : j < 2 ^ l := by omega
      have hne : j + 2 ^ l ≠ 0 := by omega
      rw [combine_getD_high hlen hlen hj, ih hj, if_neg hne, natCplx_zero]
      rcases Nat.eq_zero_or_pos j with rfl | hpos
      · rw [if_pos rfl, Nat.zero_mul, cmul_tw_zero_natCplx hhalf, csub_natCplx_self hhalf]
      · rw [if_neg hpos.ne', natCplx_zero, csub_czero (isZeroCplx_cmul_tw _)]

/-- Every row has its sum in column 0; the columns of these sums and of zeros are uniform again. -/
theorem entry_f2d_replicate_natCplx {l n u v : Nat} (hn : n * 2 ^ l * 2 ^ l < 2 ^ 53)
    (hu : u < 2 ^ l) (hv : v < 2 ^ l) :
    entry (f2d l (List.replicate (2 ^ l) (List.replicate (2 ^ l) (natCplx n)))) u v
      = natCplx (if u = 0 ∧ v = 0 then n * 2 ^ l * 2 ^ l else 0) := by
  have hrow : n * 2 ^ l < 2 ^ 53 := (Nat.le_mul_of_pos_right _ (Nat.two_pow_pos l)).trans_lt hn
  have hcolumn : ((List.range (2 ^ l)).map fun i => (fft1d l ((List.replicate (2 ^ l)
      (List.replicate (2 ^ l) (natCplx n))).getD i [])).getD v czero)
      = List.replicate (2 ^ l) (natCplx (if v = 0 then n * 2 ^ l else 0)) := by
    refine List.eq_replicate_iff.2 ⟨by simp, fun c hc => ?_⟩
    obtain ⟨i, hi, rfl⟩ := List.mem_map.1 hc
    rw [List.getD_replicate _ (List.mem_range.1 hi), fft1d_replicate_natCplx hrow hv]
  rw [f2d, entry_transform2d _ _ _ List.length_replicate hu hv, hcolumn,
    fft1d_replicate_natCplx (by split_ifs <;> omega) hu]
  by_cases hv0 : v = 0 <;> simp [hv0]

/-- A uniform grid lifts to equal natural numbers (R290). -/
theorem liftedRegion_uniform {s : State} {ss : BitVec 2} {c : Byte}
    (hc : ∀ i j, i < activeN s → j < activeN s → getS s ss i j = c) :
    liftedRegion s ss
      = List.replicate (activeN s) (List.replicate (activeN s) (natCplx c.toNat)) := by
  refine List.eq_replicate_iff.2 ⟨by simp [liftedRegion], fun r hr => ?_⟩
  obtain ⟨i, hi, rfl⟩ := List.mem_map.1 hr
  refine List.eq_replicate_iff.2 ⟨by simp, fun e he => ?_⟩
  obtain ⟨j, hj, rfl⟩ := List.mem_map.1 he
  rw [hc i j (List.mem_range.1 hi) (List.mem_range.1 hj), liftSample_eq]

theorem exec_fft2d {s : State} (hN : s.log2n.toNat ≤ 9) (zd : BitVec 1) (ss : BitVec 2) :
    exec (.fft2d zd ss) s = .next (accept (.fft2d zd ss)
      (endReading (storeRegion zd (f2d (activeLevel s) (liftedRegion s ss)) s))) := by
  simp only [exec, execFft2d, checkN_of_legal _ _ hN, submit_none]

/-- The sum of `N · N` samples is converted exactly (R207). -/
theorem sampleSum_lt (c : Byte) {n : Nat} (hn : n ≤ 512) : c.toNat * n * n < 2 ^ 53 :=
  calc c.toNat * n * n ≤ 2 ^ 8 * 512 * 512 := by gcongr; exact c.isLt.le
    _ < 2 ^ 53 := by norm_num

/-- Settles O48: the lifted grid's transform, stored as the region. -/
theorem uniformGridSpectrum : Obligations.UniformGridSpectrum := by
  unfold Obligations.UniformGridSpectrum
  refine ⟨fun zd ss s c hN hc => ?spectrum, by decide +kernel⟩
  case spectrum =>
    obtain ⟨t, hexec, hholds, -⟩ := storeRegion_command hN (exec_fft2d hN zd ss)
    have hentry {i j : Nat} (hi : i < activeN s) (hj : j < activeN s) : HoldsZ t zd i j
        (natCplx (if i = 0 ∧ j = 0 then c.toNat * activeN s * activeN s else 0)) := by
      have h := hholds i j hi hj
      rw [liftedRegion_uniform hc] at h
      exact entry_f2d_replicate_natCplx (sampleSum_lt c (activeN_le s hN)) hi hj ▸ h
    have hpos : 0 < activeN s := Nat.two_pow_pos _
    refine ⟨t, hexec, ?dc, fun i j hi hj hne => ?others⟩
    case dc =>
      have h := hentry hpos hpos
      rwa [if_pos ⟨rfl, rfl⟩] at h
    case others =>
      have h := hentry hi hj
      rwa [if_neg fun h0 => hne (Prod.ext h0.1 h0.2), natCplx_zero] at h

end Sys2Proof.Machine

/-! SUPPORT. Element moves between C registers and complex banks (R270, R271). Proof of
`Obligations.ElementMoves`. -/

namespace Sys2Proof.Machine

open Sys2Proof.Claims

section ElementMoves

variable {s : State} (r : BitVec 3) (z : BitVec 1) {row col : BitVec 9}

theorem checkElement_of_inRange (hN : s.log2n.toNat ≤ 9) (hrow : row.toNat < activeN s)
    (hcol : col.toNat < activeN s) : checkElement row col s = none := by
  simp [checkElement, checkN_of_legal _ _ hN, checkIndex, hrow, hcol]

theorem exec_cld (h : checkElement row col s = none) :
    exec (.cld r z row col) s = .next (accept (.cld r z row col)
      (endReading (setC r (getZ s z row.toNat col.toNat) s))) := by
  simp only [exec, execCld, h, submit_none]

theorem exec_cst (h : checkElement row col s = none) :
    exec (.cst r z row col) s = .next (accept (.cst r z row col)
      (storeZ z (fun _ _ => getC s r) [(row.toNat, col.toNat)] s)) := by
  simp only [exec, execCst, h, submit_none]

end ElementMoves

@[simp] theorem getC_endReading (s : State) (e : BitVec 3) :
    getC (endReading s) e = getC s e := rfl

/-- A single stored element holds its value, bit for bit. -/
theorem holdsZ_storeZ_singleton (z : BitVec 1) (v : Cplx) (i : Nat) {j : Nat} (hj : j < 512)
    (s : State) : HoldsZ (storeZ z (fun _ _ => v) [(i, j)] s) z i j v :=
  holdsZ_of_storeZ (val := fun _ _ => v) (c := (i, j)) rfl (by simpa using hj)
    (List.mem_singleton_self _)

/-- Storing one element changes no byte but its own sixteen. -/
theorem keepsMemory_storeZ_singleton (z : BitVec 1) (v : Cplx) (i j : Nat) (s : State) :
    KeepsMemory s (storeZ z (fun _ _ => v) [(i, j)] s) (ByteOfZ z i j) := fun x hx => by
  refine memFind_storeZ_of_outside z _ [(i, j)] s x fun c hc => ?_
  obtain rfl := List.mem_singleton.1 hc
  simp only [ByteOfZ] at hx ⊢
  omega

/-- Settles O31: with its check passed, CLD is one write to a C register and CST a store of one
element. -/
theorem elementMoves : Obligations.ElementMoves := by
  unfold Obligations.ElementMoves
  intro r z row col s hN hrow hcol
  have hcheck : checkElement row col s = none := checkElement_of_inRange hN hrow hcol
  refine ⟨⟨_, exec_cld r z hcheck, ?loaded, fun e he => ?others, rfl⟩,
    ⟨_, exec_cst r z hcheck, ?stored, ?kept, rfl⟩⟩
  case loaded => rw [getC_accept, getC_endReading, getC_setC, if_pos rfl]
  case others => rw [getC_accept, getC_endReading, getC_setC, if_neg he]
  case stored => exact holdsZ_storeZ_singleton z (getC s r) row.toNat col.isLt s
  case kept => exact keepsMemory_storeZ_singleton z (getC s r) row.toNat col.toNat s

end Sys2Proof.Machine

/-! SUPPORT. LIFT, TRANS, ZCOPY and FFT2D as one store of complex elements each, and the 2D
transforms as a pass over the rows and a pass over the columns (R290 to R295, R298). Proofs of
`Obligations.LiftCommand`, `Obligations.TransposeCommand`, `Obligations.CopyRegionCommand`,
`Obligations.ForwardTransformCommand` and `Obligations.RowsThenColumns`. -/

namespace Sys2Proof.Machine

open Sys2Proof.Claims

/-- The coordinates off the diagonal of the `n × n` region (R291). -/
def offDiagonal (n : Nat) : List (Nat × Nat) := (coords n).filter fun c => decide (c.1 ≠ c.2)

theorem mem_offDiagonal (n : Nat) (c : Nat × Nat) :
    c ∈ offDiagonal n ↔ c.1 < n ∧ c.2 < n ∧ c.1 ≠ c.2 := by
  obtain ⟨i, j⟩ := c
  simp [offDiagonal, and_assoc]

section RegionCommands

variable {s : State} (hN : s.log2n.toNat ≤ 9)
include hN

theorem exec_lift (zd : BitVec 1) (ss : BitVec 2) :
    exec (.lift zd ss) s = .next (accept (.lift zd ss)
      (endReading (storeRegion zd (liftedRegion s ss) s))) := by
  simp only [exec, execLift, checkN_of_legal _ _ hN, submit_none]

theorem exec_trans (zd : BitVec 1) :
    exec (.trans zd) s = .next (accept (.trans zd)
      (endReading (storeZ zd (fun i j => getZ s zd j i) (offDiagonal (activeN s)) s))) := by
  simp only [exec, execTrans, checkN_of_legal _ _ hN, submit_none, offDiagonal]

theorem exec_zcopy (zd zs : BitVec 1) :
    exec (.zcopy zd zs) s = .next (accept (.zcopy zd zs)
      (if zd = zs then s else endReading (storeRegion zd (getRegion s zs) s))) := by
  simp only [exec, execZcopy, checkN_of_legal _ _ hN, submit_none]

theorem holdsZ_storeRegion (z : BitVec 1) (m : List (List Cplx)) {i j : Nat} (hi : i < activeN s)
    (hj : j < activeN s) : HoldsZ (storeRegion z m s) z i j (entry m i j) :=
  holdsZ_of_storeZ rfl (fun _ hc => (coords_lt s hN hc).2.2.2) (c := (i, j))
    ((mem_coords _ _ _).2 ⟨hi, hj⟩)

theorem keepsMemory_storeRegion (z : BitVec 1) (m : List (List Cplx)) :
    KeepsMemory s (storeRegion z m s) (RegionZ s z) := fun x hx => by
  refine memFind_storeZ_of_outside z (entry m) (coords (activeN s)) s x fun c hc => ?_
  obtain ⟨hi, hj, -⟩ := coords_lt s hN hc
  by_contra hin
  exact hx ⟨c.1, c.2, hi, hj, by omega, by omega⟩

end RegionCommands

/-- Settles O32: the lifted samples are stored as the region. -/
theorem liftCommand : Obligations.LiftCommand := by
  unfold Obligations.LiftCommand
  intro zd ss s hN
  obtain ⟨t, hexec, hholds, hframe⟩ := storeRegion_command hN (exec_lift hN zd ss)
  refine ⟨t, hexec, fun i j hi hj => ?_, hframe⟩
  have h := hholds i j hi hj
  rwa [entry_liftedRegion s ss hi hj] at h

/-- Settles O35: the store goes to the coordinates off the diagonal alone. -/
theorem transposeCommand : Obligations.TransposeCommand := by
  unfold Obligations.TransposeCommand
  intro zd s hN
  have hle := activeN_le s hN
  obtain ⟨t, hexec, hholds, hframe⟩ := storeZ_command
    (stored := fun x => ∃ i j, i < activeN s ∧ j < activeN s ∧ i ≠ j ∧ ByteOfZ zd i j x)
    (exec_trans hN zd)
    (fun c hc => ((mem_offDiagonal _ c).1 hc).2.1.trans_le hle)
    (fun c hc x hx => by
      obtain ⟨hi, hj, hne⟩ := (mem_offDiagonal _ c).1 hc
      exact ⟨c.1, c.2, hi, hj, hne, hx⟩)
  exact ⟨t, hexec, fun i j hi hj hne => hholds (i, j) ((mem_offDiagonal _ _).2 ⟨hi, hj, hne⟩),
    hframe⟩

/-- Settles O36: with two banks the source region is stored as the region of the other. -/
theorem copyRegionCommand : Obligations.CopyRegionCommand := by
  unfold Obligations.CopyRegionCommand
  intro zd zs s hN
  have hcopy := exec_zcopy hN zd zs
  refine ⟨fun hne => ?other, fun heq => ?same⟩
  case other =>
    rw [if_neg hne] at hcopy
    obtain ⟨t, hexec, hholds, hframe⟩ := storeRegion_command hN hcopy
    refine ⟨t, hexec, fun i j hi hj => ?_, hframe⟩
    have h := hholds i j hi hj
    rwa [entry_getRegion s zs hi hj] at h
  case same =>
    rwa [if_pos heq] at hcopy

/-- Settles O38: F2D of the lifted samples is stored as the region. -/
theorem forwardTransformCommand : Obligations.ForwardTransformCommand := by
  unfold Obligations.ForwardTransformCommand
  exact fun zd ss s hN => storeRegion_command hN (exec_fft2d hN zd ss)

/-- Settles O44: both transforms are `transform2d` of their row transform. -/
theorem rowsThenColumns : Obligations.RowsThenColumns := by
  unfold Obligations.RowsThenColumns
  exact fun l m hm _ u v hu hv =>
    ⟨entry_transform2d (fft1d l) _ m hm hu hv, entry_transform2d (ifft1d l) _ m hm hu hv⟩

end Sys2Proof.Machine

/-! SUPPORT. What REALCLAMP leaves: the samples, and IMAGMAX as the largest imaginary magnitude
(R297, R299). Proofs of `Obligations.RealClampCommand` and `Obligations.InverseTransformCommand`. -/

namespace Sys2Proof.Machine

open Sys2Proof.Claims

/-! ### IMAGMAX -/

theorem nonNeg_fabs {x : F64} (h : isNaN x = false) : NonNeg (fabs x) :=
  fabs_eq x ▸ nonNeg_packSign ((isNaN_eq_false_iff x).1 h)

theorem isNaN_fabs (x : F64) : isNaN (fabs x) = isNaN x := by simp [isNaN]

theorem maxAbs_of_nan (m : F64) {x : F64} (h : isNaN x = true) : maxAbs m x = m := by
  simp [maxAbs, isNaN_fabs, h]

/-- The larger of two magnitudes, told by their patterns. -/
theorem maxAbs_of_number {m x : F64} (hm : NonNeg m) (hx : isNaN x = false) :
    maxAbs m x = if fmag m < fmag x then fabs x else m := by
  have habs := nonNeg_fabs hx
  have hgt : fgt (fabs x) m = true ↔ fmag m < fmag x := by
    simp [fgt_iff, habs.isNaN, hm.isNaN, habs.orderKey, hm.orderKey]
  simp [maxAbs, isNaN_fabs, hx, hgt]

/-- `r` is the largest of `m` and the magnitudes of `xs`, NaNs ignored. -/
structure IsLargestAbs (m : F64) (xs : List F64) (r : F64) : Prop where
  nonNeg : NonNeg r
  attained : r = m ∨ ∃ x ∈ xs, isNaN x = false ∧ r = fabs x
  start_le : fle m r = true
  le : ∀ x ∈ xs, isNaN x = false → fle (fabs x) r = true

theorem fle_trans {a b c : F64} (hab : fle a b = true) (hbc : fle b c = true) : fle a c = true := by
  obtain ⟨ha, -, hab⟩ := (fle_iff a b).1 hab
  obtain ⟨-, hc, hbc⟩ := (fle_iff b c).1 hbc
  exact (fle_iff a c).2 ⟨ha, hc, hab.trans hbc⟩

theorem NonNeg.fle_refl {x : F64} (hx : NonNeg x) : fle x x = true := (hx.fle_iff hx).2 le_rfl

theorem isLargestAbs_maxAbs {m : F64} (hm : NonNeg m) (x : F64) :
    IsLargestAbs m [x] (maxAbs m x) := by
  cases hx : isNaN x with
  | true =>
    rw [maxAbs_of_nan m hx]
    exact ⟨hm, .inl rfl, hm.fle_refl, by simp [hx]⟩
  | false =>
    have habs := nonNeg_fabs hx
    rw [maxAbs_of_number hm hx]
    split_ifs with hlt
    · refine ⟨habs, .inr ⟨x, by simp [hx]⟩, ?_, by simp [habs.fle_refl]⟩
      rw [hm.fle_iff habs, fmag_fabs]
      exact hlt.le
    · refine ⟨hm, .inl rfl, hm.fle_refl, ?_⟩
      simp only [List.mem_singleton, forall_eq, habs.fle_iff hm, fmag_fabs]
      exact fun _ => not_lt.1 hlt

theorem isLargestAbs_foldl {m : F64} (hm : NonNeg m) (xs : List F64) :
    IsLargestAbs m xs (xs.foldl maxAbs m) := by
  induction xs generalizing m with
  | nil => exact ⟨hm, .inl rfl, hm.fle_refl, by simp⟩
  | cons x xs ih =>
    have hhead := isLargestAbs_maxAbs hm x
    have htail := ih hhead.nonNeg
    refine ⟨htail.nonNeg, ?_, fle_trans hhead.start_le htail.start_le, fun y hy hnan => ?_⟩
    · rcases htail.attained with heq | ⟨y, hy, hyr⟩
      · rw [List.foldl_cons, heq]
        exact hhead.attained.imp_right fun ⟨y, hy, hyr⟩ =>
          ⟨y, List.mem_cons.2 (.inl (List.mem_singleton.1 hy)), hyr⟩
      · exact .inr ⟨y, List.mem_cons_of_mem x hy, hyr⟩
    · rcases List.mem_cons.1 hy with rfl | hy
      · exact fle_trans (hhead.le y (List.mem_singleton_self y) hnan) htail.start_le
      · exact htail.le y hy hnan

theorem maxImag_eq_foldl (m : List (List Cplx)) :
    maxImag m = (m.flatten.map Cplx.im).foldl maxAbs fzero := by
  rw [maxImag, List.foldl_map, List.foldl_flatten]

/-- The `n × n` matrix of a formula: the shape of every matrix a command reads or makes. -/
def matrixOf (n : Nat) (f : Nat → Nat → Cplx) : List (List Cplx) :=
  (List.range n).map fun i => (List.range n).map fun j => f i j

theorem getRegion_eq_matrixOf (s : State) (z : BitVec 1) :
    getRegion s z = matrixOf (activeN s) (getZ s z) := rfl

theorem transpose_eq_matrixOf (n : Nat) (m : List (List Cplx)) :
    transpose n m = matrixOf n fun i j => entry m j i := rfl

theorem entry_matrixOf {n : Nat} (f : Nat → Nat → Cplx) {i j : Nat} (hi : i < n) (hj : j < n) :
    entry (matrixOf n f) i j = f i j := entry_of_formula n f hi hj

theorem mem_matrixOf_flatten {n : Nat} {f : Nat → Nat → Cplx} {c : Cplx} :
    c ∈ (matrixOf n f).flatten ↔ ∃ i j, i < n ∧ j < n ∧ c = f i j := by
  simp only [matrixOf, List.mem_flatten, List.mem_map, List.mem_range]
  constructor
  · rintro ⟨_, ⟨i, hi, rfl⟩, hc⟩
    obtain ⟨j, hj, rfl⟩ := by simpa using hc
    exact ⟨i, j, hi, hj, rfl⟩
  · rintro ⟨i, j, hi, hj, rfl⟩
    exact ⟨_, ⟨i, hi, rfl⟩, by simpa using ⟨j, hj, rfl⟩⟩

theorem isLargestImag_maxImag (n : Nat) (f : Nat → Nat → Cplx) :
    IsLargestImag (maxImag (matrixOf n f)) n fun i j => (f i j).im := by
  rw [maxImag_eq_foldl]
  have h := isLargestAbs_foldl nonNeg_fzero ((matrixOf n f).flatten.map Cplx.im)
  refine ⟨h.attained.imp_right ?_, fun i j hi hj hnan => ?_⟩
  · rintro ⟨_, hx, hnan, hr⟩
    obtain ⟨c, hc, rfl⟩ := List.mem_map.1 hx
    obtain ⟨i, j, hi, hj, rfl⟩ := mem_matrixOf_flatten.1 hc
    exact ⟨i, j, hi, hj, hnan, hr⟩
  · exact h.le _ (List.mem_map_of_mem (mem_matrixOf_flatten.2 ⟨i, j, hi, hj, rfl⟩)) hnan

/-! ### The samples -/

section ClampRegion

variable {s t : State} {sd : BitVec 2} {m : List (List Cplx)} (hN : s.log2n.toNat ≤ 9)
  (ht : t.mem = (clampRegion sd m s).mem)
include hN ht

theorem holdsS_of_clampRegion {i j : Nat} (hi : i < activeN s) (hj : j < activeN s) :
    HoldsS t sd i j (sat8 (entry m i j).re) := by
  rw [HoldsS, ht]
  exact memFind_storeS sd id (fun i j => sat8 (entry m i j).re) (coords (activeN s)) s i j
    ((mem_coords _ _ _).2 ⟨hi, hj⟩) (fun _ hc => (coords_lt s hN hc).2.2.2)
    fun _ _ h1 h2 => Prod.ext h1 h2

theorem keepsMemory_of_clampRegion : KeepsMemory s t (RegionS s sd) := fun x hx => by
  rw [ht]
  refine memFind_storeS_of_outside sd id (fun i j => sat8 (entry m i j).re) (coords (activeN s)) s x
    fun c hc heq => ?_
  obtain ⟨hi, hj, -⟩ := coords_lt s hN hc
  exact hx ⟨c.1, c.2, hi, hj, heq⟩

/-- The samples stand apart from every complex element (R102). -/
theorem holdsZ_of_clampRegion {z : BitVec 1} {i j : Nat} {v : Cplx} (h : HoldsZ s z i j v) :
    HoldsZ t z i j v := fun k hk => by
  rw [← h k hk, ht]
  refine memFind_storeS_of_complex sd id (fun i j => sat8 (entry m i j).re) (coords (activeN s)) s _
    (by simp only [cplxAddr]; omega) fun c hc => ?_
  exact (coords_lt s hN hc).2.2

end ClampRegion

theorem clampRegion_eq (sd : BitVec 2) (m : List (List Cplx)) (s : State) :
    clampRegion sd m s = { s with mem := (clampRegion sd m s).mem, imagmax := maxImag m } := rfl

/-- A command accepted after REALCLAMP's effect on `u`, a state it has brought about. -/
theorem clampRegion_command {i : Instr} {sd : BitVec 2} {m : List (List Cplx)} {s u : State}
    (h : exec i s = .next (accept i (endReading (clampRegion sd m u)))) :
    ∃ t, exec i s = .next t ∧ t.mem = (clampRegion sd m u).mem ∧ t.imagmax = maxImag m ∧
      t = { u with
        mem := t.mem, imagmax := t.imagmax, draws := u.draws + 1, pending := some i } :=
  ⟨_, h, rfl, rfl, by rw [clampRegion_eq]; rfl⟩

/-! ### The commands -/

section ClampCommands

variable {s : State} (hN : s.log2n.toNat ≤ 9)
include hN

theorem exec_realclamp (sd : BitVec 2) (zs : BitVec 1) :
    exec (.realclamp sd zs) s = .next (accept (.realclamp sd zs)
      (endReading (clampRegion sd (getRegion s zs) s))) := by
  simp only [exec, execRealclamp, checkN_of_legal _ _ hN, submit_none]

theorem exec_ifft2d (sd : BitVec 2) (zd zs : BitVec 1) :
    exec (.ifft2d sd zd zs) s = .next (accept (.ifft2d sd zd zs)
      (endReading (clampRegion sd (i2d (activeLevel s) (getRegion s zs))
        (storeRegion zd (i2d (activeLevel s) (getRegion s zs)) s)))) := by
  simp only [exec, execIfft2d, checkN_of_legal _ _ hN, submit_none]

end ClampCommands

/-- Settles O37: REALCLAMP of the region read from ZS. -/
theorem realClampCommand : Obligations.RealClampCommand := by
  unfold Obligations.RealClampCommand
  intro sd zs s hN
  obtain ⟨t, hexec, hmem, himag, hframe⟩ := clampRegion_command (exec_realclamp hN sd zs)
  refine ⟨t, hexec, fun i j hi hj => ?samples, ?largest, keepsMemory_of_clampRegion hN hmem, hframe⟩
  case samples =>
    rw [← entry_getRegion s zs hi hj]
    exact holdsS_of_clampRegion hN hmem hi hj
  case largest =>
    rw [himag, getRegion_eq_matrixOf]
    exact isLargestImag_maxImag (activeN s) (getZ s zs)

theorem isLargestImag_congr {m : F64} {n : Nat} {f g : Nat → Nat → F64} (h : IsLargestImag m n f)
    (hfg : ∀ i j, i < n → j < n → f i j = g i j) : IsLargestImag m n g := by
  obtain ⟨hattained, hle⟩ := h
  refine ⟨hattained.imp_right ?_, fun i j hi hj => hfg i j hi hj ▸ hle i j hi hj⟩
  rintro ⟨i, j, hi, hj, hij⟩
  exact ⟨i, j, hi, hj, hfg i j hi hj ▸ hij⟩

/-- The result of I2D is a transposed matrix, of side `2^l` whatever was transposed (R294). -/
theorem isLargestImag_i2d (l : Nat) (m : List (List Cplx)) :
    IsLargestImag (maxImag (i2d l m)) (2 ^ l) fun i j => (entry (i2d l m) i j).im := by
  rw [i2d, transform2d, transpose_eq_matrixOf]
  refine isLargestImag_congr (isLargestImag_maxImag _ _) fun i j hi hj => ?_
  rw [entry_matrixOf _ hi hj]

/-- Settles O39: I2D is stored as the region of ZD, and then clamped. -/
theorem inverseTransformCommand : Obligations.InverseTransformCommand := by
  unfold Obligations.InverseTransformCommand
  intro sd zd zs s hN
  obtain ⟨t, hexec, hmem, himag, hframe⟩ := clampRegion_command (exec_ifft2d hN sd zd zs)
  have hNu : (storeRegion zd (i2d (activeLevel s) (getRegion s zs)) s).log2n.toNat ≤ 9 := hN
  refine ⟨t, hexec, fun i j hi hj => ⟨?elements, ?samples⟩, ?largest, fun x hx => ?kept, hframe⟩
  case elements => exact holdsZ_of_clampRegion hNu hmem (holdsZ_storeRegion hN zd _ hi hj)
  case samples => exact holdsS_of_clampRegion hNu hmem hi hj
  case largest =>
    rw [himag]
    exact isLargestImag_i2d _ _
  case kept =>
    obtain ⟨hz, hs⟩ := not_or.1 hx
    exact (keepsMemory_of_clampRegion hNu hmem x hs).trans (keepsMemory_storeRegion hN zd _ x hz)

end Sys2Proof.Machine

/-! SUPPORT. Commands run one after another on one complex bank: each leaves the state it started
from but for the region of the bank, which it replaces by a matrix (R298, R299). Proofs of
`Obligations.ForwardIsItsSteps` and `Obligations.InverseIsItsSteps`. -/

namespace Sys2Proof.Machine

open Sys2Proof.Claims

/-! ### The same banks and registers -/

/-- The same bytes in the banks and the same registers; the draw counter and the command named in
flight are left apart. -/
structure SameBlock (s t : State) : Prop where
  mem : ∀ x, memFind s.mem x = memFind t.mem x
  rest : t = { s with mem := t.mem, draws := t.draws, pending := t.pending }

namespace SameBlock

variable {s t u : State}

protected theorem symm (h : SameBlock s t) : SameBlock t s where
  mem x := (h.mem x).symm
  rest := by rw [h.rest]

protected theorem trans (h : SameBlock s t) (h' : SameBlock t u) : SameBlock s u where
  mem x := (h.mem x).trans (h'.mem x)
  rest := by rw [h'.rest, h.rest]

theorem activeN (h : SameBlock s t) : activeN t = activeN s := by rw [h.rest]; rfl

end SameBlock

theorem sameBlock_accept (i : Instr) (s : State) : SameBlock s (accept i (endReading s)) :=
  ⟨fun _ => rfl, rfl⟩

/-- What a grid leaves at an address depends on what stood there alone. -/
theorem memFind_writeGrid_congr (addr : Nat → Nat → Nat) (val : Nat → Nat → List Byte)
    (cs : List (Nat × Nat)) {m m' : Memory} (h : ∀ x, memFind m x = memFind m' x) (x : Nat) :
    memFind (writeGrid addr val cs m) x = memFind (writeGrid addr val cs m') x := by
  induction cs generalizing m m' with
  | nil => exact h x
  | cons c cs ih =>
    refine ih fun x => ?_
    rw [memFind_writeRun, memFind_writeRun, h]

theorem SameBlock.clampRegion {s t : State} (h : SameBlock s t) (sd : BitVec 2)
    (m : List (List Cplx)) : SameBlock (clampRegion sd m s) (clampRegion sd m t) where
  mem x := by
    simp only [Machine.clampRegion, storeS_mem, h.activeN]
    exact memFind_writeGrid_congr _ _ _ h.mem x
  rest := by
    rw [clampRegion_eq sd m s, clampRegion_eq sd m t]
    exact congrArg (fun t' : State =>
      { t' with mem := (Machine.clampRegion sd m t).mem, imagmax := maxImag m }) h.rest

/-! ### Replacing the region of a bank -/

/-- Of the banks and registers, `t` differs from `s` in the N x N region of bank `z` alone. -/
structure OnlyRegion (z : BitVec 1) (s t : State) : Prop where
  keeps : KeepsMemory s t (RegionZ s z)
  rest : t = { s with mem := t.mem, draws := t.draws, pending := t.pending }

/-- And there `t` holds the matrix `m`, every byte of it written. -/
structure RegionIs (z : BitVec 1) (m : List (List Cplx)) (s t : State) : Prop
    extends OnlyRegion z s t where
  holds : ∀ i j, i < activeN s → j < activeN s → HoldsZ t z i j (entry m i j)

section Region

variable {z : BitVec 1} {m : List (List Cplx)} {s t u : State}

theorem OnlyRegion.log2n (h : OnlyRegion z s t) : t.log2n = s.log2n := by rw [h.rest]

theorem OnlyRegion.activeN (h : OnlyRegion z s t) : activeN t = activeN s := by
  rw [Machine.activeN, h.log2n, Machine.activeN]

theorem OnlyRegion.legal (h : OnlyRegion z s t) (hN : s.log2n.toNat ≤ 9) : t.log2n.toNat ≤ 9 :=
  h.log2n ▸ hN

theorem OnlyRegion.regionZ (h : OnlyRegion z s t) : RegionZ t z = RegionZ s z := by
  funext x
  rw [RegionZ, h.activeN, RegionZ]

/-- What is done to the region later replaces what was done to it before. -/
theorem OnlyRegion.overwrite (h : OnlyRegion z s t) (h' : RegionIs z m t u) : RegionIs z m s u where
  keeps x hx := (h'.keeps x (h.regionZ ▸ hx)).trans (h.keeps x hx)
  rest := by rw [h'.rest, h.rest]
  holds := h.activeN ▸ h'.holds

theorem regionIs_of_onlyStores {i : Instr}
    (hholds : ∀ u v, u < activeN s → v < activeN s → HoldsZ t z u v (entry m u v))
    (hframe : OnlyStores i s t (RegionZ s z)) : RegionIs z m s t where
  keeps := hframe.1
  rest := by rw [hframe.2]
  holds := hholds

theorem regionIs_of_storeRegion {i : Instr} (hN : s.log2n.toNat ≤ 9)
    (h : exec i s = .next (accept i (endReading (storeRegion z m s)))) :
    ∃ t, exec i s = .next t ∧ RegionIs z m s t := by
  obtain ⟨t, hexec, hholds, hframe⟩ := storeRegion_command hN h
  exact ⟨t, hexec, regionIs_of_onlyStores hholds hframe⟩

theorem regionIs_storeRegion (hN : s.log2n.toNat ≤ 9) (z : BitVec 1) (m : List (List Cplx)) :
    RegionIs z m s (storeRegion z m s) where
  keeps := keepsMemory_storeRegion hN z m
  rest := rfl
  holds _ _ := holdsZ_storeRegion hN z m

/-- The region's matrix and the rest fix every byte of the banks and every register. -/
theorem RegionIs.sameBlock (ht : RegionIs z m s t) (hu : RegionIs z m s u) : SameBlock t u where
  mem x := by
    by_cases hx : RegionZ s z x
    · obtain ⟨i, j, hi, hj, hlow, hhigh⟩ := hx
      obtain ⟨k, rfl⟩ := Nat.exists_eq_add_of_le hlow
      rw [ht.holds i j hi hj k (by omega), hu.holds i j hi hj k (by omega)]
    · rw [ht.keeps x hx, hu.keeps x hx]
  rest := by rw [ht.rest, hu.rest]

theorem getZ_of_holdsZ {i j : Nat} {v : Cplx} (h : HoldsZ t z i j v) : getZ t z i j = v :=
  getZ_of_written t z i j v fun k hk => by rw [h k hk, List.getElem?_eq_getElem]

theorem RegionIs.getZ_eq (h : RegionIs z m s t) {i j : Nat} (hi : i < activeN s)
    (hj : j < activeN s) : getZ t z i j = entry m i j := getZ_of_holdsZ (h.holds i j hi hj)

theorem matrixOf_congr {n : Nat} {f g : Nat → Nat → Cplx}
    (h : ∀ i j, i < n → j < n → f i j = g i j) : matrixOf n f = matrixOf n g :=
  List.map_congr_left fun i hi => List.map_congr_left fun j hj =>
    h i j (List.mem_range.1 hi) (List.mem_range.1 hj)

/-- Every byte of the region is written, so that no draw is read from it. -/
theorem RegionIs.getRegion_eq {f : Nat → Nat → Cplx}
    (h : RegionIs z (matrixOf (activeN s) f) s t) : getRegion t z = matrixOf (activeN s) f := by
  rw [getRegion_eq_matrixOf, h.activeN]
  refine matrixOf_congr fun i j hi hj => ?_
  rw [h.getZ_eq hi hj, entry_matrixOf f hi hj]

/-! ### The steps -/

theorem runAll_cons {i : Instr} (h : exec i s = .next t) (is : List Instr) :
    runAll (i :: is) s = runAll is t := by
  simp only [runAll, h]

section Steps

variable (hN : s.log2n.toNat ≤ 9)
include hN

/-- FFTROWS, at N = 1 too, where the transform returns its input (R253, R257). -/
theorem RegionIs.exists_fftrows {f : Nat → Nat → Cplx}
    (h : RegionIs z (matrixOf (activeN s) f) s t) :
    ∃ u, exec (.fftrows z) t = .next u ∧
      RegionIs z ((matrixOf (activeN s) f).map (fft1d (activeLevel s))) s u := by
  have hexec := exec_fftrows (h.legal hN) z
  split_ifs at hexec with h1
  · have hlevel : activeLevel s = 0 := (activeLevel_eq_zero_iff s).2 (h.activeN ▸ h1)
    have hid : fft1d 0 = id := rfl
    rw [hlevel, hid, List.map_id]
    exact ⟨_, hexec, ⟨h.keeps, by rw [h.rest]; rfl⟩, h.holds⟩
  · obtain ⟨u, hu, hreg⟩ := regionIs_of_storeRegion (h.legal hN) hexec
    rw [h.getRegion_eq, activeLevel, h.log2n] at hreg
    exact ⟨u, hu, h.overwrite hreg⟩

theorem OnlyRegion.exists_ifftrows (h : OnlyRegion z s t) :
    ∃ u, exec (.ifftrows z) t = .next u ∧
      RegionIs z ((getRegion t z).map (ifft1d (activeLevel s))) s u := by
  obtain ⟨u, hu, hreg⟩ := regionIs_of_storeRegion (h.legal hN) (exec_ifftrows (h.legal hN) z)
  rw [activeLevel, h.log2n] at hreg
  exact ⟨u, hu, h.overwrite hreg⟩

/-- TRANS, whose store leaves the diagonal as it was. -/
theorem RegionIs.exists_trans (h : RegionIs z m s t) :
    ∃ u, exec (.trans z) t = .next u ∧ RegionIs z (transpose (activeN s) m) s u := by
  obtain ⟨u, hu, hholds, hkeeps, hrest⟩ := transposeCommand z t (h.legal hN)
  rw [h.activeN] at hholds hkeeps
  refine ⟨u, hu, ⟨fun x hx => ?keeps, by rw [hrest, h.rest]⟩, fun i j hi hj => ?holds⟩
  case keeps =>
    refine (hkeeps x ?_).trans (h.keeps x hx)
    rintro ⟨i, j, hi, hj, -, hbyte⟩
    exact hx ⟨i, j, hi, hj, hbyte⟩
  case holds =>
    rw [entry_transpose _ m hi hj]
    by_cases hij : i = j
    · subst hij
      intro k hk
      rw [hkeeps, h.holds i i hi hi k hk]
      rintro ⟨i', j', hi', hj', hne, hlow, hhigh⟩
      have hle := activeN_le s hN
      have hne' : (i', j') ≠ (i, i) := fun h => hne (by rw [(Prod.mk.inj h).1, (Prod.mk.inj h).2])
      have := cplxAddr_disjoint z (hi.trans_le hle) (hj'.trans_le hle) hk hne'
      omega
    · rw [← h.getZ_eq hj hi]
      exact hholds i j hi hj hij

/-- ZCOPY: the bank of ZD reads as that of ZS did, unwritten elements of ZD = ZS included. -/
theorem exists_zcopy (zd zs : BitVec 1) :
    ∃ t, exec (.zcopy zd zs) s = .next t ∧ OnlyRegion zd s t ∧
      getRegion t zd = getRegion s zs := by
  have hexec := exec_zcopy hN zd zs
  split_ifs at hexec with heq
  · subst heq
    exact ⟨_, hexec, ⟨fun _ _ => rfl, rfl⟩, rfl⟩
  · obtain ⟨t, ht, hreg⟩ := regionIs_of_storeRegion hN hexec
    exact ⟨t, ht, hreg.toOnlyRegion, hreg.getRegion_eq⟩

end Steps

end Region

/-- Settles O45: both sides leave `f2d` of the lifted samples as the region of ZD. -/
theorem forwardIsItsSteps : Obligations.ForwardIsItsSteps := by
  unfold Obligations.ForwardIsItsSteps
  intro zd ss s hN
  obtain ⟨t, ht, hregion⟩ := regionIs_of_storeRegion hN (exec_fft2d hN zd ss)
  obtain ⟨t1, e1, h1⟩ := regionIs_of_storeRegion hN (exec_lift hN zd ss)
  obtain ⟨t2, e2, h2⟩ := h1.exists_fftrows hN
  obtain ⟨t3, e3, h3⟩ := h2.exists_trans hN
  obtain ⟨t4, e4, h4⟩ := h3.exists_fftrows hN
  obtain ⟨u, e5, h5⟩ := h4.exists_trans hN
  have hsame := hregion.sameBlock h5
  refine ⟨t, u, ht, ?_, hsame.mem, hsame.rest⟩
  rw [runAll_cons e1, runAll_cons e2, runAll_cons e3, runAll_cons e4, runAll_cons e5, runAll]

/-- Settles O46: before REALCLAMP both sides have left `i2d` of the region of ZS as that of ZD. -/
theorem inverseIsItsSteps : Obligations.InverseIsItsSteps := by
  unfold Obligations.InverseIsItsSteps
  intro sd zd zs s hN
  obtain ⟨t1, e1, h1, hread⟩ := exists_zcopy hN zd zs
  obtain ⟨t2, e2, h2⟩ := h1.exists_ifftrows hN
  obtain ⟨t3, e3, h3⟩ := h2.exists_trans hN
  obtain ⟨t4, e4, h4⟩ := h3.exists_ifftrows hN
  obtain ⟨t5, e5, h5⟩ := h4.exists_trans hN
  have e6 := exec_realclamp (h5.legal hN) sd zd
  rw [h5.getRegion_eq, h3.getRegion_eq, hread] at e6
  rw [h3.getRegion_eq, hread] at h5
  have hclamped := ((regionIs_storeRegion hN zd _).sameBlock h5).clampRegion sd
    (i2d (activeLevel s) (getRegion s zs))
  have hsame := (sameBlock_accept (.ifft2d sd zd zs) _).symm.trans
    (hclamped.trans (sameBlock_accept (.realclamp sd zd) _))
  refine ⟨_, _, exec_ifft2d hN sd zd zs, ?_, hsame.mem, hsame.rest⟩
  rw [runAll_cons e1, runAll_cons e2, runAll_cons e3, runAll_cons e4, runAll_cons e5,
    runAll_cons e6, runAll]
  rfl

end Sys2Proof.Machine

/-! SUPPORT. The first output of the transforms on natural numbers is their sum, converted exactly
(R250, R293). Proof of `Obligations.DcIsTheSampleSum`. -/

namespace Sys2Proof.Machine

open Sys2Proof.Claims

theorem evens_map {α β : Type} (f : α → β) (x : List α) : evens (x.map f) = (evens x).map f := by
  refine List.ext_getElem? fun k => ?_
  simp [evens_getElem?]

theorem odds_map {α β : Type} (f : α → β) (x : List α) : odds (x.map f) = (odds x).map f := by
  refine List.ext_getElem? fun k => ?_
  simp [odds_getElem?]

theorem sum_evens_add_sum_odds (x : List Nat) : (evens x).sum + (odds x).sum = x.sum := by
  induction x using evens.induct with
  | case1 => rfl
  | case2 x => simp [evens, odds]
  | case3 x y rest ih =>
    simp only [evens, odds, List.sum_cons]
    omega

theorem cadd_natCplx {m n : Nat} (hm : m < 2 ^ 53) (hn : n < 2 ^ 53) :
    cadd (natCplx m) (natCplx n) = natCplx (m + n) := by
  simp only [cadd, natCplx]
  rw [fadd_dbl hm hn, nonNeg_fzero.fadd_isZero (by decide) isZero_fzero]

/-- The first output of every size is the sum of the two half-size ones, with the twiddle 1. -/
theorem fft1d_map_natCplx_getD_zero {l : Nat} {x : List Nat} (hlen : x.length = 2 ^ l)
    (hsum : x.sum < 2 ^ 53) : (fft1d l (x.map natCplx)).getD 0 czero = natCplx x.sum := by
  induction l generalizing x with
  | zero =>
    obtain ⟨n, rfl⟩ := List.length_eq_one_iff.1 hlen
    simp [fft1d]
  | succ l ih =>
    have hparts := sum_evens_add_sum_odds x
    rw [pow_succ] at hlen
    have he : (evens x).length = 2 ^ l := by rw [evens_length]; omega
    have ho : (odds x).length = 2 ^ l := by rw [odds_length]; omega
    have hesum : (evens x).sum < 2 ^ 53 := by omega
    have hosum : (odds x).sum < 2 ^ 53 := by omega
    have hout {y : List Nat} (hy : y.length = 2 ^ l) : (fft1d l (y.map natCplx)).length = 2 ^ l :=
      fft1d_length l _ (by rwa [List.length_map])
    rw [fft1d, evens_map, odds_map, combine_getD_low (hout he) (hout ho) (Nat.two_pow_pos l),
      ih he hesum, ih ho hosum, Nat.zero_mul, cmul_tw_zero_natCplx hosum,
      cadd_natCplx hesum hosum, hparts]

/-- The sum of an `n × n` grid, row by row. -/
def gridSum (n : Nat) (f : Nat → Nat → Nat) : Nat :=
  ((List.range n).map fun i => ((List.range n).map (f i)).sum).sum

theorem sum_coords (n : Nat) (f : Nat → Nat → Nat) :
    ((coords n).map fun c => f c.1 c.2).sum = gridSum n f := by
  simp [coords, gridSum, List.flatMap_def, List.sum_flatten, Function.comp_def]

theorem sum_map_range_le {n b : Nat} {f : Nat → Nat} (hf : ∀ i, f i ≤ b) :
    ((List.range n).map f).sum ≤ n * b := by
  simpa using List.sum_le_card_nsmul ((List.range n).map f) b (by simp [hf])

/-- F2D of natural numbers has their sum at DC: each row has its sum in column 0, and column 0 the
sum of these. -/
theorem entry_f2d_natCplx_zero {l : Nat} {f : Nat → Nat → Nat}
    (hrow : ∀ i, ((List.range (2 ^ l)).map (f i)).sum < 2 ^ 53)
    (hsum : gridSum (2 ^ l) f < 2 ^ 53) :
    entry (f2d l (matrixOf (2 ^ l) fun i j => natCplx (f i j))) 0 0
      = natCplx (gridSum (2 ^ l) f) := by
  have hpos := Nat.two_pow_pos l
  have hcolumn : ((List.range (2 ^ l)).map fun i => (fft1d l
      ((matrixOf (2 ^ l) fun i j => natCplx (f i j)).getD i [])).getD 0 czero)
      = ((List.range (2 ^ l)).map fun i => ((List.range (2 ^ l)).map (f i)).sum).map natCplx := by
    rw [List.map_map]
    refine List.map_congr_left fun i hi => ?_
    have hrow_i : (matrixOf (2 ^ l) fun i j => natCplx (f i j)).getD i []
        = ((List.range (2 ^ l)).map (f i)).map natCplx := by
      simp [matrixOf, List.mem_range.1 hi, Function.comp_def]
    rw [hrow_i, fft1d_map_natCplx_getD_zero (by simp) (hrow i)]
    rfl
  rw [f2d, entry_transform2d _ _ _ (by simp [matrixOf]) hpos hpos, hcolumn,
    fft1d_map_natCplx_getD_zero (by simp) hsum, gridSum]

/-- Settles O47: the lifted samples are natural numbers, and their sum is below `2^53`. -/
theorem dcIsTheSampleSum : Obligations.DcIsTheSampleSum := by
  unfold Obligations.DcIsTheSampleSum
  intro zd ss s hN
  have hpos : 0 < activeN s := Nat.two_pow_pos _
  have hle := activeN_le s hN
  set f : Nat → Nat → Nat := fun i j => (getS s ss i j).toNat
  have hrow (i : Nat) : ((List.range (activeN s)).map (f i)).sum ≤ 512 * 2 ^ 8 :=
    (sum_map_range_le fun j => (getS s ss i j).isLt.le).trans (Nat.mul_le_mul_right _ hle)
  have hsum : gridSum (activeN s) f < 2 ^ 53 :=
    calc gridSum (activeN s) f ≤ 512 * (512 * 2 ^ 8) :=
          (sum_map_range_le hrow).trans (Nat.mul_le_mul_right _ hle)
      _ < 2 ^ 53 := by norm_num
  obtain ⟨t, hexec, hholds, -⟩ := forwardTransformCommand zd ss s hN
  have hdc := hholds 0 0 hpos hpos
  have hentry : entry (f2d s.log2n.toNat (liftedRegion s ss)) 0 0
      = natCplx (gridSum (activeN s) f) :=
    entry_f2d_natCplx_zero (fun i => (hrow i).trans_lt (by norm_num)) hsum
  obtain ⟨hnonneg, hfin, hunits⟩ := dbl_spec hsum
  rw [hentry] at hdc
  refine ⟨t, hexec, _, hdc, hfin, ?_⟩
  rw [hnonneg.signedUnits, hunits, ← sum_coords]

end Sys2Proof.Machine

/-! SUPPORT. Rounding to the nearest integer (R296), and the round trip of one sample (R303). Proofs
of `Obligations.SaturationToByte` and `Obligations.SingleSampleRoundTrip`. -/

namespace Sys2Proof.Machine

open Sys2Proof.Claims

/-- No integer is nearer to `num / den` than `r`, and where another is as near `r`
is even (R296). -/
def IsNearestInteger (num den r : Int) : Prop :=
  ∀ q : Int, (r * den - num).natAbs ≤ (q * den - num).natAbs ∧
    ((r * den - num).natAbs = (q * den - num).natAbs → q = r ∨ r % 2 = 0)

theorem IsNearestInteger.neg {num den r : Int} (h : IsNearestInteger num den r) :
    IsNearestInteger (-num) den (-r) := fun q => by
  have hr : -r * den = -(r * den) := neg_mul _ _
  have hq : -q * den = -(q * den) := neg_mul _ _
  obtain ⟨hle, htie⟩ := h (-q)
  rw [hq] at hle htie
  rw [hr]
  omega

/-- Only the quotient and its successor lie within `den` of `num`; the remainder tells which is
nearer. -/
theorem isNearestInteger_roundHalfEven (num : Nat) {den : Nat} (hden : 0 < den) :
    IsNearestInteger num den (roundHalfEven num den) := fun q => by
  have hdiv : ((num / den : Nat) : Int) * den + (num % den : Nat) = num := by
    exact_mod_cast Nat.div_add_mod' num den
  have hmod := Nat.mod_lt num hden
  simp only [roundHalfEven]
  generalize num / den = p at *
  generalize num % den = x at *
  have hsucc : ((p + 1 : Nat) : Int) * den = p * den + den := by push_cast; ring
  have hq : q * den + den ≤ p * den ∨ q = p ∨ q = (p + 1 : Nat) ∨ p * den + 2 * den ≤ q * den := by
    rcases lt_or_ge q p with hlt | hge
    · left; nlinarith
    · rcases lt_or_ge ((p : Int) + 1) q with hgt | hle
      · right; right; right; nlinarith
      · omega
  rcases hq with hq | rfl | rfl | hq <;> split_ifs <;> omega

theorem isNearestInteger_roundHalfEven_two_pow (num k : Nat) :
    IsNearestInteger num (2 ^ k) (roundHalfEven num (2 ^ k)) := by
  have h := isNearestInteger_roundHalfEven num (Nat.two_pow_pos k)
  rwa [Nat.cast_pow, Nat.cast_ofNat] at h

/-- `SAT8` of a finite value, by its sign (R296). -/
theorem toNat_sat8 {x : F64} (hx : isFinite x = true) :
    (sat8 x).toNat = if fsign x then 0 else min (roundHalfEven (units x) (2 ^ 1074)) 255 := by
  simp only [sat8, isNaN_of_isFinite hx, isInf_of_isFinite hx, Bool.false_eq_true, if_false]
  split_ifs
  · rfl
  · rw [BitVec.toNat_ofNat]
    omega

/-- Settles O60: a negative value's nearest integer is the mirrored one, at most 0. -/
theorem saturationToByte : Obligations.SaturationToByte := by
  unfold Obligations.SaturationToByte
  refine fun x => ⟨fun h => by rw [sat8, if_pos h], fun h => by rw [h]; rfl,
    fun h => by rw [h]; rfl, fun hx => ?finite⟩
  case finite =>
    have hnear := isNearestInteger_roundHalfEven_two_pow (units x) 1074
    have hbyte := toNat_sat8 hx
    generalize roundHalfEven (units x) (2 ^ 1074) = r at hnear hbyte
    generalize (2 : Int) ^ 1074 = unit at hnear ⊢
    rw [hbyte, signedUnits]
    cases fsign x with
    | false => exact ⟨r, hnear, by simp only [Bool.false_eq_true, if_false]; omega⟩
    | true => exact ⟨-r, hnear.neg, by simp only [if_true]; omega⟩

theorem roundHalfEven_mul (n : Nat) {den : Nat} (hden : 0 < den) :
    roundHalfEven (n * den) den = n := by
  simp [roundHalfEven, hden]

/-- A converted byte is rounded to itself: conversion is exact (R207). -/
theorem sat8_dbl (b : Byte) : sat8 (dbl b.toNat) = b := by
  have hb := b.isLt
  obtain ⟨hnonneg, hfin, hunits⟩ := dbl_spec (n := b.toNat) (by omega)
  apply BitVec.eq_of_toNat_eq
  rw [toNat_sat8 hfin, hnonneg.sign, hunits, roundHalfEven_mul _ (Nat.two_pow_pos _)]
  simp only [Bool.false_eq_true, if_false]
  omega

/-! ### One sample -/

theorem activeN_of_log2n_zero {s : State} (h : s.log2n = 0#4) : activeN s = 1 := by
  rw [activeN, h]
  rfl

theorem transform2d_single {f : List Cplx → List Cplx} {c : Cplx} (h : f [c] = [c]) :
    transform2d f 1 [[c]] = [[c]] := by
  have htranspose : transpose 1 [[c]] = [[c]] := rfl
  simp [transform2d, h, htranspose]

theorem entry_single (c : Cplx) : entry [[c]] 0 0 = c := rfl

theorem f2d_zero_single (c : Cplx) : f2d 0 [[c]] = [[c]] := transform2d_single rfl

theorem i2d_zero_single {n : Nat} (hn : n < 2 ^ 53) :
    i2d 0 [[natCplx n]] = [[natCplx n]] := by
  obtain ⟨hnonneg, -, -⟩ := dbl_spec hn
  refine transform2d_single ?_
  rw [(transformBaseCase _).2]
  simp [natCplx, hnonneg.isNaN, nonNeg_fzero.isNaN]

/-- Settles O49: neither transform changes a single lifted sample, and SAT8 gives it back. -/
theorem singleSampleRoundTrip : Obligations.SingleSampleRoundTrip := by
  unfold Obligations.SingleSampleRoundTrip
  intro s h0
  have hN : s.log2n.toNat ≤ 9 := by rw [h0]; decide
  have hone : activeN s = 1 := by rw [activeN, h0]; rfl
  have hsample := (getS s 0#2 0 0).isLt
  have hlift : liftedRegion s 0#2 = [[natCplx (getS s 0#2 0 0).toNat]] := by
    simp [liftedRegion, hone, liftSample_eq]
  obtain ⟨t, ht, hregion⟩ := regionIs_of_storeRegion hN (exec_fft2d hN 0#1 0#2)
  have hread : getRegion t 0#1 = f2d (activeLevel s) (liftedRegion s 0#2) := hregion.getRegion_eq
  have hlevel : activeLevel s = 0 := (activeLevel_eq_zero_iff s).2 hone
  rw [hlevel, hlift, f2d_zero_single] at hread hregion
  obtain ⟨u, hu, hholds, -⟩ := inverseTransformCommand 1#2 1#1 0#1 t (hregion.legal hN)
  have hpos (v : State) : 0 < activeN v := Nat.two_pow_pos _
  have helement := hregion.holds 0 0 (hpos s) (hpos s)
  obtain ⟨-, hback⟩ := hholds 0 0 (hpos t) (hpos t)
  rw [entry_single] at helement
  rw [hregion.log2n, h0, hread, BitVec.toNat_ofNat, Nat.zero_mod, i2d_zero_single (by omega),
    entry_single, natCplx, sat8_dbl] at hback
  exact ⟨t, u, ht, helement, hu, hback⟩

end Sys2Proof.Machine

/-! SUPPORT. LOGMAG and its shift map (R330, R331). Proofs of `Obligations.ShiftMap` and
`Obligations.LogMagnitudeCommand`. -/

namespace Sys2Proof.Machine

open Sys2Proof.Claims

/-! ### The shift map -/

theorem shiftIndex_lt {n : Nat} (hn : 0 < n) (i : Nat) : shiftIndex n i < n := Nat.mod_lt _ hn

/-- Twice half the side is the side, but at N = 1, where there is one index alone. -/
theorem shiftIndex_shiftIndex {l i : Nat} (hi : i < 2 ^ l) :
    shiftIndex (2 ^ l) (shiftIndex (2 ^ l) i) = i := by
  cases l with
  | zero =>
    rw [shiftIndex, pow_zero, Nat.mod_one]
    omega
  | succ l =>
    have hhalf : 2 ^ (l + 1) / 2 + 2 ^ (l + 1) / 2 = 2 ^ (l + 1) := by omega
    rw [shiftIndex, shiftIndex, Nat.add_mod_mod, ← Nat.add_assoc, hhalf, Nat.add_mod_left,
      Nat.mod_eq_of_lt hi]

theorem shiftIndex_injective {l i j : Nat} (hi : i < 2 ^ l) (hj : j < 2 ^ l)
    (h : shiftIndex (2 ^ l) i = shiftIndex (2 ^ l) j) : i = j := by
  rw [← shiftIndex_shiftIndex hi, h, shiftIndex_shiftIndex hj]

/-- Settles O50: the map undoes itself, so that it is its own inverse map. -/
theorem shiftMap : Obligations.ShiftMap := by
  unfold Obligations.ShiftMap
  rintro l n rfl
  have hlt (i : Nat) : shiftIndex (2 ^ l) i < 2 ^ l := shiftIndex_lt (Nat.two_pow_pos l) i
  refine ⟨fun _ => rfl, fun i _ => hlt i, fun j hj => ?preimage,
    fun hn => ⟨?involutive, ?dc⟩, ?one⟩
  case preimage =>
    refine ⟨shiftIndex (2 ^ l) j, hlt j, shiftIndex_shiftIndex hj, fun i hi hij => ?_⟩
    rw [← hij, shiftIndex_shiftIndex hi]
  case involutive => exact fun i hi => shiftIndex_shiftIndex hi
  case dc => exact Nat.mod_eq_of_lt (by omega)
  case one =>
    intro h1
    rw [h1, shiftIndex]

/-! ### The command -/

theorem exec_logmag {s : State} (hN : s.log2n.toNat ≤ 9) (hdiv : PositiveFinite s.logdiv)
    (sd : BitVec 2) (zs : BitVec 1) :
    exec (.logmag sd zs) s = .next (accept (.logmag sd zs) (logRegion cfgLn sd zs s)) := by
  simp only [exec, execLogmag, checkN_of_legal _ _ hN, (logValid_iff s.logdiv).2 hdiv, if_true,
    submit_none]

/-- Different elements go to different samples. -/
theorem holdsS_logRegion {s : State} (hN : s.log2n.toNat ≤ 9) (lnf : F64 → F64) (sd : BitVec 2)
    (zs : BitVec 1) {i j : Nat} (hi : i < activeN s) (hj : j < activeN s) :
    HoldsS (logRegion lnf sd zs s) sd (shiftIndex (activeN s) i) (shiftIndex (activeN s) j)
      (logSample lnf s.logdiv (getZ s zs i j)) := by
  refine memFind_storeS sd (shiftIndex (activeN s))
    (fun i j => logSample lnf s.logdiv (getZ s zs i j)) (coords (activeN s)) s i j
    ((mem_coords _ _ _).2 ⟨hi, hj⟩) (fun c _ => ?_) fun c hc h1 h2 => ?_
  · exact (shiftIndex_lt (Nat.two_pow_pos _) _).trans_le (activeN_le s hN)
  · obtain ⟨hrow, hcol, -⟩ := coords_lt s hN hc
    exact Prod.ext (shiftIndex_injective hrow hi h1) (shiftIndex_injective hcol hj h2)

/-- Settles O41: with its checks passed, LOGMAG is one store of samples to the region of SD. -/
theorem logMagnitudeCommand : Obligations.LogMagnitudeCommand := by
  unfold Obligations.LogMagnitudeCommand
  intro sd zs s hN hdiv
  have hexec := exec_logmag hN hdiv sd zs
  refine ⟨_, hexec, fun i j hi hj => holdsS_logRegion hN cfgLn sd zs hi hj, fun x hx => ?kept, rfl⟩
  case kept =>
    refine commandsWriteOnlyTheirBanks _ _ _ hexec x ?_
    rintro (⟨z, hz, -⟩ | ⟨b, hb, hregion⟩)
    · cases hz
    · obtain rfl := Option.some.inj hb
      exact hx hregion

end Sys2Proof.Machine

/-! SUPPORT. Two runs of one command, on states that differ in the sample banks alone (R333). Proof
of `Obligations.SampleBanksDoNotFeedBack`. -/

namespace Sys2Proof.Machine

open Sys2Proof.Claims

/-! ### What does not depend on the sample banks -/

section Reads

variable {s s' : State} (h : AgreeOffSamples s s')
include h

theorem activeN_of_agree : activeN s' = activeN s := by
  rw [h.1]
  rfl

theorem readHalf_of_agree {a : Nat} (ha : 0x500000 ≤ a) : readHalf s' a = readHalf s a := by
  have hdraws : s'.draws = s.draws := by rw [h.1]
  have hbyte (k : Nat) : readByte s' (a + k) = readByte s (a + k) := by
    rw [readByte, readByte, hdraws, h.2 (a + k) (by omega)]
  simp only [readHalf, readBytes, hbyte]

theorem getZ_of_agree (z : BitVec 1) (i j : Nat) : getZ s' z i j = getZ s z i j := by
  have haddr : 0x500000 ≤ cplxAddr z i j := by
    simp only [cplxAddr]
    omega
  simp only [getZ, readHalf_of_agree h haddr, readHalf_of_agree h (Nat.le_add_right_of_le haddr)]

theorem getRow_of_agree (z : BitVec 1) (i : Nat) : getRow s' z i = getRow s z i := by
  simp only [getRow, activeN_of_agree h, getZ_of_agree h]

theorem getRegion_of_agree (z : BitVec 1) : getRegion s' z = getRegion s z := by
  simp only [getRegion, activeN_of_agree h, getRow_of_agree h]

end Reads

/-! ### Two runs side by side -/

/-- The runs from `s` to `t` and from `s'` to `t'` end apart in the sample banks alone, and each
byte is left alone in both or the same after both. -/
structure RunsAlike (s s' t t' : State) : Prop where
  agree : AgreeOffSamples t t'
  bytes : ∀ x, (memFind t.mem x = memFind s.mem x ∧ memFind t'.mem x = memFind s'.mem x) ∨
    memFind t.mem x = memFind t'.mem x

/-- A grid leaves an address alone or writes one byte there, whatever stood in the memory. -/
theorem memFind_writeGrid_cases (addr : Nat → Nat → Nat) (val : Nat → Nat → List Byte)
    (cs : List (Nat × Nat)) (x : Nat) :
    (∀ m, memFind (writeGrid addr val cs m) x = memFind m x) ∨
      ∃ b, ∀ m, memFind (writeGrid addr val cs m) x = some b := by
  induction cs with
  | nil => exact .inl fun _ => rfl
  | cons c cs ih =>
    rcases ih with hkept | ⟨b, hb⟩
    · have hrun (m : Memory) := (hkept _).trans (memFind_writeRun (addr c.1 c.2) (val c.1 c.2) m x)
      simp only [writeGrid, hrun]
      split_ifs
      · cases (val c.1 c.2)[x - addr c.1 c.2]? with
        | none => exact .inl fun _ => rfl
        | some b => exact .inr ⟨b, fun _ => rfl⟩
      · exact .inl fun _ => rfl
    · exact .inr ⟨b, fun m => hb _⟩

namespace RunsAlike

variable {s s' u u' : State}

protected theorem refl (h : AgreeOffSamples s s') : RunsAlike s s' s s' :=
  ⟨h, fun _ => .inl ⟨rfl, rfl⟩⟩

/-- An update that does not look at the memory and does not touch it. -/
protected theorem update (h : RunsAlike s s' u u') {g : State → State}
    (hg : ∀ v m, g { v with mem := m } = { g v with mem := m }) : RunsAlike s s' (g u) (g u') := by
  have hmem (v : State) : (g v).mem = v.mem := (congrArg State.mem (hg v v.mem) :)
  refine ⟨⟨?rest, ?off⟩, ?bytes⟩
  case rest => rw [hmem u', ← hg u u'.mem, ← h.agree.1]
  case off =>
    rw [hmem u, hmem u']
    exact h.agree.2
  case bytes =>
    rw [hmem u, hmem u']
    exact h.bytes

protected theorem setC (h : RunsAlike s s' u u') (d : BitVec 3) {v v' : Cplx} (hv : v' = v) :
    RunsAlike s s' (setC d v u) (setC d v' u') :=
  hv ▸ h.update fun _ _ => rfl

protected theorem endReading (h : RunsAlike s s' u u') :
    RunsAlike s s' (endReading u) (endReading u') :=
  h.update fun _ _ => rfl

protected theorem accept (h : RunsAlike s s' u u') (i : Instr) :
    RunsAlike s s' (accept i u) (accept i u') :=
  h.update fun _ _ => rfl

protected theorem refuse (h : RunsAlike s s' u u') (v : BitVec 64) (code : BitVec 8) :
    RunsAlike s s' (refuse v code u) (refuse v code u') :=
  h.update fun w m => by
    unfold Machine.refuse
    split <;> rfl

protected theorem ite (h : RunsAlike s s' u u') {v v' : State} (h' : RunsAlike s s' v v') {c : Prop}
    [Decidable c] : RunsAlike s s' (if c then u else v) (if c then u' else v') := by
  split
  · exact h
  · exact h'

/-- The same grid written in both runs, to complex or to sample banks. -/
protected theorem writeGrid (h : RunsAlike s s' u u') (addr : Nat → Nat → Nat)
    (val : Nat → Nat → List Byte) (cs : List (Nat × Nat)) :
    RunsAlike s s' { u with mem := writeGrid addr val cs u.mem }
      { u' with mem := writeGrid addr val cs u'.mem } := by
  refine ⟨⟨by rw [h.agree.1], fun x hx => ?off⟩, fun x => ?bytes⟩
  case off =>
    rcases memFind_writeGrid_cases addr val cs x with hkept | ⟨b, hb⟩
    · simpa only [hkept] using h.agree.2 x hx
    · simp only [hb]
  case bytes =>
    rcases memFind_writeGrid_cases addr val cs x with hkept | ⟨b, hb⟩
    · simpa only [hkept] using h.bytes x
    · exact .inr ((hb _).trans (hb _).symm)

protected theorem storeZ (h : RunsAlike s s' u u') (z : BitVec 1) {val val' : Nat → Nat → Cplx}
    (hval : ∀ i j, val' i j = val i j) (cs : List (Nat × Nat)) :
    RunsAlike s s' (storeZ z val cs u) (storeZ z val' cs u') := by
  obtain rfl : val' = val := funext₂ hval
  exact h.writeGrid _ _ cs

protected theorem storeS (h : RunsAlike s s' u u') (b : BitVec 2) (place : Nat → Nat)
    {val val' : Nat → Nat → Byte} (hval : ∀ i j, val' i j = val i j) (cs : List (Nat × Nat)) :
    RunsAlike s s' (storeS b place val cs u) (storeS b place val' cs u') := by
  obtain rfl : val' = val := funext₂ hval
  exact h.writeGrid _ _ cs

protected theorem storeRegion (h : RunsAlike s s' u u') (z : BitVec 1) {m m' : List (List Cplx)}
    (hm : m' = m) : RunsAlike s s' (storeRegion z m u) (storeRegion z m' u') := by
  subst hm
  rw [storeRegion, storeRegion, activeN_of_agree h.agree]
  exact h.storeZ z (fun _ _ => rfl) _

protected theorem clampRegion (h : RunsAlike s s' u u') (b : BitVec 2) {m m' : List (List Cplx)}
    (hm : m' = m) : RunsAlike s s' (clampRegion b m u) (clampRegion b m' u') := by
  subst hm
  rw [clampRegion, clampRegion, activeN_of_agree h.agree]
  exact (h.storeS b _ (fun _ _ => rfl) _).update (g := fun v => { v with imagmax := maxImag m' })
    fun _ _ => rfl

protected theorem transformRow (h : AgreeOffSamples s s') (f : List Cplx → List Cplx) (z : BitVec 1)
    (i : Nat) : RunsAlike s s' (transformRow f z i s) (transformRow f z i s') := by
  rw [transformRow, transformRow, getRow_of_agree h, activeN_of_agree h]
  exact ((RunsAlike.refl h).storeZ z (fun _ _ => rfl) _).endReading

protected theorem transformRows (h : AgreeOffSamples s s') (f : List Cplx → List Cplx)
    (z : BitVec 1) : RunsAlike s s' (transformRows f z s) (transformRows f z s') := by
  rw [transformRows, transformRows, getRegion_of_agree h]
  exact ((RunsAlike.refl h).storeRegion z rfl).endReading

protected theorem submit (h : AgreeOffSamples s s') (i : Instr) {check : Option (BitVec 8)}
    {f : State → State} (hf : RunsAlike s s' (f s) (f s')) :
    RunsAlike s s' (submit i check f s) (submit i check f s') := by
  cases check with
  | none => exact hf.accept i
  | some code => exact (RunsAlike.refl h).refuse _ code

end RunsAlike

/-! ### Every command, case by case -/

/-- Both runs of command `i` are what `submit` makes of one check and one effect. -/
theorem runsAlike_of_submit {i : Instr} {s s' t t' : State} {check : Option (BitVec 8)}
    {f : State → State} (h : AgreeOffSamples s s') (ht : exec i s = .next t)
    (ht' : exec i s' = .next t') (hexec : exec i s = .next (submit i check f s))
    (hexec' : exec i s' = .next (submit i check f s')) (hf : RunsAlike s s' (f s) (f s')) :
    RunsAlike s s' t t' := by
  obtain rfl := Host.Outcome.next.inj (ht.symm.trans hexec)
  obtain rfl := Host.Outcome.next.inj (ht'.symm.trans hexec')
  exact .submit h i hf

/-- A command but LIFT and FFT2D writes what it reads from registers and complex elements, which are
the same in both runs. -/
theorem exec_runsAlike {i : Instr} {s t t' : State} {m : Memory} (hi : readsSamples i = false)
    (h : AgreeOffSamples s { s with mem := m }) (ht : exec i s = .next t)
    (ht' : exec i { s with mem := m } = .next t') : RunsAlike s { s with mem := m } t t' := by
  have hs := RunsAlike.refl h
  cases i with
  | lift | fft2d => cases hi
  | nop => exact runsAlike_of_submit h ht ht' rfl rfl hs
  | cmov | cadd | csub | cmul | cdiv | cconj | cmag | cscln | twld =>
    exact runsAlike_of_submit h ht ht' rfl rfl (hs.setC _ rfl)
  | bfly | bflyw =>
    exact runsAlike_of_submit h ht ht' rfl rfl ((hs.setC _ rfl).setC _ rfl)
  | cld r z row col =>
    exact runsAlike_of_submit h ht ht' rfl rfl (hs.setC r (getZ_of_agree h z _ _)).endReading
  | cst r z row col => exact runsAlike_of_submit h ht ht' rfl rfl (hs.storeZ z (fun _ _ => rfl) _)
  | fftrow zd row =>
    exact runsAlike_of_submit h ht ht' rfl rfl (hs.ite (.transformRow h _ zd row.toNat))
  | ifftrow zd row =>
    exact runsAlike_of_submit h ht ht' rfl rfl (.transformRow h _ zd row.toNat)
  | fftrows zd => exact runsAlike_of_submit h ht ht' rfl rfl (hs.ite (.transformRows h _ zd))
  | ifftrows zd => exact runsAlike_of_submit h ht ht' rfl rfl (.transformRows h _ zd)
  | trans zd =>
    exact runsAlike_of_submit h ht ht' rfl rfl
      (hs.storeZ zd (fun i j => getZ_of_agree h zd j i) _).endReading
  | zcopy zd zs =>
    exact runsAlike_of_submit h ht ht' rfl rfl
      (hs.ite (hs.storeRegion zd (getRegion_of_agree h zs)).endReading)
  | realclamp sd zs =>
    exact runsAlike_of_submit h ht ht' rfl rfl
      (hs.clampRegion sd (getRegion_of_agree h zs)).endReading
  | ifft2d sd zd zs =>
    have hm := congrArg (i2d (activeLevel s)) (getRegion_of_agree h zs)
    exact runsAlike_of_submit h ht ht' rfl rfl
      ((hs.storeRegion zd hm).clampRegion sd hm).endReading
  | filter zd zs =>
    exact runsAlike_of_submit h ht ht' rfl rfl
      (hs.storeZ zd (fun i j => by rw [getZ_of_agree h]; rfl) _).endReading
  | logmag sd zs =>
    exact runsAlike_of_submit h ht ht' rfl rfl
      (hs.storeS sd _ (fun i j => congrArg (logSample cfgLn s.logdiv) (getZ_of_agree h zs i j))
        _).endReading

/-- Settles O27: the second state is the first with another memory, and the runs are alike. -/
theorem sampleBanksDoNotFeedBack : Obligations.SampleBanksDoNotFeedBack := by
  unfold Obligations.SampleBanksDoNotFeedBack
  intro i s s' t t' hi h ht ht'
  obtain ⟨m, rfl⟩ : ∃ m, s' = { s with mem := m } := ⟨_, h.1⟩
  obtain ⟨hagree, hbytes⟩ := exec_runsAlike hi h ht ht'
  exact ⟨hagree, hbytes⟩

end Sys2Proof.Machine

/-! SUPPORT. The filter bank (R350 to R355): the centered distance, the factors at DC, and FILTER as
one store of the region of ZD. Proofs of `Obligations.CenteredDistance`, `Obligations.DcFactors`,
`Obligations.FilterCommand` and `Obligations.IdealFilterIsIdempotent`. -/

namespace Sys2Proof.Machine

open Sys2Proof.Claims

/-! ### The centered distance -/

section Frequency

variable {l i : Nat} (hi : i < 2 ^ l)
include hi

/-- Adding N/2 and wrapping around sends an index of the lower half above N/2 and one of the upper
half below it. -/
theorem centered_eq_frequency : centered (2 ^ l) i = frequency (2 ^ l) i := by
  cases l with
  | zero =>
    obtain rfl : i = 0 := by omega
    rfl
  | succ l =>
    have hhalf : 2 ^ (l + 1) / 2 = 2 ^ l := by omega
    unfold centered frequency
    rw [hhalf]
    split_ifs with hlow
    · rw [Nat.mod_eq_of_lt (by omega)]
      omega
    · rw [Nat.mod_eq_sub_mod (by omega), Nat.mod_eq_of_lt (by omega)]
      omega

theorem frequency_eq_zero_iff : frequency (2 ^ l) i = 0 ↔ i = 0 := by
  unfold frequency
  split_ifs <;> omega

theorem abs_frequency_le (hl : l ≤ 9) : |frequency (2 ^ l) i| ≤ 256 := by
  have hside : 2 ^ l ≤ 2 ^ 9 := Nat.pow_le_pow_right two_pos hl
  rw [abs_le, frequency]
  split_ifs <;> omega

theorem frequency_sq_le (hl : l ≤ 9) : frequency (2 ^ l) i * frequency (2 ^ l) i ≤ 65536 :=
  (abs_mul_abs_self _).symm.trans_le
    (mul_self_le_mul_self (abs_nonneg _) (abs_frequency_le hi hl))

/-- The mirrored index has the opposite frequency, but at N/2, which is its own mirror (R362). -/
theorem frequency_mirror : frequency (2 ^ l) ((2 ^ l - i) % 2 ^ l) = -frequency (2 ^ l) i ∨
    (2 ^ l - i) % 2 ^ l = i := by
  rcases Nat.eq_zero_or_pos i with rfl | hpos
  · exact .inr (by rw [Nat.sub_zero, Nat.mod_self])
  · rw [Nat.mod_eq_of_lt (by omega), frequency, frequency]
    split_ifs <;> omega

theorem frequency_mirror_sq :
    frequency (2 ^ l) ((2 ^ l - i) % 2 ^ l) * frequency (2 ^ l) ((2 ^ l - i) % 2 ^ l)
      = frequency (2 ^ l) i * frequency (2 ^ l) i := by
  rcases frequency_mirror hi with hneg | hself
  · rw [hneg, neg_mul_neg]
  · rw [hself]

end Frequency

theorem natCast_distSq {l i j : Nat} (hi : i < 2 ^ l) (hj : j < 2 ^ l) :
    (distSq (2 ^ l) i j : Int) = frequency (2 ^ l) i * frequency (2 ^ l) i
      + frequency (2 ^ l) j * frequency (2 ^ l) j := by
  rw [distSq, centered_eq_frequency hi, centered_eq_frequency hj]
  exact Int.toNat_of_nonneg (add_nonneg (mul_self_nonneg _) (mul_self_nonneg _))

/-- Settles O51: each conjunct is a fact about the signed frequencies, whose squares are summed. -/
theorem centeredDistance : Obligations.CenteredDistance := by
  unfold Obligations.CenteredDistance
  rintro l hl n i j rfl hi hj
  have hdist := natCast_distSq hi hj
  refine ⟨hdist, ?bound, ?zero, ?mirror⟩
  case bound =>
    have hrow := frequency_sq_le hi hl
    have hcol := frequency_sq_le hj hl
    omega
  case zero =>
    rw [← Int.natCast_eq_zero, hdist, mul_self_add_mul_self_eq_zero, frequency_eq_zero_iff hi,
      frequency_eq_zero_iff hj]
  case mirror =>
    have hpos : 0 < 2 ^ l := Nat.two_pow_pos l
    rw [← Int.natCast_inj, natCast_distSq (Nat.mod_lt _ hpos) (Nat.mod_lt _ hpos), hdist,
      frequency_mirror_sq hi, frequency_mirror_sq hj]

/-! ### The factors at DC -/

theorem centerDist_zero : centerDist 0 = fzero := by
  simp [centerDist, dbl_zero, fsqrt, nonNeg_fzero.isNaN, isZero_fzero]

theorem fdiv_fzero {c : F64} (hc : PositiveFinite c) : fdiv fzero c = fzero := by
  obtain ⟨hnonneg, hfin, hzero⟩ := positiveFinite_kinds hc
  rw [fdiv_of_finite (isFinite_of_isZero isZero_fzero) hfin hzero, units_of_isZero isZero_fzero,
    Nat.zero_mul, roundUnits_zero (units_pos hzero), hnonneg.sign]
  decide

theorem fmul_fzero_fzero : fmul fzero fzero = fzero := by
  have hfin := isFinite_of_isZero isZero_fzero
  rw [fmul_of_finite hfin hfin, units_of_isZero isZero_fzero, Nat.zero_mul,
    roundUnits_zero (by positivity), bne_self_eq_false]
  decide

theorem fourthPower_zero {c : F64} (hc : PositiveFinite c) : fourthPower c 0 = fzero := by
  simp only [fourthPower, centerDist_zero, fdiv_fzero hc, fmul_fzero_fzero]

theorem fadd_fone_fzero : fadd fone fzero = fone :=
  nonNeg_fone.fadd_isZero isFinite_fone isZero_fzero

theorem idealPass_zero {c : F64} (hc : PositiveFinite c) (hp : Bool) : idealPass hp c 0 = !hp := by
  have hle : fle fzero c = true :=
    (nonNeg_fzero.fle_iff (positiveFinite_kinds hc).1).2 (Nat.zero_le _)
  rw [idealPass, centerDist_zero, hle, Bool.true_bne]

theorem gaussianQ_zero (c : F64) : gaussianQ c 0 = fzero := if_pos rfl

/-- EXP is called at −0, where R208 fixes it. -/
theorem gaussianFactor_zero (c : F64) (hp : Bool) :
    gaussianFactor cfgExp hp c 0 = if hp then fzero else fone := by
  have hexp : cfgExp (fneg (gaussianQ c 0)) = fone :=
    cfgExp_allowed.atZero _ (by rw [gaussianQ_zero, isZero_fneg, isZero_fzero])
  simp only [gaussianFactor, hexp, fsub_self isFinite_fone]

theorem butterworthFactor_zero {c : F64} (hc : PositiveFinite c) (hp : Bool) :
    butterworthFactor hp c 0 = if hp then fzero else fone := by
  have hne : fzero ≠ finf := by decide
  simp only [butterworthFactor, fourthPower_zero hc, fadd_fone_fzero, if_neg hne,
    fdiv_fone nonNeg_fzero.isNaN, fdiv_fone nonNeg_fone.isNaN]

theorem rscale_fone {x : Cplx} (hre : isNaN x.re = false) (him : isNaN x.im = false) :
    rscale fone x = x := by
  rw [rscale, fmul_fone hre, fmul_fone him]

/-- Settles O52: the distance, the exponent and the fourth power are all `+0` at DC. -/
theorem dcFactors : Obligations.DcFactors := by
  unfold Obligations.DcFactors
  exact fun c hc => ⟨idealPass_zero hc false, idealPass_zero hc true,
    gaussianFactor_zero c false, gaussianFactor_zero c true,
    butterworthFactor_zero hc false, butterworthFactor_zero hc true, fun _ => rscale_fone⟩

/-! ### The element that FILTER stores, family by family -/

section FilterElement

variable (expf : F64 → F64) (hp : Bool) (pass : BitVec 1) (c : F64) (d2 : Nat) (x : Cplx)

theorem highPass_eq : (pass == 1#1) = !decide (pass = 0#1) := by
  revert pass
  decide

/-- The low pass is PASS = 0, the high pass PASS = 1 (R36). -/
theorem ite_highPass {α : Type} (high low : α) :
    (if pass == 1#1 then high else low) = if pass = 0#1 then low else high := by
  simp only [highPass_eq, Bool.not_eq_true', decide_eq_false_iff_not, ite_not]

theorem filterElement_ideal :
    filterElement expf 0#2 hp c d2 x = if idealPass hp c d2 then x else czero := if_pos rfl

theorem filterElement_gaussian :
    filterElement expf 1#2 hp c d2 x = rscale (gaussianFactor expf hp c d2) x :=
  (if_neg (by decide)).trans (if_pos rfl)

theorem filterElement_butterworth :
    filterElement expf 2#2 hp c d2 x = rscale (butterworthFactor hp c d2) x :=
  (if_neg (by decide)).trans (if_neg (by decide))

theorem idealPass_iff :
    idealPass (pass == 1#1) c d2 = true ↔ fle (centerDist d2) c = decide (pass = 0#1) := by
  rw [idealPass, highPass_eq, bne_iff_ne, ne_eq, Bool.not_eq_not]

theorem gaussianFactor_eq : gaussianFactor expf (pass == 1#1) c d2
    = if pass = 0#1 then expf (fneg (gaussianQ c d2))
      else fsub fone (expf (fneg (gaussianQ c d2))) :=
  ite_highPass pass _ _

theorem butterworthFactor_eq : butterworthFactor (pass == 1#1) c d2
    = if pass = 0#1 then fdiv fone (fadd fone (fourthPower c d2))
      else if fourthPower c d2 = finf then fone
      else fdiv (fourthPower c d2) (fadd fone (fourthPower c d2)) :=
  ite_highPass pass _ _

/-- A passed element is passed again, and a blocked one is `(+0, +0)` either way (R357). -/
theorem filterElement_ideal_idempotent :
    filterElement expf 0#2 hp c d2 (filterElement expf 0#2 hp c d2 x)
      = filterElement expf 0#2 hp c d2 x := by
  simp only [filterElement_ideal]
  split_ifs <;> rfl

end FilterElement

/-! ### The command -/

/-- What FILTER computes for coordinate (i, j) of a state (R355). -/
def filteredElement (s : State) (zs : BitVec 1) (i j : Nat) : Cplx :=
  filterElement cfgExp s.family (s.pass == 1#1) s.cutoff (distSq (activeN s) i j) (getZ s zs i j)

theorem filterRegion_eq (zd zs : BitVec 1) (s : State) : filterRegion cfgExp zd zs s
    = endReading (storeZ zd (filteredElement s zs) (coords (activeN s)) s) := rfl

section FilterCommand

variable {s : State} (hN : s.log2n.toNat ≤ 9) (hfam : s.family ≠ 3#2)
  (hcut : PositiveFinite s.cutoff) (zd zs : BitVec 1)
include hN hfam hcut

theorem exec_filter :
    exec (.filter zd zs) s = .next (accept (.filter zd zs)
      (endReading (storeZ zd (filteredElement s zs) (coords (activeN s)) s))) := by
  simp only [exec, execFilter, checkN_of_legal _ _ hN, (filtValid_iff _ _).2 ⟨hfam, hcut⟩, if_true,
    submit_none, filterRegion_eq]

theorem filter_command : ∃ t, exec (.filter zd zs) s = .next t ∧
    (∀ i j, i < activeN s → j < activeN s → HoldsZ t zd i j (filteredElement s zs i j)) ∧
    OnlyStores (.filter zd zs) s t (RegionZ s zd) := by
  obtain ⟨t, hexec, hholds, hframe⟩ := storeZ_command (stored := RegionZ s zd)
    (exec_filter hN hfam hcut zd zs) (fun c hc => (coords_lt s hN hc).2.2.2)
    fun c hc x hx => ⟨c.1, c.2, (coords_lt s hN hc).1, (coords_lt s hN hc).2.1, hx⟩
  exact ⟨t, hexec, fun i j hi hj => hholds (i, j) ((mem_coords _ _ _).2 ⟨hi, hj⟩), hframe⟩

end FilterCommand

/-- Settles O40: FILTER stores `filteredElement`, which in each family is the rule's element. -/
theorem filterCommand : Obligations.FilterCommand := by
  unfold Obligations.FilterCommand
  intro zd zs s hN hfam hcut
  obtain ⟨t, hexec, hholds, hframe⟩ := filter_command hN hfam hcut zd zs
  refine ⟨t, hexec, fun i j hi hj => ?elements, hframe⟩
  intro d2 d c x hd2 hd hc hx
  have hstored := hholds i j hi hj
  rw [filteredElement, ← hd2, ← hc, ← hx] at hstored
  refine ⟨fun hideal => ?ideal, fun hgauss q g f hq hg hf => ?gaussian,
    fun hbutter r r2 r4 den f hr hr2 hr4 hden hf => ?butterworth⟩
  case ideal =>
    rw [hideal, filterElement_ideal, if_congr (idealPass_iff _ _ _) rfl rfl] at hstored
    rw [hd]
    exact hstored
  case gaussian =>
    rw [hgauss, filterElement_gaussian, gaussianFactor_eq] at hstored
    rw [hf, hg, hq]
    exact hstored
  case butterworth =>
    rw [hbutter, filterElement_butterworth, butterworthFactor_eq] at hstored
    rw [hf, hden, hr4, hr2, hr, hd]
    exact hstored

/-- Settles O54: the second FILTER runs with the same settings on the elements the first stored. -/
theorem idealFilterIsIdempotent : Obligations.IdealFilterIsIdempotent := by
  unfold Obligations.IdealFilterIsIdempotent
  intro zd zs ze s hN hideal hcut
  have hfam : s.family ≠ 3#2 := by
    rw [hideal]
    decide
  obtain ⟨t, ht, hfirst, -, hrest⟩ := filter_command hN hfam hcut zd zs
  have hlog : t.log2n = s.log2n := by rw [hrest]
  have hfamily : t.family = s.family := by rw [hrest]
  have hpass : t.pass = s.pass := by rw [hrest]
  have hcutoff : t.cutoff = s.cutoff := by rw [hrest]
  have hside : activeN t = activeN s := by rw [activeN, hlog, activeN]
  obtain ⟨u, hu, hsecond, -⟩ := filter_command (s := t) (hlog ▸ hN) (hfamily ▸ hfam)
    (hcutoff ▸ hcut) ze zd
  refine ⟨t, u, ht, hu, fun i j hi hj v hv => ?_⟩
  have hread : getZ t zd i j = filteredElement s zs i j := getZ_of_holdsZ (hfirst i j hi hj)
  have hsame : filteredElement t zd i j = v := by
    rw [← getZ_of_holdsZ hv, filteredElement, hread, filteredElement, hside, hfamily, hpass,
      hcutoff, hideal, filterElement_ideal_idempotent]
  rw [← hsame]
  exact hsecond i j (hside ▸ hi) (hside ▸ hj)

end Sys2Proof.Machine

/-! SUPPORT. Refusal, acceptance, completion and the interrupt line (R400 to R404, R409, R420): what
leaves a recorded error standing, and what a CMD write comes to by the checks of R400. Proofs of
`Obligations.ErrorIsSticky`, `Obligations.FailedCheckRefuses`, `Obligations.PassedChecksAccept`,
`Obligations.CompletionSetsDone` and `Obligations.InterruptLine`. -/

namespace Sys2Proof.Machine

open Sys2Proof.Claims

/-! ### A recorded error -/

/-- The error recorded in `s` is still recorded in `t` (R404, R409). -/
def ErrorStands (s t : State) : Prop :=
  t.err = true ∧ t.errcode = s.errcode ∧ t.errcmd = s.errcmd

section ErrorStands

variable {s t : State}

theorem errorStands_coreTurn (herr : s.err = true) : ErrorStands s (coreTurn s) := by
  rw [coreTurn]
  split <;> exact ⟨herr, rfl, rfl⟩

theorem errorStands_busRead (herr : s.err = true) (a n : Nat) : ErrorStands s (busRead a n s) := by
  rw [busRead_eq]
  exact ⟨herr, rfl, rfl⟩

/-- A later error sets EOVF alone (R404). -/
theorem errorStands_refuse (herr : s.err = true) (v : BitVec 64) (code : BitVec 8) :
    ErrorStands s (refuse v code s) := by
  rw [refuse, if_pos herr]
  exact ⟨herr, rfl, rfl⟩

theorem errorStands_exec (herr : s.err = true) {i : Instr} (h : exec i s = .next t) :
    ErrorStands s t := by
  rcases exec_cases h with ⟨code, -, rfl⟩ | ⟨-, u, hu, rfl⟩
  · exact errorStands_refuse herr _ _
  · rw [hu.rest]
    exact ⟨herr, rfl, rfl⟩

/-- A STATUS write with bit 2 clear leaves ERR, ERRCODE and ERRCMD (R40). -/
theorem errorStands_writeOneToClear (herr : s.err = true) {v : BitVec 64}
    (hkeep : v.getLsbD 2 = false) : ErrorStands s (writeOneToClear v s) := by
  rw [ErrorStands, writeOneToClear_err, writeOneToClear_errcode, writeOneToClear_errcmd, hkeep,
    herr]
  exact ⟨rfl, rfl, rfl⟩

/-- Of the locations a write reaches, STATUS alone holds the error record (R40). -/
theorem errorStands_writeValue (herr : s.err = true) {a n : Nat} {v : BitVec 64}
    (hkeep : a = 0x030 → v.getLsbD 2 = false) : ErrorStands s (writeValue a n v s) := by
  rw [writeValue]
  cases regionOf a with
  | control =>
    simp only [writeControl]
    split_ifs with hncfg hfilt hcutoff hlogdiv hstatus hirqen
    · exact ⟨herr, rfl, rfl⟩
    · exact ⟨herr, rfl, rfl⟩
    · exact ⟨herr, rfl, rfl⟩
    · exact ⟨herr, rfl, rfl⟩
    · exact errorStands_writeOneToClear herr (hkeep hstatus)
    · exact ⟨herr, rfl, rfl⟩
    · exact ⟨herr, rfl, rfl⟩
  | cregs | rom | samples | complex | reserved | undecoded => exact ⟨herr, rfl, rfl⟩

theorem eq_of_step_of_settled {u : State} (hstep : step s = .next t)
    (hnext : nextActivity s = .settled u) : u = t :=
  Host.Outcome.next.inj ((step_of_settled hnext).symm.trans hstep)

/-- A submission can only be refused once more or accepted (R400). -/
theorem errorStands_of_submitValue {u : State} {v : BitVec 64} (herr : u.err = true)
    (hnext : nextActivity s = submitValue v u) (hstep : step s = .next t) : ErrorStands u t := by
  rcases submitValue_cases v u with ⟨i, -, he⟩ | ⟨_, -, he⟩
  · rw [step, hnext, he] at hstep
    exact errorStands_exec herr hstep
  · exact eq_of_step_of_settled hstep (hnext.trans he) ▸ errorStands_refuse herr _ _

/-- STATUS takes 8-byte writes alone (R104). -/
theorem size_eq_b8_of_accessible_status {size : AccessSize}
    (hacc : accessible s 0x030 size.bytes = true) : size = .b8 := by
  obtain ⟨hsize, -⟩ := (accessible_iff _ _ _).1 hacc
  cases size with
  | b8 => rfl
  | b1 | b2 | b4 => exact absurd hsize (by decide)

theorem errorStands_of_write {offset : BitVec 32} {size : AccessSize} {v : BitVec 64}
    {rest : List Event} (herr : s.err = true)
    (hev : s.events = .access (.write offset size v) :: rest)
    (hkeep : clearsErr (.access (.write offset size v)) = false) (hstep : step s = .next t) :
    ErrorStands s t := by
  have hnext := nextActivity_of_write hev
  rcases busWrite_cases offset.toNat size.bytes v (pastEvent s) with
    hdenied | ⟨⟨hacc, -⟩, ⟨-, hsubmit⟩ | ⟨-, hstore⟩⟩
  · exact eq_of_step_of_settled hstep (hnext.trans hdenied) ▸ ⟨herr, rfl, rfl⟩
  · exact errorStands_of_submitValue (u := answer (.okay 0#64) (pastEvent s)) herr
      (hnext.trans hsubmit) hstep
  · refine eq_of_step_of_settled hstep (hnext.trans hstore) ▸
      errorStands_writeValue (s := pastEvent s) herr fun hstatus => ?_
    obtain rfl := size_eq_b8_of_accessible_status (hstatus ▸ hacc)
    obtain rfl : offset = 0x030#32 := BitVec.eq_of_toNat_eq hstatus
    simpa [clearsErr, w1cErr] using hkeep

end ErrorStands

/-- Settles O12: a turn of CORE, a read, and a write that is no W1C of ERR leave the record
standing; the reset event is one that clears it. -/
theorem errorIsSticky : Obligations.ErrorIsSticky := by
  unfold Obligations.ErrorIsSticky
  intro s t herr hstep
  cases hev : s.events with
  | nil =>
    exact .inl (eq_of_step_of_settled hstep (nextActivity_of_nil hev) ▸
      errorStands_coreTurn (s := pastEvent s) herr)
  | cons e rest =>
    by_cases hclear : clearsErr e = true
    · exact .inr ⟨e, rest, rfl, hclear⟩
    · left
      cases e with
      | core =>
        exact eq_of_step_of_settled hstep (nextActivity_of_core hev) ▸
          errorStands_coreTurn (s := pastEvent s) herr
      | reset => exact absurd rfl hclear
      | access a =>
        cases a with
        | read offset size =>
          exact eq_of_step_of_settled hstep (nextActivity_of_read hev) ▸
            errorStands_busRead (s := pastEvent s) herr _ _
        | write offset size v =>
          exact errorStands_of_write herr hev (Bool.eq_false_iff.2 hclear) hstep

/-! ### Submission by the checks of R400 -/

section Submission

variable {s : State} {v : BitVec 64} {rest : List Event}

theorem submitError_of_command {i : Instr} (h : decode v = .command i) :
    submitError v s = commandError i s := by rw [submitError, h]

theorem submitError_of_illegal {c : IllegalCause} (h : decode v = .illegal c) :
    submitError v s = some codeIllegal := by
  rw [submitError, h]
  rfl

/-- The checks read the configuration alone, not the events or the answer. -/
theorem commandError_withEvents (i : Instr) (s : State) (es : List Event) (r : Option Response) :
    commandError i { s with events := es, resp := r } = commandError i s := rfl

/-- The submitted value is refused on the state past the event, with the write answered OKAY. -/
theorem step_of_failed_check {code : BitVec 8}
    (hev : s.events = .access (.write 0x028#32 .b8 v) :: rest) (hidle : s.pending = none)
    (herror : submitError v s = some code) :
    step s = .next (refuse v code { s with events := rest, resp := some (.okay 0#64) }) := by
  cases hdecode : decode v with
  | command i =>
    rw [submitError_of_command hdecode] at herror
    obtain ⟨f, hexec, -⟩ :=
      exec_submitsWithin i { s with events := rest, resp := some (.okay 0#64) }
    rw [stepRunsDecodedCommand s v i rest hev hidle hdecode, hexec, commandError_withEvents, herror,
      submit_some, ← encodeOfDecode v i hdecode]
  | illegal c =>
    obtain rfl : codeIllegal = code :=
      Option.some.inj ((submitError_of_illegal hdecode).symm.trans herror)
    have hreg : IsRegister (0x028#32).toNat := isRegister_of_decide _ rfl
    have hnext := nextActivity_of_cmd_write hev (hreg.accessible (.inl hidle)) rfl
    rw [submitValue, hdecode] at hnext
    exact step_of_settled hnext

theorem exists_command_of_submitError_none (h : submitError v s = none) :
    ∃ i, decode v = .command i ∧ commandError i s = none := by
  cases hdecode : decode v with
  | command i => exact ⟨i, rfl, submitError_of_command hdecode ▸ h⟩
  | illegal c => exact absurd ((submitError_of_illegal hdecode).symm.trans h) nofun

end Submission

/-- Settles O7. -/
theorem failedCheckRefuses : Obligations.FailedCheckRefuses := by
  unfold Obligations.FailedCheckRefuses
  intro s v code rest hev hidle herror
  rw [step_of_failed_check hev hidle herror, refuse]

/-- Settles O8: the step is `exec` of the decoded command, and of its two outcomes the checks leave
acceptance. -/
theorem passedChecksAccept : Obligations.PassedChecksAccept := by
  unfold Obligations.PassedChecksAccept
  intro s v rest hev hidle hpass
  obtain ⟨i, hdecode, hnone⟩ := exists_command_of_submitError_none hpass
  have hstep := stepRunsDecodedCommand s v i rest hev hidle hdecode
  obtain ⟨t, hexec⟩ := exec_next i { s with events := rest, resp := some (.okay 0#64) }
  refine ⟨i, t, hdecode, hstep.trans hexec, ?_⟩
  rcases exec_cases hexec with ⟨code, hsome, -⟩ | ⟨-, u, hu, rfl⟩
  · rw [commandError_withEvents, hnone] at hsome
    cases hsome
  · refine ⟨rfl, ?_⟩
    rw [hu.rest]
    rfl

/-! ### Completion and the interrupt line -/

/-- Settles O9. -/
theorem completionSetsDone : Obligations.CompletionSetsDone := by
  unfold Obligations.CompletionSetsDone
  intro s rest hev
  have hstep : step s = .next (coreTurn { s with events := rest }) := by
    rw [step_of_settled (nextActivity_of_core hev), pastEvent_of_cons hev]
  rw [hstep, coreTurn]
  exact ⟨fun hbusy => congrArg _ (if_pos hbusy),
    fun hidle => congrArg _ (if_neg (Bool.eq_false_iff.1 hidle))⟩

/-- A refusal leaves an error recorded, its own or the first, and neither DONE nor an enable
changes (R404). -/
theorem irq_refuse (v : BitVec 64) (code : BitVec 8) (s : State) :
    irq (refuse v code s) = ((s.done && s.doneie) || s.errie) := by
  rcases refuse_cases v code s with ⟨herr, he⟩ | ⟨-, he⟩ <;> rw [he]
  · simp [irq, herr]
  · simp [irq]

/-- Settles O22. -/
theorem interruptLine : Obligations.InterruptLine := by
  unfold Obligations.InterruptLine
  refine ⟨fun s => ?formula, fun s => ?completion, fun s v code => irq_refuse v code s,
    fun _ _ => rfl, fun s => ?doneMasked, fun s => ?errorMasked, rfl⟩
  case formula | completion | doneMasked | errorMasked => simp [irq]

end Sys2Proof.Machine
